-- ==== Sys2Proof/Word.lean ====
section
/-!
DEFINITION. The word types of the block, one per width the spec names (00_scope.md R4, R5, section 5).
-/

namespace Sys2Proof

/-- A stream byte, an `op` or an `a` field: 8 bits (R4 `BYTE_W`, R60). -/
abbrev Byte := BitVec 8

/-- A symbol: 7 bits, 0 to 127 (R4 `SYM_W`). -/
abbrev Sym := BitVec 7

/-- A weight register's content: `WEIGHT_W` = 32 bits, unsigned (R5, R11). -/
abbrev Weight := BitVec 32

/-- A node's weight: `NODE_W` = 39 bits, unsigned (R5, R111). -/
abbrev NodeWeight := BitVec 39

/-- A node index: `IDX_W` = 8 bits (R5, R22). -/
abbrev Idx := BitVec 8

/-- A command word: `CMD_W` = 48 bits (R5, R60). -/
abbrev CmdWord := BitVec 48

/-- A response's data: `RSP_DATA_W` = 136 bits (R5, R64). -/
abbrev RspData := BitVec 136

/-- A bit sequence in order of time, the first bit first (section 5 of 00_scope.md); `true` is 1. -/
abbrev Bits := List Bool

end Sys2Proof
end

