-- ==== Sys2Proof/Config.lean ====
section
/-!
DEFINITION. The parameters the hardware fixes (00_scope.md R4 and R5). The spec leaves no value open, so
nothing here is opaque.
-/

namespace Sys2Proof.Config

/-- `N_SYM`: the number of symbols (R4). -/
abbrev nSym : Nat := 128

/-- `MAX_NODE`: the number of records `N` has room for (R5, R22). -/
abbrev maxNode : Nat := 255

/-- `SENTINEL`: the symbol that ends a stream (R4). -/
abbrev sentinel : Sym := 0

/-- `NIL` = 0xFF: "no node" (R5). -/
abbrev nil : Idx := 0xFF

/-- `NOSYM` = 0xFF: the symbol field of an internal node (R5, R22). -/
abbrev noSym : Byte := 0xFF

end Sys2Proof.Config
end

