-- ==== Sys2Proof/Syntax.lean ====
section
/-!
DEFINITION. The 18 commands of `HUFFCORE-1`, one constructor per row of spec/opcode_table.json
(30_encoding.md R61). An operand has exactly the width of the field that carries it (R60, R69).
-/

namespace Sys2Proof

/-- A command in legal form. -/
inductive Instr where
  /-- WCLR: begin a call (R80). -/
  | wclr
  /-- WCNT a: count one source byte (R81). -/
  | wcnt (a : Byte)
  /-- WEND: close a counted table, adding the sentinel (R84). -/
  | wend
  /-- WLD a, d: load one weight (R85). -/
  | wld (a : Byte) (d : Weight)
  /-- WSEAL: close a loaded table, adding nothing (R86). -/
  | wseal
  /-- WRD a: read one weight (R87). -/
  | wrd (a : Byte)
  /-- TBUILD opt: build the tree (R100). -/
  | tbuild (opt : Bool)
  /-- TRD a: read one node record (R110). -/
  | trd (a : Byte)
  /-- CGEN: derive the code table (R120). -/
  | cgen
  /-- CRD a: read one code (R125). -/
  | crd (a : Byte)
  /-- ESTART: open an encode (R130). -/
  | estart
  /-- ESYM a: pack one source symbol (R132). -/
  | esym (a : Byte)
  /-- EEND: sentinel, padding, close (R133). -/
  | eend
  /-- DSTART: open a decode (R150). -/
  | dstart
  /-- DBYTE a: feed one encoded byte (R151). -/
  | dbyte (a : Byte)
  /-- DEND: the byte source is exhausted (R156). -/
  | dend
  /-- STAT: read the status registers (R170). -/
  | stat
  /-- SRST: soft reset (R172). -/
  | srst
  deriving DecidableEq, Repr

end Sys2Proof
end

