-- ==== Sys2Proof/WellFormed.lean ====
section
/-!
DEFINITION. The legal form of a command word's operand fields (30_encoding.md R61, R62). The types of `Instr`
already hold every operand to its field's width, so what can be ill formed is a pair of raw fields: a field the
command does not use that is not zero.
-/

namespace Sys2Proof

/-- Which operand fields a command reads (the columns "uses a" and "uses d" of R61). -/
inductive Shape where
  /-- neither field. -/
  | bare
  /-- all of `a`, no `d`. -/
  | byte
  /-- all of `a` and all of `d`. -/
  | byteWord
  /-- `d[0]` only. -/
  | flag
  deriving DecidableEq, Repr

/-- R61: which fields each command uses. -/
def Instr.shape : Instr → Shape
  | .wclr => .bare
  | .wcnt _ => .byte
  | .wend => .bare
  | .wld _ _ => .byteWord
  | .wseal => .bare
  | .wrd _ => .byte
  | .tbuild _ => .flag
  | .trd _ => .byte
  | .cgen => .bare
  | .crd _ => .byte
  | .estart => .bare
  | .esym _ => .byte
  | .eend => .bare
  | .dstart => .bare
  | .dbyte _ => .byte
  | .dend => .bare
  | .stat => .bare
  | .srst => .bare

/-- R62: a field the command does not use is all zero. -/
def Shape.fits (sh : Shape) (a : Byte) (d : BitVec 32) : Bool :=
  match sh with
  | .bare => a == 0 && d == 0
  | .byte => d == 0
  | .byteWord => true
  | .flag => a == 0 && d.extractLsb' 1 31 == 0

/-- The operand fields `a` and `d` of a word of command `i` are in legal form (R62). -/
def wellFormed (i : Instr) (a : Byte) (d : BitVec 32) : Bool := i.shape.fits a d

end Sys2Proof
end

