-- ==== Sys2Proof/Decode.lean ====
section
/-!
DEFINITION. Decoding a 48-bit command word, total, rejecting by name (30_encoding.md R60 to R63, R67, R68), and the
encoder written from the same table of R61.
-/

namespace Sys2Proof

/-- Why a word is no command (R63). -/
inductive DecodeError where
  /-- `op` is not one of the 18 values of R61. -/
  | undefinedOp
  /-- a field the command does not use is not zero (R62). -/
  | unusedFieldNonzero
  deriving DecidableEq, Repr

/-- `cmd[47:40]` (R60). -/
def opField (w : CmdWord) : Byte := w.extractLsb' 40 8

/-- `cmd[39:32]` (R60). -/
def aField (w : CmdWord) : Byte := w.extractLsb' 32 8

/-- `cmd[31:0]` (R60). -/
def dField (w : CmdWord) : BitVec 32 := w.extractLsb' 0 32

/-- The opcode map of R61: each `op` value with the command it names, the operands taken from the fields; a field the
command does not use is dropped here and checked in `decode`. -/
def opcodeRows (a : Byte) (d : BitVec 32) : List (Byte × Instr) :=
  [(0x10, .wclr), (0x11, .wcnt a), (0x12, .wend), (0x13, .wld a d), (0x14, .wseal), (0x15, .wrd a),
   (0x20, .tbuild (d.getLsbD 0)), (0x21, .trd a),
   (0x30, .cgen), (0x31, .crd a),
   (0x40, .estart), (0x41, .esym a), (0x42, .eend),
   (0x50, .dstart), (0x51, .dbyte a), (0x52, .dend),
   (0x60, .stat), (0x61, .srst)]

/-- The command an `op` value names, none for the 238 values that name none (R63). -/
def candidate (op a : Byte) (d : BitVec 32) : Option Instr := (opcodeRows a d).lookup op

/-- R63, R68: every 48-bit word is exactly one command in legal form, or illegal. -/
def decode (w : CmdWord) : Except DecodeError Instr :=
  match candidate (opField w) (aField w) (dField w) with
  | none => .error .undefinedOp
  | some i =>
    if wellFormed i (aField w) (dField w) then .ok i else .error .unusedFieldNonzero

/-- R61: a command's `op` value. -/
def Instr.opcode : Instr → Byte
  | .wclr => 0x10
  | .wcnt _ => 0x11
  | .wend => 0x12
  | .wld _ _ => 0x13
  | .wseal => 0x14
  | .wrd _ => 0x15
  | .tbuild _ => 0x20
  | .trd _ => 0x21
  | .cgen => 0x30
  | .crd _ => 0x31
  | .estart => 0x40
  | .esym _ => 0x41
  | .eend => 0x42
  | .dstart => 0x50
  | .dbyte _ => 0x51
  | .dend => 0x52
  | .stat => 0x60
  | .srst => 0x61

/-- The `a` field of a command's word: its operand, or 0 where it uses no `a` (R61, R62). -/
def Instr.operandA : Instr → Byte
  | .wcnt a | .wld a _ | .wrd a | .trd a | .crd a | .esym a | .dbyte a => a
  | .wclr | .wend | .wseal | .tbuild _ | .cgen | .estart | .eend | .dstart | .dend | .stat | .srst => 0

/-- The `d` field of a command's word: WLD's weight, TBUILD's flag in `d[0]`, else 0 (R61, R62). -/
def Instr.operandD : Instr → BitVec 32
  | .wld _ d => d
  | .tbuild opt => if opt then 1 else 0
  | .wclr | .wcnt _ | .wend | .wseal | .wrd _ | .trd _ | .cgen | .crd _ | .estart | .esym _ | .eend | .dstart
  | .dbyte _ | .dend | .stat | .srst => 0

/-- The word with the three fields (R60; R70: `op·2^40 + a·2^32 + d`). -/
def packWord (op a : Byte) (d : BitVec 32) : CmdWord := (op ++ a) ++ d

/-- The word of a command (R60, R61, R70). -/
def encode (i : Instr) : CmdWord := packWord i.opcode i.operandA i.operandD

/-- The host's entry: the command read from a word of `nbits` bits (every row of the table has 48) whose bits are `w`.
Bits of `w` above `nbits` count as 0; a word of more than 48 bits is no command (R67: there is one length). -/
def decodeTableWord (nbits w : Nat) : Option Instr :=
  if w % 2 ^ nbits < 2 ^ 48 then (decode (BitVec.ofNat 48 (w % 2 ^ nbits))).toOption else none

end Sys2Proof
end

