-- ==== Sys2Proof/Machine/State.lean ====
section
/-!
DEFINITION. The state of the block (10_state.md R10 to R32), the events the host sends it, and the state after reset.
Plain data throughout.
-/

namespace Sys2Proof.Machine

/-- `PHASE` (R13). The values 9 to 14 "are never held", so they have no constructor; the 4-bit codes are
`Phase.code`. -/
inductive Phase where
  | idle
  | wOpen
  | wReady
  | tReady
  | cReady
  | enc
  | encDone
  | dec
  | decDone
  | fault
  deriving DecidableEq, Repr

/-- The eight faults of the spec (60_exceptions.md R180); the codes are `Cause.code`. -/
inductive Cause where
  | illegalCmd
  | badPhase
  | operandRange
  | weightOverflow
  | allZero
  | noCode
  | badCode
  | truncated
  deriving DecidableEq, Repr

/-- `rsp_status` (30_encoding.md R65); the values 3 to 15 "are never produced". -/
inductive Status where
  | ok
  | fault
  | refused
  deriving DecidableEq, Repr

/-- A response: `rsp_status` and `rsp_data` (R64). -/
structure Response where
  status : Status
  data : RspData
  deriving DecidableEq, Repr

/-- A node record of `N` (R22). -/
structure NodeRec where
  /-- 1 for a leaf. -/
  leaf : Bool
  /-- the symbol of a leaf, `NOSYM` for an internal node. -/
  sym : Byte
  weight : NodeWeight
  /-- child indices of an internal node, `NIL` for a leaf. -/
  left : Idx
  right : Idx
  deriving DecidableEq, Repr

/-- What the host does to the block, one event a step (R7; 70_reset_and_hazards.md R210, R212; log 1 and 6). -/
inductive HostEvent where
  /-- a command word is accepted on the command port. -/
  | command (w : CmdWord)
  /-- `rst_n` is asserted between two commands and released (R210). -/
  | reset
  /-- the command `w` is accepted and `rst_n` is asserted before its response, when at most `taken` of its stream
  bytes have been transferred on `out` (R212). -/
  | resetDuring (w : CmdWord) (taken : Nat)
  deriving DecidableEq, Repr

/-- The state of the block: every register of R10, then the three fields of the model's own. A store (`w`, `n`,
`c`) is `none` while it "holds no value" (R30): a state the spec itself gives it (log 3). -/
structure State where
  /-- `W[0..127]` (R11). -/
  w : Option (Vector Weight 128)
  /-- the records of `N` that hold a value, `N[0]` first (R22, R30: "for indices below `NNODE`"). -/
  n : Option (List NodeRec)
  /-- `C[0..127]` (R24); the empty sequence is "no code". -/
  c : Option (Vector Bits 128)
  /-- `PHASE` (R13). -/
  phase : Phase
  /-- `FCAUSE` (R14). -/
  fcause : BitVec 4
  /-- `FOP` (R15). -/
  fop : Byte
  /-- `FARG` (R15). -/
  farg : Byte
  /-- `TOPT` (R16). -/
  topt : Bool
  /-- `NLEAF` (R17). -/
  nleaf : BitVec 8
  /-- `NNODE` (R17). -/
  nnode : BitVec 8
  /-- `ROOT` (R18). -/
  root : Idx
  /-- `PB`, the pending bits, the first appended first (R19). -/
  pb : Bits
  /-- `DCUR` (R20). -/
  dcur : Idx
  /-- the model's own: the host's events not yet taken, the next first (R32; log 1). -/
  inputs : List HostEvent
  /-- the model's own: the history of `OUT`, the first byte first (R26). -/
  out : List Byte
  /-- the model's own: the history of the responses, the first first (R64; log 2). -/
  rsps : List Response
  deriving DecidableEq, Repr

/-- The model's own stops. The spec's faults are no stops: they are entered (60_exceptions.md R186) and give a next
state. -/
inductive Fault where
  /-- Raised by TRD, CGEN and DBYTE: a node index that must name a record names none, or a walk from the root does not
  end, so `N` is no tree of R23. No command sequence leads to such a state. Safe: the model stops where the spec gives
  no behaviour (log 5). -/
  | corruptTree
  deriving DecidableEq, Repr

/-- Why the model gives an instruction no meaning. -/
inductive Refusal where
  /-- Raised by an arm of `exec` for an instruction without a meaning; no arm does. Safe. -/
  | notModelled (mnemonic : String)
  deriving DecidableEq, Repr

/-- What a meaning answers. -/
abbrev Result := Host.Outcome State Fault Refusal

/-- The state at power-on: every register at its reset value (R31, R210), nothing taken from the host, nothing
emitted, nothing answered. -/
def State.reset : State where
  w := none
  n := none
  c := none
  phase := .idle
  fcause := 0
  fop := 0
  farg := 0
  topt := false
  nleaf := 0
  nnode := 0
  root := Config.nil
  pb := []
  dcur := Config.nil
  inputs := []
  out := []
  rsps := []

end Sys2Proof.Machine
end

