-- ==== Sys2Proof/Machine/Ops.lean ====
section
/-!
DEFINITION. The operations every command shares: the symbol-indexed stores, responding, emitting, fault entry and the
return from a fault, refusal, and the check order of 30_encoding.md R68 and 60_exceptions.md R183.
-/

namespace Sys2Proof.Machine

/-! ### Codes (R13, R180, R65) -/

/-- R13: the 4-bit value of `PHASE`. -/
def Phase.code : Phase → BitVec 4
  | .idle => 0
  | .wOpen => 1
  | .wReady => 2
  | .tReady => 3
  | .cReady => 4
  | .enc => 5
  | .encDone => 6
  | .dec => 7
  | .decDone => 8
  | .fault => 15

/-- R180: the cause code of a fault. -/
def Cause.code : Cause → BitVec 4
  | .illegalCmd => 1
  | .badPhase => 2
  | .operandRange => 3
  | .weightOverflow => 4
  | .allZero => 5
  | .noCode => 6
  | .badCode => 7
  | .truncated => 8

/-- R65: the 4-bit value of `rsp_status`. -/
def Status.code : Status → BitVec 4
  | .ok => 0
  | .fault => 1
  | .refused => 2

/-! ### The stores `W` and `C`, indexed by symbol (20_memory.md R41, R46) -/

/-- `T[s]`: read one whole entry. -/
def symGet {α : Type} (t : Vector α 128) (s : Sym) : α := t[s.toNat]'s.isLt

/-- `T[s] <- v`: write one whole entry. -/
def symSet {α : Type} (t : Vector α 128) (s : Sym) (v : α) : Vector α 128 := t.set s.toNat v s.isLt

/-- The symbols 0, 1, …, 127, ascending. -/
def allSyms : List Sym := (List.range 128).map (BitVec.ofNat 7)

/-! ### Output and responses -/

/-- `emit`: append bytes to `OUT` (R26). -/
def State.emit (s : State) (bs : List Byte) : State := { s with out := s.out ++ bs }

/-- `respond(status, data)`: deliver the command's single response (R64). -/
def State.respond (s : State) (st : Status) (data : RspData) : State := { s with rsps := s.rsps ++ [⟨st, data⟩] }

/-- `respond(OK, data)`. -/
def State.ok (s : State) (data : RspData) : State := s.respond .ok data

/-! ### Faults: entry, refusal, return -/

/-- Fault entry (R186): the cause and the faulting command's `op` and `a` fields are saved, `PHASE` becomes `FAULT`,
the response carries the code; nothing else is written. -/
def State.takeFault (s : State) (f : Cause) (op a : Byte) : State :=
  { s with fcause := f.code, fop := op, farg := a, phase := .fault }.respond .fault (f.code.setWidth 136)

/-- A command refused in `FAULT` (R184): the standing cause is answered, nothing changes. -/
def State.refuse (s : State) : State := s.respond .refused (s.fcause.setWidth 136)

/-- The registers' return to their reset values, which is the only return from `FAULT` (R31, R172, R187, R210); `OUT`
and the histories are not recalled (R213). -/
def State.resetRegisters (s : State) : State :=
  { State.reset with inputs := s.inputs, out := s.out, rsps := s.rsps }

/-- `raise F` by command `i`: fault entry with the `op` and `a` fields of its word (R186, R180). -/
def raise (f : Cause) (i : Instr) (s : State) : Result := .next (s.takeFault f i.opcode i.operandA)

/-! ### The check order of R68 -/

/-- R173: the command is legal in the phase ("ok" in the table). In `FAULT` only STAT and SRST are. -/
def legalIn (i : Instr) (p : Phase) : Bool :=
  match i with
  | .wclr => p ∈ [.idle, .wOpen, .wReady, .tReady, .cReady, .encDone, .decDone]
  | .wcnt _ => p ∈ [.wOpen]
  | .wend => p ∈ [.wOpen]
  | .wld _ _ => p ∈ [.wOpen]
  | .wseal => p ∈ [.wOpen]
  | .wrd _ => p ∈ [.wOpen, .wReady, .tReady, .cReady, .enc, .encDone, .dec, .decDone]
  | .tbuild _ => p ∈ [.wReady]
  | .trd _ => p ∈ [.tReady, .cReady, .enc, .encDone, .dec, .decDone]
  | .cgen => p ∈ [.tReady]
  | .crd _ => p ∈ [.cReady, .enc, .encDone, .dec, .decDone]
  | .estart => p ∈ [.cReady]
  | .esym _ => p ∈ [.enc]
  | .eend => p ∈ [.enc]
  | .dstart => p ∈ [.cReady]
  | .dbyte _ => p ∈ [.dec]
  | .dend => p ∈ [.dec, .decDone]
  | .stat => true
  | .srst => true

/-- Steps (2) and (4) of R68 before a command's own rule `body`: refused in `FAULT`, `BAD_PHASE` where the command is
not legal. (Step (1) is STAT and SRST, which do not come here; step (3) is the decoder's.) -/
def guarded (i : Instr) (s : State) (body : Result) : Result :=
  if s.phase = .fault then .next s.refuse
  else if legalIn i s.phase then body
  else raise .badPhase i s

/-- A command's use of a store: `BAD_PHASE` for "any attempt to read a store that holds no value" (R181, R30; log 4). -/
def withStore {α : Type} (i : Instr) (s : State) (store : Option α) (body : α → Result) : Result :=
  match store with
  | none => raise .badPhase i s
  | some t => body t

end Sys2Proof.Machine
end

