-- ==== Sys2Proof/Machine/Flags.lean ====
section
/-!
DEFINITION. The status the block shows: there are no condition codes (10_state.md R21); `fault_o` and the STAT word are
computed from the registers, and the packed records of TRD and CRD from the stores.
-/

namespace Sys2Proof.Machine

/-- `fault_o` = 1 exactly when `PHASE = FAULT` (R21, R190). -/
def State.faultO (s : State) : Bool := s.phase = .fault

/-- The bits of a sequence as a number of `width` bits, the first bit the most significant, unused positions 0. -/
def leftAligned (width : Nat) (bits : Bits) : BitVec width :=
  BitVec.ofNat width ((bits.foldl (fun acc b => 2 * acc + b.toNat) 0) * 2 ^ (width - bits.length))

/-- `PLEN` = `|PB|`, 3 bits (R19). -/
def State.plen (s : State) : BitVec 3 := BitVec.ofNat 3 s.pb.length

/-- `PBITS`: the pending bits in 7 bits, the first in the most significant position (R19, R171). -/
def State.pbits (s : State) : BitVec 7 := leftAligned 7 s.pb

/-- The status word of STAT (R171), bit 66 down to bit 0; bits above are 0. -/
def State.statusWord (s : State) : RspData :=
  (s.dcur ++ s.pbits ++ s.plen ++ s.root ++ s.nnode ++ s.nleaf ++ BitVec.ofBool s.topt ++ s.farg ++ s.fop ++ s.fcause
    ++ s.phase.code).setWidth 136

/-- The packed node record of TRD: `{leaf, sym, right, left, weight}` (R110). -/
def NodeRec.packed (r : NodeRec) : RspData :=
  (BitVec.ofBool r.leaf ++ r.sym ++ r.right ++ r.left ++ r.weight).setWidth 136

/-- The packed code of CRD: the length in 8 bits, the code left-aligned in 128 (R125). -/
def packedCode (code : Bits) : RspData := BitVec.ofNat 8 code.length ++ leftAligned 128 code

end Sys2Proof.Machine
end

