-- ==== Sys2Proof/Machine/Operands.lean ====
section
/-!
DEFINITION. The operand forms of the commands (30_encoding.md R69, 20_memory.md R45): the masked source byte, the
range-checked symbol index, the range-checked node index. (TBUILD's flag `d[0]` is taken by the decoder.)
-/

namespace Sys2Proof.Machine

/-- `a[6:0]`: a source byte's symbol, bit 7 ignored (R82, R137). -/
def maskedSym (a : Byte) : Sym := a.extractLsb' 0 7

/-- A symbol index: `a` itself where `a ≤ 127` (R45; an index is not masked, D32). -/
def symIndex (a : Byte) : Option Sym := if a.toNat ≤ 127 then some (a.extractLsb' 0 7) else none

/-- A symbol-index operand of command `i`: `a > 127` raises `OPERAND_RANGE` (R85, R87, R125). -/
def withSymIndex (i : Instr) (s : State) (a : Byte) (body : Sym → Result) : Result :=
  match symIndex a with
  | none => raise .operandRange i s
  | some x => body x

/-- A node-index operand of command `i`: `a ≥ NNODE` raises `OPERAND_RANGE` (R110); the record it names. -/
def withNodeIndex (i : Instr) (s : State) (nodes : List NodeRec) (a : Byte) (body : NodeRec → Result) : Result :=
  if s.nnode ≤ a then raise .operandRange i s
  else match nodes[a.toNat]? with
    | none => .fault .corruptTree
    | some r => body r

end Sys2Proof.Machine
end

