-- ==== Sys2Proof/Machine/Codes.lean ====
section
/-!
DEFINITION. huffman_code_table_generator: CGEN and CRD (42_huffman_code_table_generator.md).
-/

namespace Sys2Proof.Machine

/-- `DEGENERATE_CODE`: the one-bit code `0` (R122; 00_scope.md R5). -/
def degenerateCode : Bits := [false]

/-- The symbol of a leaf record, 0 to 127; none for anything else (R22). -/
def NodeRec.leafSym (r : NodeRec) : Option Sym := if r.leaf then symIndex r.sym else none

/-- `visit` (R121): the leaves under node `i` with their paths, depth first, left before right. A path visits each
record at most once (R23 (b)), so `fuel` = the number of records is enough; `none` if an index names no record, a leaf
holds no symbol, or the walk does not end. -/
def visit (nodes : List NodeRec) : Nat → Idx → Bits → Option (List (Sym × Bits))
  | 0, _, _ => none
  | fuel + 1, i, path =>
    match nodes[i.toNat]? with
    | none => none
    | some r =>
      if r.leaf then r.leafSym.map fun x => [(x, path)]
      else
        match visit nodes fuel r.left (path ++ [false]), visit nodes fuel r.right (path ++ [true]) with
        | some l, some t => some (l ++ t)
        | _, _ => none

/-- R120, R122: the symbols and their codes; the lone leaf of a degenerate tree gets the one-bit code. -/
def leafCodes (nodes : List NodeRec) (root : Idx) : Option (List (Sym × Bits)) :=
  match nodes[root.toNat]? with
  | none => none
  | some r => if r.leaf then r.leafSym.map fun x => [(x, degenerateCode)] else visit nodes nodes.length root []

/-- R120, R126: the table that holds those codes and is empty everywhere else. -/
def codeTable (codes : List (Sym × Bits)) : Vector Bits 128 :=
  codes.foldl (fun t p => symSet t p.1 p.2) (Vector.replicate 128 [])

/-- CGEN (R120). -/
def execCgen (s : State) : Result :=
  guarded .cgen s (withStore .cgen s s.n fun nodes =>
    match leafCodes nodes s.root with
    | none => .fault .corruptTree
    | some codes => .next ({ s with c := some (codeTable codes), phase := .cReady }.ok 0))

/-- CRD (R125). -/
def execCrd (a : Byte) (s : State) : Result :=
  guarded (.crd a) s (withStore (.crd a) s s.c fun t =>
    withSymIndex (.crd a) s a fun x => .next (s.ok (packedCode (symGet t x))))

end Sys2Proof.Machine
end

