-- ==== Sys2Proof/Machine/Control.lean ====
section
/-!
DEFINITION. Control and status: STAT and SRST, executed in every phase ahead of the check of `FAULT`
(45_control_and_status.md; 30_encoding.md R68).
-/

namespace Sys2Proof.Machine

/-- STAT (R170, R171). -/
def execStat (s : State) : Result := .next (s.ok s.statusWord)

/-- SRST (R172, R211): the effect of the hardware reset, answered. -/
def execSrst (s : State) : Result := .next (s.resetRegisters.ok 0)

end Sys2Proof.Machine
end

