-- ==== Sys2Proof/Machine/Decoder.lean ====
section
/-!
DEFINITION. bit_unpacker_decoder: DSTART, DBYTE, DEND (44_bit_unpacker_decoder.md).
-/

namespace Sys2Proof.Machine

/-- `bits8(b)`: `b[7], b[6], …, b[0]` (00_scope.md section 5, R152). -/
def bits8 (b : Byte) : Bits :=
  [b.getLsbD 7, b.getLsbD 6, b.getLsbD 5, b.getLsbD 4, b.getLsbD 3, b.getLsbD 2, b.getLsbD 1, b.getLsbD 0]

/-- How the loop of DBYTE ends. `emitted` is what the command has emitted. -/
inductive WalkEnd where
  /-- every bit is consumed; `DCUR` is `cur`. -/
  | more (cur : Idx) (emitted : List Byte)
  /-- the sentinel was reached; `DCUR` is `cur` (R154). -/
  | done (cur : Idx) (emitted : List Byte)
  /-- a 1 bit in a degenerate tree; `DCUR` is unchanged (R155). -/
  | badCode (emitted : List Byte)
  /-- an index names no record, so `N` is no tree (log 5). -/
  | corrupt
  deriving DecidableEq, Repr

/-- What one bit does to the walk (R151, R153, R155). -/
inductive BitStep where
  /-- the cursor stands at an inner node. -/
  | inner (cur : Idx)
  /-- a leaf of this symbol was reached; `DCUR` is `cur`. -/
  | symbol (sym : Byte) (cur : Idx)
  /-- the bit is no code. -/
  | bad
  /-- an index names no record. -/
  | corrupt
  deriving DecidableEq, Repr

/-- One bit: in a degenerate tree 0 is the lone symbol and 1 is no code (R155); else the cursor moves, and returns to
the root from a leaf (R153). -/
def bitStep (nodes : List NodeRec) (root cur : Idx) (bit : Bool) : BitStep :=
  match nodes[root.toNat]? with
  | none => .corrupt
  | some r =>
    if r.leaf then if bit then .bad else .symbol r.sym cur
    else
      match nodes[cur.toNat]? with
      | none => .corrupt
      | some c =>
        let next := if bit then c.right else c.left
        match nodes[next.toNat]? with
        | none => .corrupt
        | some x => if x.leaf then .symbol x.sym root else .inner next

/-- The loop of DBYTE over the bits still to consume (R151): the sentinel ends it at once (R154, R157). -/
def walkBits (nodes : List NodeRec) (root : Idx) : Bits → Idx → List Byte → WalkEnd
  | [], cur, emitted => .more cur emitted
  | bit :: bits, cur, emitted =>
    match bitStep nodes root cur bit with
    | .inner cur' => walkBits nodes root bits cur' emitted
    | .symbol sym cur' =>
      if sym = 0 then .done cur' emitted else walkBits nodes root bits cur' (emitted ++ [sym])
    | .bad => .badCode emitted
    | .corrupt => .corrupt

/-- The response data of DBYTE: `{count as 4 bits, done}` (R66, R151). -/
def dbyteData (count : Nat) (done : Bool) : RspData := (BitVec.ofNat 4 count ++ BitVec.ofBool done).setWidth 136

/-- DSTART (R150). -/
def execDstart (s : State) : Result :=
  guarded .dstart s (.next ({ s with dcur := s.root, phase := .dec }.ok 0))

/-- DBYTE (R151 to R155, R157). `BAD_CODE` is taken between bits: the symbols emitted before it stay emitted. -/
def execDbyte (a : Byte) (s : State) : Result :=
  guarded (.dbyte a) s (withStore (.dbyte a) s s.n fun nodes =>
    match walkBits nodes s.root (bits8 a) s.dcur [] with
    | .more cur emitted => .next (({ s with dcur := cur }.emit emitted).ok (dbyteData emitted.length false))
    | .done cur emitted =>
      .next (({ s with dcur := cur, phase := .decDone }.emit emitted).ok (dbyteData emitted.length true))
    | .badCode emitted => raise .badCode (.dbyte a) (s.emit emitted)
    | .corrupt => .fault .corruptTree)

/-- DEND (R156): `TRUNCATED` before the sentinel, nothing after it. -/
def execDend (s : State) : Result :=
  guarded .dend s (if s.phase = .dec then raise .truncated .dend s else .next (s.ok 0))

end Sys2Proof.Machine
end

