-- ==== Sys2Proof/Machine/Encoder.lean ====
section
/-!
DEFINITION. bit_packer_encoder: ESTART, ESYM, EEND (43_bit_packer_encoder.md).
-/

namespace Sys2Proof.Machine

/-- `byte(s)`: eight bits as a byte, the first the most significant (00_scope.md section 5, R42). -/
def byteOf (bits : Bits) : Byte := BitVec.ofNat 8 (bits.foldl (fun acc b => 2 * acc + b.toNat) 0)

/-- The packer while a command runs: `PB`, and the bytes the command has emitted. -/
structure Packer where
  pb : Bits
  emitted : List Byte
  deriving DecidableEq, Repr

/-- `push_bit` (R131): append a bit; at eight, emit the byte and empty the register. -/
def pushBit (p : Packer) (b : Bool) : Packer :=
  if (p.pb ++ [b]).length = 8 then ⟨[], p.emitted ++ [byteOf (p.pb ++ [b])]⟩ else ⟨p.pb ++ [b], p.emitted⟩

/-- A whole code, bit by bit in order (R132). -/
def pushBits (p : Packer) (bits : Bits) : Packer := bits.foldl pushBit p

/-- R134: push 0 while `PB` is not empty. From at most 7 pending bits this ends within `fuel` = 7 rounds. -/
def padZeros : Nat → Packer → Packer
  | 0, p => p
  | fuel + 1, p => if p.pb = [] then p else padZeros fuel (pushBit p false)

/-- `C[x]` of a command that packs it: an empty entry raises `NO_CODE` before anything is pushed (R136). -/
def withCode (i : Instr) (s : State) (t : Vector Bits 128) (x : Sym) (body : Bits → Result) : Result :=
  if symGet t x = [] then raise .noCode i s else body (symGet t x)

/-- The end of an encoder command: what the packer emitted goes to `OUT`, the response counts it (R66). -/
def State.packed (s : State) (p : Packer) (ph : Phase) : State :=
  ({ s with pb := p.pb, phase := ph }.emit p.emitted).ok (BitVec.ofNat 136 p.emitted.length)

/-- ESTART (R130). -/
def execEstart (s : State) : Result :=
  guarded .estart s (.next ({ s with pb := [], phase := .enc }.ok 0))

/-- ESYM (R132, R137). -/
def execEsym (a : Byte) (s : State) : Result :=
  guarded (.esym a) s (withStore (.esym a) s s.c fun t =>
    withCode (.esym a) s t (maskedSym a) fun code => .next (s.packed (pushBits ⟨s.pb, []⟩ code) s.phase))

/-- EEND (R133, R134). -/
def execEend (s : State) : Result :=
  guarded .eend s (withStore .eend s s.c fun t =>
    withCode .eend s t Config.sentinel fun code =>
      .next (s.packed (padZeros 7 (pushBits ⟨s.pb, []⟩ code)) .encDone))

end Sys2Proof.Machine
end

