-- ==== Sys2Proof/Machine/Tree.lean ====
section
/-!
DEFINITION. huffman_tree_builder: TBUILD and TRD (41_huffman_tree_builder.md).
-/

namespace Sys2Proof.Machine

/-- `key(i)`, carried as plain data: a node's weight and its index (R104). -/
structure Key where
  weight : NodeWeight
  idx : Idx
  deriving DecidableEq, Repr

/-- R104: lexicographic, smaller weight first, at equal weight the smaller index; both unsigned. -/
def keyLt (x y : Key) : Bool := x.weight < y.weight || (x.weight == y.weight && x.idx < y.idx)

/-- The smallest key of `Q`, and `Q` without it (R103). -/
def popMin : List Key → Option (Key × List Key)
  | [] => none
  | k :: q =>
    match popMin q with
    | none => some (k, [])
    | some (m, rest) => if keyLt k m then some (k, q) else some (m, k :: rest)

/-- The leaf of symbol `x` (R100, R102, R111): its weight zero-extended, no children. -/
def leafRec (f : Vector Weight 128) (x : Sym) : NodeRec where
  leaf := true
  sym := x.setWidth 8
  weight := (symGet f x).setWidth 39
  left := Config.nil
  right := Config.nil

/-- R101: `optimize` admits the symbols of nonzero weight, otherwise every symbol is admitted. -/
def admitted (f : Vector Weight 128) (opt : Bool) (x : Sym) : Bool := !opt || symGet f x != 0

/-- R102: one leaf per admitted symbol, in ascending symbol order. -/
def seedLeaves (f : Vector Weight 128) (opt : Bool) : List NodeRec :=
  (allSyms.filter (admitted f opt)).map (leafRec f)

/-- The keys of records whose first index is `i`. -/
def keysFrom (i : Nat) : List NodeRec → List Key
  | [] => []
  | r :: rs => ⟨r.weight, BitVec.ofNat 8 i⟩ :: keysFrom (i + 1) rs

/-- R105: the internal node over `x` (removed first, so left) and `y` (removed second, so right). -/
def internalRec (x y : Key) : NodeRec where
  leaf := false
  sym := Config.noSym
  weight := x.weight + y.weight
  left := x.idx
  right := y.idx

/-- R103: remove the two smallest, append the new node, insert it; at most `fuel` times, and until one index is left
in `Q`. -/
def mergeLoop : Nat → List NodeRec → List Key → List NodeRec
  | 0, nodes, _ => nodes
  | fuel + 1, nodes, q =>
    match popMin q with
    | none => nodes
    | some (x, q1) =>
      match popMin q1 with
      | none => nodes
      | some (y, q2) =>
        let r := internalRec x y
        mergeLoop fuel (nodes ++ [r]) (⟨r.weight, BitVec.ofNat 8 nodes.length⟩ :: q2)

/-- R100: the node store TBUILD builds. The loop runs `NLEAF` − 1 times (R103). -/
def buildTree (f : Vector Weight 128) (opt : Bool) : List NodeRec :=
  let leaves := seedLeaves f opt
  mergeLoop (leaves.length - 1) leaves (keysFrom 0 leaves)

/-- R108: every one of the 128 weights is 0. -/
def allZero (f : Vector Weight 128) : Bool := allSyms.all fun x => symGet f x == 0

/-- TBUILD (R100, R106, R108). -/
def execTbuild (opt : Bool) (s : State) : Result :=
  guarded (.tbuild opt) s (withStore (.tbuild opt) s s.w fun f =>
    if allZero f then raise .allZero (.tbuild opt) s
    else
      let nodes := buildTree f opt
      .next ({ s with
        n := some nodes
        nleaf := BitVec.ofNat 8 (seedLeaves f opt).length
        nnode := BitVec.ofNat 8 nodes.length
        root := BitVec.ofNat 8 (nodes.length - 1)
        topt := opt
        phase := .tReady }.ok 0))

/-- TRD (R110). -/
def execTrd (a : Byte) (s : State) : Result :=
  guarded (.trd a) s (withStore (.trd a) s s.n fun nodes =>
    withNodeIndex (.trd a) s nodes a fun r => .next (s.ok r.packed))

end Sys2Proof.Machine
end

