-- ==== Sys2Proof/Machine/Weights.lean ====
section
/-!
DEFINITION. weight_histogram_counter: WCLR, WCNT, WEND, WLD, WSEAL, WRD (40_weight_histogram_counter.md).
-/

namespace Sys2Proof.Machine

/-- The increment of one entry (R81, R83, R84): an entry of 0xFFFFFFFF raises `WEIGHT_OVERFLOW`, and neither wraps nor
saturates; else the command completes in phase `p`. -/
def countOne (i : Instr) (s : State) (f : Vector Weight 128) (x : Sym) (p : Phase) : Result :=
  if symGet f x = 0xFFFFFFFF then raise .weightOverflow i s
  else .next ({ s with w := some (symSet f x (symGet f x + 1)), phase := p }.ok 0)

/-- WCLR (R80): `W` all zero, `N` and `C` without value, the registers of the last call discarded. -/
def execWclr (s : State) : Result :=
  guarded .wclr s (.next ({ s with
    w := some (Vector.replicate 128 0), n := none, c := none
    topt := false, nleaf := 0, nnode := 0, root := Config.nil, pb := [], dcur := Config.nil
    phase := .wOpen }.ok 0))

/-- WCNT (R81, R82). -/
def execWcnt (a : Byte) (s : State) : Result :=
  guarded (.wcnt a) s (withStore (.wcnt a) s s.w fun f => countOne (.wcnt a) s f (maskedSym a) s.phase)

/-- WEND (R84): the sentinel is counted once and the table is closed. -/
def execWend (s : State) : Result :=
  guarded .wend s (withStore .wend s s.w fun f => countOne .wend s f Config.sentinel .wReady)

/-- WLD (R85): the value replaces the entry. -/
def execWld (a : Byte) (d : Weight) (s : State) : Result :=
  guarded (.wld a d) s (withStore (.wld a d) s s.w fun f =>
    withSymIndex (.wld a d) s a fun x => .next ({ s with w := some (symSet f x d) }.ok 0))

/-- WSEAL (R86): the table is closed as loaded. -/
def execWseal (s : State) : Result :=
  guarded .wseal s (.next ({ s with phase := .wReady }.ok 0))

/-- WRD (R87). -/
def execWrd (a : Byte) (s : State) : Result :=
  guarded (.wrd a) s (withStore (.wrd a) s s.w fun f =>
    withSymIndex (.wrd a) s a fun x => .next (s.ok ((symGet f x).setWidth 136)))

end Sys2Proof.Machine
end

