-- ==== Sys2Proof/Machine/Dispatch.lean ====
section
/-!
DEFINITION. One arm per command, each a call of its meaning.
-/

namespace Sys2Proof.Machine

def exec (i : Instr) (s : State) : Host.Outcome State Fault Refusal :=
  match i with
  | .wclr => Sys2Proof.Machine.execWclr s
  | .wcnt a => Sys2Proof.Machine.execWcnt a s
  | .wend => Sys2Proof.Machine.execWend s
  | .wld a d => Sys2Proof.Machine.execWld a d s
  | .wseal => Sys2Proof.Machine.execWseal s
  | .wrd a => Sys2Proof.Machine.execWrd a s
  | .tbuild opt => Sys2Proof.Machine.execTbuild opt s
  | .trd a => Sys2Proof.Machine.execTrd a s
  | .cgen => Sys2Proof.Machine.execCgen s
  | .crd a => Sys2Proof.Machine.execCrd a s
  | .estart => Sys2Proof.Machine.execEstart s
  | .esym a => Sys2Proof.Machine.execEsym a s
  | .eend => Sys2Proof.Machine.execEend s
  | .dstart => Sys2Proof.Machine.execDstart s
  | .dbyte a => Sys2Proof.Machine.execDbyte a s
  | .dend => Sys2Proof.Machine.execDend s
  | .stat => Sys2Proof.Machine.execStat s
  | .srst => Sys2Proof.Machine.execSrst s

end Sys2Proof.Machine
end

