-- ==== Sys2Proof/Machine/CommandPort.lean ====
section
/-!
DEFINITION. What the block does with an event of the host: a command word (30_encoding.md R68), the hardware reset
between commands (70_reset_and_hazards.md R210), the hardware reset during a command (R212).
-/

namespace Sys2Proof.Machine

/-- An illegal word (R63): refused in `FAULT` (R184), else `ILLEGAL_CMD` with the word's `op` and `a`. -/
def illegalWord (w : CmdWord) (s : State) : Result :=
  if s.phase = .fault then .next s.refuse else .next (s.takeFault .illegalCmd (opField w) (aField w))

/-- A command word accepted on the command port: decoded, and executed if legal (R68). -/
def acceptWord (w : CmdWord) (s : State) : Result :=
  match decode w with
  | .ok i => exec i s
  | .error _ => illegalWord w s

/-- `rst_n` asserted while the command `w` is in progress (R212): the command is abandoned, no response is delivered, of
its bytes the first `taken` have been transferred, and every register takes its reset value. -/
def abandon (w : CmdWord) (taken : Nat) (s : State) : Result :=
  match acceptWord w s with
  | .next t => .next ({ s with out := t.out.take (s.out.length + taken) }.resetRegisters)
  | .fault r => .fault r
  | .refused r => .refused r

/-- One event of the host, already taken from `inputs`. -/
def handle (e : HostEvent) (s : State) : Result :=
  match e with
  | .command w => acceptWord w s
  | .reset => .next s.resetRegisters
  | .resetDuring w taken => abandon w taken s

end Sys2Proof.Machine
end

