-- ==== Sys2Proof/Machine/Step.lean ====
section
/-!
DEFINITION. One step (00_scope.md R7): take the host's next event and do what it asks. Without an event the block waits
with all its state kept (60_exceptions.md R193).
-/

namespace Sys2Proof.Machine

/-- One step. -/
def step (s : State) : Host.Outcome State Fault Refusal :=
  match s.inputs with
  | [] => .next s
  | e :: rest => handle e { s with inputs := rest }

/-- The host's entry: the same state with the command whose bits are `w` the next event of the host. The block fetches
nothing (10_state.md R12), so this is all a command needs to run next (log 1). -/
def State.withFetchWord (s : State) (nbits w : Nat) : State :=
  { s with inputs := .command (BitVec.ofNat 48 (w % 2 ^ nbits)) :: s.inputs }

end Sys2Proof.Machine
end

