-- ==== Sys2Proof/Machine/Programs.lean ====
section
/-!
DEFINITION. What the host runs on the block: the fold of commands over a state (20_memory.md R50) and the
pseudo-instructions HIST, LOADW, ENCODE and DECODE (30_encoding.md R71 to R73). They are the host's, so nothing in `step`
calls them.
-/

namespace Sys2Proof.Machine

/-- Go on from a next state; a stop stays. -/
def andThen (r : Result) (k : State → Result) : Result :=
  match r with
  | .next s => k s
  | .fault f => .fault f
  | .refused f => .refused f

/-- R50: the fold of the commands' rules over the sequence. -/
def runInstrs : List Instr → State → Result
  | [], s => .next s
  | i :: is, s => andThen (exec i s) (runInstrs is)

/-! ### Filling `W` (R71) -/

/-- `tbl`, the pairs `(s, v)` in the order in which the host issues them. -/
abbrev WeightTable := List (Sym × Weight)

/-- `HIST x`. -/
def histCmds (x : List Byte) : List Instr := .wclr :: x.map .wcnt ++ [.wend]

/-- `LOADW tbl`. -/
def loadwCmds (tbl : WeightTable) : List Instr := .wclr :: tbl.map (fun p => .wld (p.1.setWidth 8) p.2) ++ [.wseal]

/-- A weight source: the table supplied, or counting the text when none is (R72). -/
def weightCmds (x : List Byte) : Option WeightTable → List Instr
  | none => histCmds x
  | some tbl => loadwCmds tbl

/-- Build the tree, then the code table (R72, R73). -/
def buildCmds (opt : Bool) : List Instr := [.tbuild opt, .cgen]

/-! ### Encoding (R72) -/

/-- ESTART, one ESYM per source byte, EEND. -/
def packCmds (x : List Byte) : List Instr := .estart :: x.map .esym ++ [.eend]

/-- `ENCODE x, opt` (`src` none) and `ENCODE x, tbl, opt`. -/
def encodeCmds (x : List Byte) (src : Option WeightTable) (opt : Bool) : List Instr :=
  weightCmds x src ++ buildCmds opt ++ packCmds x

/-! ### Decoding (R73): the host reads each response, so this is no fixed list of commands -/

/-- The last response is `OK` with `done` = 1 (R66). -/
def State.answeredDone (s : State) : Bool := s.rsps.getLast?.any fun r => r.status = .ok && r.data.getLsbD 0

/-- DBYTE for byte after byte, stopping after the first whose response has `done` = 1, or when none is left. -/
def feedBytes : List Byte → State → Result
  | [], s => .next s
  | b :: bs, s => andThen (exec (.dbyte b) s) fun t => if t.answeredDone then .next t else feedBytes bs t

/-- DSTART, the bytes, DEND. -/
def unpack (y : List Byte) (s : State) : Result :=
  andThen (exec .dstart s) fun t => andThen (feedBytes y t) (exec .dend)

/-- `DECODE y, tbl, opt`. -/
def runDecode (y : List Byte) (tbl : WeightTable) (opt : Bool) (s : State) : Result :=
  andThen (runInstrs (loadwCmds tbl ++ buildCmds opt) s) (unpack y)

end Sys2Proof.Machine
end

