-- ==== Sys2Proof/Safety.lean ====
section
/-!
DEFINITION. The terms claims about the block are made in: weight tables (30_encoding.md R71), the walk through a tree
(10_state.md R29), a tree and a code table in good order (R23, R24), and the invariant of the state (R13 to R20, R30),
which every safe run keeps.
-/

namespace Sys2Proof.Machine

/-! ### Commands, their words and their phases -/

/-- The word of command `i`, and no other word, has the fields `op`, `a`, `d`. -/
def EncodedAs (i : Instr) (op a : Byte) (d : BitVec 32) : Prop :=
  encode i = packWord op a d ∧ ∀ w, decode w = .ok i ↔ w = packWord op a d

/-- The word is no command in legal form (R63). -/
def IllegalWord (w : CmdWord) : Prop := ∀ i, w ≠ encode i

/-- The 18 `op` values of R61. -/
def definedOps : List Byte :=
  [0x10, 0x11, 0x12, 0x13, 0x14, 0x15, 0x20, 0x21, 0x30, 0x31, 0x40, 0x41, 0x42, 0x50, 0x51, 0x52, 0x60, 0x61]

/-- R62, by the columns "uses a" and "uses d" of R61: the command `op` names does not use a field that is not zero. -/
def UnusedFieldNonzero (op a : Byte) (d : BitVec 32) : Prop :=
  (op ∈ [0x10, 0x12, 0x14, 0x30, 0x40, 0x42, 0x50, 0x52, 0x60, 0x61] ∧ ¬ (a = 0 ∧ d = 0)) ∨
    (op ∈ [0x11, 0x15, 0x21, 0x31, 0x41, 0x51] ∧ d ≠ 0) ∨
    (op = 0x20 ∧ ¬ (a = 0 ∧ d.extractLsb' 1 31 = 0))

/-- Outside the phases `ps` (and `FAULT`) command `i` raises `BAD_PHASE` and does nothing else. -/
def RaisesBadPhaseOutside (i : Instr) (ps : List Phase) : Prop :=
  ∀ s : State, s.phase ≠ .fault → s.phase ∉ ps → exec i s = .next (s.takeFault .badPhase i.opcode i.operandA)

/-- The columns of the table R173: the `op` values of the commands that are "ok" in a phase. -/
def legalOps : Phase → List Byte
  | .idle => [0x10, 0x60, 0x61]
  | .wOpen => [0x10, 0x11, 0x12, 0x13, 0x14, 0x15, 0x60, 0x61]
  | .wReady => [0x10, 0x15, 0x20, 0x60, 0x61]
  | .tReady => [0x10, 0x15, 0x21, 0x30, 0x60, 0x61]
  | .cReady => [0x10, 0x15, 0x21, 0x31, 0x40, 0x50, 0x60, 0x61]
  | .enc => [0x15, 0x21, 0x31, 0x41, 0x42, 0x60, 0x61]
  | .encDone => [0x10, 0x15, 0x21, 0x31, 0x60, 0x61]
  | .dec => [0x15, 0x21, 0x31, 0x51, 0x52, 0x60, 0x61]
  | .decDone => [0x10, 0x15, 0x21, 0x31, 0x52, 0x60, 0x61]
  | .fault => [0x60, 0x61]

/-- The phases in which a call can begin: WCLR is legal there (R80, R173). -/
def callStarts : List Phase := [.idle, .wOpen, .wReady, .tReady, .cReady, .encDone, .decDone]

/-- The index operand `a` of command `i` is outside its space (R45, R180 code 3). -/
def IndexOutOfRange (i : Instr) (s : State) : Prop :=
  match i with
  | .wld a _ | .wrd a | .crd a => 127 < a.toNat
  | .trd a => s.nnode ≤ a
  | .wclr | .wcnt _ | .wend | .wseal | .tbuild _ | .cgen | .estart | .esym _ | .eend | .dstart | .dbyte _ | .dend
  | .stat | .srst => False

/-! ### Weight tables -/

/-- `tbl` has at most one pair per symbol (R71). -/
def OnePairEach (tbl : WeightTable) : Prop := (tbl.map Prod.fst).Nodup

/-- `tbl` is a table of the 128 weights `f`: every pair gives its symbol's weight, a symbol without pair has weight 0
(R71, R80). -/
structure TableOf (tbl : WeightTable) (f : Vector Weight 128) : Prop where
  onePair : OnePairEach tbl
  listed : ∀ p ∈ tbl, symGet f p.1 = p.2
  unlisted : ∀ x, x ∉ tbl.map Prod.fst → symGet f x = 0

/-- Every symbol of the text `x`, and the sentinel, has a leaf in the tree of the weights `f` (R101). -/
def CoversText (f : Vector Weight 128) (opt : Bool) (x : List Byte) : Prop :=
  (∃ y, symGet f y ≠ 0) ∧
    (opt = true → symGet f 0 ≠ 0 ∧ ∀ b ∈ x, symGet f (b.extractLsb' 0 7) ≠ 0)

/-- The weight source lets `x` be encoded: no count overflows (R83), or the table covers the text (R72, R136). -/
def WeightsSuffice (x : List Byte) (opt : Bool) : Option WeightTable → Prop
  | none => x.length + 1 < 2 ^ 32
  | some tbl => ∃ f, TableOf tbl f ∧ CoversText f opt x

/-! ### Trees -/

/-- The child indices of the internal nodes, in order. -/
def childIdxs (nodes : List NodeRec) : List Nat :=
  nodes.flatMap fun r => if r.leaf then [] else [r.left.toNat, r.right.toNat]

/-- The walk from node `i` along path bits, 0 to the left child and 1 to the right (R121, R153); none where it would
leave a leaf or an index names no record. -/
def treeWalk (nodes : List NodeRec) : Nat → Bits → Option Nat
  | i, [] => some i
  | i, b :: bs =>
    match nodes[i]? with
    | none => none
    | some r => if r.leaf then none else treeWalk nodes (if b then r.right else r.left).toNat bs

/-- Node `i` is a leaf of symbol `x`. -/
def IsLeafOf (nodes : List NodeRec) (i : Nat) (x : Sym) : Prop :=
  ∃ r, nodes[i]? = some r ∧ r.leaf = true ∧ r.sym = x.setWidth 8

/-- Node `i` is an internal node. -/
def IsInner (nodes : List NodeRec) (i : Nat) : Prop := ∃ r, nodes[i]? = some r ∧ r.leaf = false

/-- The sum of the leaf weights beneath node `i`, looking at most `fuel` records deep (R23 (d)). -/
def leafSum (nodes : List NodeRec) : Nat → Nat → Nat
  | 0, _ => 0
  | fuel + 1, i =>
    match nodes[i]? with
    | none => 0
    | some r =>
      if r.leaf then r.weight.toNat else leafSum nodes fuel r.left.toNat + leafSum nodes fuel r.right.toNat

/-- The sum of the 128 weights. -/
def weightSum (f : Vector Weight 128) : Nat := (allSyms.map fun x => (symGet f x).toNat).sum

/-- The node invariants R23 (a) to (d), the counts R17 and R107, and the admission R101, for the tree of the weights `f`
and the flag `opt` with `nleaf` leaves. -/
structure TreeOk (f : Vector Weight 128) (opt : Bool) (nodes : List NodeRec) (nleaf : Nat) : Prop where
  /-- R17: 1 to 128 leaves. -/
  leafCount : 1 ≤ nleaf ∧ nleaf ≤ 128
  /-- R17, R107. -/
  nodeCount : nodes.length = 2 * nleaf - 1
  /-- R23 (a), R22, R111: the first `nleaf` records are leaves of their symbols' weights. -/
  leaves : ∀ i r, nodes[i]? = some r → i < nleaf →
    r.leaf = true ∧ r.left = Config.nil ∧ r.right = Config.nil ∧
      ∃ x : Sym, r.sym = x.setWidth 8 ∧ r.weight = (symGet f x).setWidth 39
  /-- R23 (a): in strictly ascending `sym`. -/
  ascending : ∀ i j ri rj, nodes[i]? = some ri → nodes[j]? = some rj → i < j → j < nleaf → ri.sym < rj.sym
  /-- R101: exactly the admitted symbols have a leaf. -/
  admission : ∀ x : Sym, (∃ i, i < nleaf ∧ IsLeafOf nodes i x) ↔ (opt = false ∨ symGet f x ≠ 0)
  /-- R23 (a), (b), R22: the other records are internal nodes over two older ones. -/
  inner : ∀ i r, nodes[i]? = some r → nleaf ≤ i →
    r.leaf = false ∧ r.sym = Config.noSym ∧ r.left.toNat < i ∧ r.right.toNat < i ∧ r.left ≠ r.right
  /-- R23 (b): an internal node weighs what its children weigh together. -/
  sums : ∀ i r l t, nodes[i]? = some r → nleaf ≤ i → nodes[r.left.toNat]? = some l → nodes[r.right.toNat]? = some t →
    r.weight.toNat = l.weight.toNat + t.weight.toNat
  /-- R23 (c): every node but the root has exactly one parent, the root none. -/
  oneParent : ∀ j, j < nodes.length → (childIdxs nodes).count j = if j + 1 = nodes.length then 0 else 1
  /-- R23 (d): a node's weight is the sum of the leaf weights beneath it. -/
  leafSums : ∀ i r, nodes[i]? = some r → r.weight.toNat = leafSum nodes (i + 1) i
  /-- R23 (d): the root's weight is the sum of all input weights. -/
  rootWeight : ∀ r, nodes[nodes.length - 1]? = some r → r.weight.toNat = weightSum f

/-- Node `j` is in `Q` when node `i` is created: it is older and no node created before `i` has it for a child (R103). -/
def Live (nodes : List NodeRec) (i j : Nat) : Prop := j < i ∧ j ∉ childIdxs (nodes.take i)

/-- R104: `key(j) < key(k)`. -/
def KeyBelow (nodes : List NodeRec) (j k : Nat) : Prop :=
  ∃ a b, nodes[j]? = some a ∧ nodes[k]? = some b ∧ (a.weight < b.weight ∨ (a.weight = b.weight ∧ j < k))

/-- R103, R104, R105: the node created at index `i` is over the smallest node of `Q` (left) and the smallest of the rest
(right). -/
def MergedInOrder (nodes : List NodeRec) (nleaf : Nat) : Prop :=
  ∀ i r, nodes[i]? = some r → nleaf ≤ i →
    Live nodes i r.left.toNat ∧ Live nodes i r.right.toNat ∧
    (∀ j, Live nodes i j → j ≠ r.left.toNat → KeyBelow nodes r.left.toNat j) ∧
    (∀ j, Live nodes i j → j ≠ r.left.toNat → j ≠ r.right.toNat → KeyBelow nodes r.right.toNat j)

/-! ### Code tables -/

/-- `bits` is the code of `x` in the tree (R121, R122): the path from the root to the leaf of `x`, or the one-bit code
`0` where the root is that leaf. -/
def IsCodeOf (nodes : List NodeRec) (root : Nat) (x : Sym) (bits : Bits) : Prop :=
  (IsLeafOf nodes root x ∧ bits = [false]) ∨
    (IsInner nodes root ∧ ∃ i, treeWalk nodes root bits = some i ∧ IsLeafOf nodes i x)

/-- The table holds the code of every symbol that has a leaf and nothing for the others (R120, R126), and no code of
more than 127 bits (R24). -/
structure CodesOk (nodes : List NodeRec) (root : Nat) (tab : Vector Bits 128) : Prop where
  length : ∀ x, (symGet tab x).length ≤ 127
  coded : ∀ x, (∃ i, IsLeafOf nodes i x) → IsCodeOf nodes root x (symGet tab x)
  uncoded : ∀ x, ¬ (∃ i, IsLeafOf nodes i x) → symGet tab x = []

/-! ### The state -/

/-- R30: the phases in which `W` is defined. -/
def Phase.holdsW (p : Phase) : Bool :=
  p ∈ [.wOpen, .wReady, .tReady, .cReady, .enc, .encDone, .dec, .decDone]

/-- R30: the phases in which `N` is defined. -/
def Phase.holdsN (p : Phase) : Bool := p ∈ [.tReady, .cReady, .enc, .encDone, .dec, .decDone]

/-- R30: the phases in which `C` is defined. -/
def Phase.holdsC (p : Phase) : Bool := p ∈ [.cReady, .enc, .encDone, .dec, .decDone]

/-- What holds of the state between commands. -/
structure StateOk (s : State) : Prop where
  /-- R14: `FCAUSE ≠ 0` exactly when `PHASE = FAULT`. -/
  cause : s.fcause ≠ 0 ↔ s.phase = .fault
  /-- R180: codes 9 to 15 are never produced. -/
  causeRange : s.fcause.toNat ≤ 8
  /-- R15: `FOP` and `FARG` are 0 when `PHASE ≠ FAULT`. -/
  saved : s.phase ≠ .fault → s.fop = 0 ∧ s.farg = 0
  /-- R30. -/
  wHeld : s.phase ≠ .fault → s.w.isSome = s.phase.holdsW
  /-- R30. -/
  nHeld : s.phase ≠ .fault → s.n.isSome = s.phase.holdsN
  /-- R30. -/
  cHeld : s.phase ≠ .fault → s.c.isSome = s.phase.holdsC
  /-- a tree is built from weights, codes from a tree; in `FAULT` too. -/
  heldInOrder : (s.c.isSome → s.n.isSome) ∧ (s.n.isSome → s.w.isSome)
  /-- R16, R17, R18: without a tree the tree registers are at their reset values. -/
  noTree : s.n = none → s.topt = false ∧ s.nleaf = 0 ∧ s.nnode = 0 ∧ s.root = Config.nil
  /-- R16, R17, R18, R23. -/
  tree : ∀ f nodes, s.w = some f → s.n = some nodes →
    TreeOk f s.topt nodes s.nleaf.toNat ∧ s.nnode.toNat = nodes.length ∧ s.root.toNat + 1 = nodes.length
  /-- R24. -/
  codes : ∀ nodes tab, s.n = some nodes → s.c = some tab → CodesOk nodes s.root.toNat tab
  /-- R19: `PB` holds 0 to 7 bits. -/
  pending : s.pb.length ≤ 7
  /-- bits are pending only within an encode. -/
  pendingInEncode : s.phase ≠ .enc → s.phase ≠ .fault → s.pb = []
  /-- R20: `NIL` when no decode has been started in this call. -/
  cursorNil : s.phase ≠ .dec → s.phase ≠ .decDone → s.phase ≠ .fault → s.dcur = Config.nil
  /-- R20: in `DEC` the cursor is the root or an internal node. -/
  cursorDec : s.phase = .dec → ∀ nodes, s.n = some nodes → s.dcur = s.root ∨ IsInner nodes s.dcur.toNat
  /-- R154: the cursor is back at the root. -/
  cursorDone : s.phase = .decDone → s.dcur = s.root

end Sys2Proof.Machine
end

