-- ==== Sys2Proof/Certificates/Slice0/Obligations.lean ====
section
/-!
DEFINITION. The statements for the provers. An equation `exec i s = .next { s with … }` names every field that changes,
so it states the frame too: every store, register, input, emitted byte and response not named is unchanged. The form in
which the statements speak of what is no register is the model's: `inputs` and its events (log 1, 6), `rsps` (log 2),
`none` for a store that holds no value (log 3).
-/

open Sys2Proof Sys2Proof.Machine

/-! ### Encoding -/

/-- 30_encoding.md R60, R61, R62: no bit of an encoding is dropped. Every term of `Instr` is well formed (its fields
have their widths), so this is every well-formed command with every operand at every value. -/
def Obligations.EncodedCommandDecodesToItself : Prop :=
  ∀ i : Instr, wellFormed i i.operandA i.operandD = true ∧ decode (encode i) = .ok i

/-- R68: a word that decodes is the word of the command it decodes to, so a command has one word. -/
def Obligations.DecodedWordIsTheCommandsOwnWord : Prop :=
  ∀ (w : CmdWord) (i : Instr), decode w = .ok i → encode i = w

/-- R60, R70: the word is `op·2^40 + a·2^32 + d`, with `op` in bits 47 to 40, `a` in 39 to 32 and `d` in 31 to 0. -/
def Obligations.CommandWordLayout : Prop :=
  ∀ i : Instr,
    (encode i).toNat = i.opcode.toNat * 2 ^ 40 + i.operandA.toNat * 2 ^ 32 + i.operandD.toNat ∧
    (encode i).extractLsb' 40 8 = i.opcode ∧ (encode i).extractLsb' 32 8 = i.operandA ∧
    (encode i).extractLsb' 0 32 = i.operandD

/-- R62: a field the command does not use must be all zero. `a[7]` of WCNT and ESYM may be 0 or 1 and is ignored. -/
def Obligations.UnusedFieldsMustBeZero : Prop :=
  ∀ (op a : Byte) (d : BitVec 32),
    (op ∈ [0x10, 0x12, 0x14, 0x30, 0x40, 0x42, 0x50, 0x52, 0x60, 0x61] →
      (IllegalWord (packWord op a d) ↔ ¬ (a = 0 ∧ d = 0))) ∧
    (op ∈ [0x11, 0x15, 0x21, 0x31, 0x41, 0x51] → (IllegalWord (packWord op a d) ↔ ¬ d = 0)) ∧
    (op = 0x13 → ¬ IllegalWord (packWord op a d)) ∧
    (op = 0x20 → (IllegalWord (packWord op a d) ↔ ¬ (a = 0 ∧ d.extractLsb' 1 31 = 0))) ∧
    (∀ s t : State, exec (.wcnt a) s = .next t → t.phase ≠ .fault → exec (.wcnt (a ^^^ 0x80)) s = .next t) ∧
    (∀ s t : State, exec (.esym a) s = .next t → t.phase ≠ .fault → exec (.esym (a ^^^ 0x80)) s = .next t)

/-- R63: a word is illegal exactly where its `op` is none of the 18 or a field the command does not use is nonzero (STAT
and SRST among them); it raises `ILLEGAL_CMD` and changes nothing else, and in `FAULT` it is refused. -/
def Obligations.IllegalWordsRaiseIllegalCmd : Prop :=
  (∀ (op a : Byte) (d : BitVec 32), IllegalWord (packWord op a d) ↔ op ∉ definedOps ∨ UnusedFieldNonzero op a d) ∧
  ∀ (w : CmdWord) (s : State), IllegalWord w →
    (s.phase ≠ .fault → acceptWord w s = .next { s with
      fcause := 1, fop := w.extractLsb' 40 8, farg := w.extractLsb' 32 8, phase := .fault
      rsps := s.rsps ++ [⟨.fault, 1⟩] }) ∧
    (s.phase = .fault → acceptWord w s = .next { s with rsps := s.rsps ++ [⟨.refused, s.fcause.setWidth 136⟩] })

/-- Words written out from the spec's encodings: R70's example, R100's two words, V2, V8, V40, V50. -/
def Obligations.WordsWrittenOutFromTheSpecDecode : Prop :=
  decode 0x137400000003 = .ok (.wld 0x74 3) ∧ decode 0x100000000000 = .ok .wclr ∧
  decode 0x11F400000000 = .ok (.wcnt 0xF4) ∧ decode 0x200000000001 = .ok (.tbuild true) ∧
  decode 0x210600000000 = .ok (.trd 6) ∧ decode 0x314300000000 = .ok (.crd 0x43) ∧
  decode 0x417400000000 = .ok (.esym 0x74) ∧ decode 0x517000000000 = .ok (.dbyte 0x70) ∧
  decode 0x610000000000 = .ok .srst ∧ decode 0x160000000000 = .error .undefinedOp ∧
  decode 0x200000000002 = .error .unusedFieldNonzero

/-! ### Steps -/

/-- R7, R68: a step takes the host's next event, whatever it is, and does what it asks: a word is accepted, legal or
not, and one that decodes to `i` runs `i`. Without an event nothing changes (R193; that an empty queue is a step at all
is the model's choice, log 1). -/
def Obligations.StepTakesTheNextEvent : Prop :=
  (∀ (s : State) (e : HostEvent) (rest : List HostEvent), s.inputs = e :: rest →
    step s = handle e { s with inputs := rest }) ∧
  (∀ (s : State) (w : CmdWord) (rest : List HostEvent), s.inputs = .command w :: rest →
    step s = acceptWord w { s with inputs := rest } ∧
    ∀ i : Instr, decode w = .ok i → step s = exec i { s with inputs := rest }) ∧
  ∀ s : State, s.inputs = [] → step s = .next s

/-- A command the host places is the next to run, on the state it was placed in (the model's choice, log 1). -/
def Obligations.PlacedCommandRunsNext : Prop :=
  ∀ (s : State) (i : Instr), step (s.withFetchWord 48 (encode i).toNat) = exec i s

/-- R31: after the hardware reset and after SRST alike every register has its reset value, the stores hold no value,
`fault_o` is 0 and `OUT` is unchanged. -/
def Obligations.ResetAndSrstGiveTheResetValues : Prop :=
  (∀ (s t : State) (rest : List HostEvent), s.inputs = .reset :: rest → step s = .next t →
    t = { State.reset with inputs := rest, out := s.out, rsps := s.rsps }) ∧
  (∀ s t : State, exec .srst s = .next t →
    t = { State.reset with inputs := s.inputs, out := s.out, rsps := s.rsps ++ [⟨.ok, 0⟩] }) ∧
  ∃ z, z = State.reset ∧ z.phase.code = 0 ∧ z.fcause = 0 ∧ z.fop = 0 ∧ z.farg = 0 ∧ z.topt = false ∧ z.nleaf = 0 ∧
    z.nnode = 0 ∧ z.root = 0xFF ∧ z.pb = [] ∧ z.dcur = 0xFF ∧ z.w = none ∧ z.n = none ∧ z.c = none ∧
    z.faultO = false ∧ z.out = []

/-- R210: the hardware reset between two commands always succeeds, and delivers no response. -/
def Obligations.HardwareResetCompletes : Prop :=
  ∀ (s : State) (rest : List HostEvent), s.inputs = .reset :: rest →
    step s = .next { State.reset with inputs := rest, out := s.out, rsps := s.rsps }

/-- R212: a reset during a command abandons it without a response, and every prefix of the bytes the command emits is
the output of some such reset, and nothing else is. -/
def Obligations.ResetDuringACommandKeepsAPrefix : Prop :=
  ∀ (s t : State) (w : CmdWord) (bytes : List Byte), acceptWord w s = .next t → t.out = s.out ++ bytes →
    (∀ k : Nat, handle (.resetDuring w k) s =
      .next { State.reset with inputs := s.inputs, out := s.out ++ bytes.take k, rsps := s.rsps }) ∧
    ∀ pre, pre <+: bytes → ∃ k : Nat, handle (.resetDuring w k) s =
      .next { State.reset with inputs := s.inputs, out := s.out ++ pre, rsps := s.rsps }

/-! ### Faults, responses, phases: the whole machine -/

/-- R186, R185: a word that faults saves its cause, `op` and `a`, enters `FAULT`, answers with the code, and writes
nothing else; it emits nothing, but for the symbols before a `BAD_CODE`. The codes are those of R180. -/
def Obligations.FaultEntrySavesCauseAndWord : Prop :=
  (Cause.illegalCmd.code = 1 ∧ Cause.badPhase.code = 2 ∧ Cause.operandRange.code = 3 ∧ Cause.weightOverflow.code = 4 ∧
    Cause.allZero.code = 5 ∧ Cause.noCode.code = 6 ∧ Cause.badCode.code = 7 ∧ Cause.truncated.code = 8) ∧
  ∀ (w : CmdWord) (s t : State), acceptWord w s = .next t → s.phase ≠ .fault → t.phase = .fault →
    ∃ (f : Cause) (bytes : List Byte),
      t = { s with
        fcause := f.code, fop := w.extractLsb' 40 8, farg := w.extractLsb' 32 8, phase := .fault
        out := s.out ++ bytes, rsps := s.rsps ++ [⟨.fault, f.code.setWidth 136⟩] } ∧
      (f ≠ .badCode → bytes = [])

/-- R184: in `FAULT` every word but exact STAT and SRST is refused with the standing cause, and nothing changes. -/
def Obligations.FaultPhaseRefusesEverything : Prop :=
  ∀ (w : CmdWord) (s : State), s.phase = .fault → w ≠ packWord 0x60 0 0 → w ≠ packWord 0x61 0 0 →
    acceptWord w s = .next { s with rsps := s.rsps ++ [⟨.refused, s.fcause.setWidth 136⟩] }

/-- R187: the only return from `FAULT` is SRST or the hardware reset, and nothing of the call is restored. -/
def Obligations.OnlySrstOrResetLeavesFault : Prop :=
  ∀ s t : State, s.phase = .fault → step s = .next t → t.phase ≠ .fault →
    (∃ e rest, s.inputs = e :: rest ∧
      (e = .command (packWord 0x61 0 0) ∨ e = .reset ∨ ∃ w k, e = .resetDuring w k)) ∧
    { t with inputs := [], out := [], rsps := [] } = State.reset

/-- R183: the order in which conditions are reported. -/
def Obligations.FirstConditionInOrderIsReported : Prop :=
  ∀ (i : Instr) (s : State),
    (i = .stat ∨ i = .srst → ∃ t d, acceptWord (encode i) s = .next t ∧ t.rsps = s.rsps ++ [⟨.ok, d⟩]) ∧
    (s.phase = .fault → ∀ w, w ≠ encode .stat → w ≠ encode .srst → acceptWord w s = .next s.refuse) ∧
    (s.phase ≠ .fault → ∀ w, IllegalWord w →
      acceptWord w s = .next (s.takeFault .illegalCmd (w.extractLsb' 40 8) (w.extractLsb' 32 8))) ∧
    (s.phase ≠ .fault → i.opcode ∉ legalOps s.phase →
      acceptWord (encode i) s = .next (s.takeFault .badPhase i.opcode i.operandA)) ∧
    (StateOk s → s.phase ≠ .fault → i.opcode ∈ legalOps s.phase → IndexOutOfRange i s →
      acceptWord (encode i) s = .next (s.takeFault .operandRange i.opcode i.operandA)) ∧
    (StateOk s → s.phase ≠ .fault → i.opcode ∈ legalOps s.phase → ¬ IndexOutOfRange i s → ∀ t,
      acceptWord (encode i) s = .next t → t.phase = .fault → t.fcause ∈ [4, 5, 6, 7, 8])

/-- R173: the legality table. A dot raises `BAD_PHASE`; "ok" does not, in a state of the invariant; in `FAULT`
everything but STAT and SRST is refused. -/
def Obligations.LegalityTable : Prop :=
  ∀ (i : Instr) (s : State),
    (s.phase ≠ .fault → i.opcode ∉ legalOps s.phase →
      exec i s = .next (s.takeFault .badPhase i.opcode i.operandA)) ∧
    (StateOk s → s.phase ≠ .fault → i.opcode ∈ legalOps s.phase → ∃ t, exec i s = .next t ∧ t.fcause ≠ 2) ∧
    (s.phase = .fault → i.opcode ∉ legalOps s.phase → exec i s = .next s.refuse) ∧
    (s.phase = .fault → i.opcode ∈ legalOps s.phase → ∃ t d, exec i s = .next t ∧ t.rsps = s.rsps ++ [⟨.ok, d⟩])

/-- R174: the phase after a command that completes with `OK`, and after one that faults. -/
def Obligations.PhaseTransitionTable : Prop :=
  (∀ (i : Instr) (s t : State) (d : RspData), exec i s = .next t → t.rsps = s.rsps ++ [⟨.ok, d⟩] →
    match i with
    | .wclr => s.phase ∈ callStarts ∧ t.phase = .wOpen
    | .wend | .wseal => s.phase = .wOpen ∧ t.phase = .wReady
    | .tbuild _ => s.phase = .wReady ∧ t.phase = .tReady
    | .cgen => s.phase = .tReady ∧ t.phase = .cReady
    | .estart => s.phase = .cReady ∧ t.phase = .enc
    | .eend => s.phase = .enc ∧ t.phase = .encDone
    | .dstart => s.phase = .cReady ∧ t.phase = .dec
    | .dbyte _ => s.phase = .dec ∧ t.phase = if d.getLsbD 0 then .decDone else .dec
    | .srst => t.phase = .idle
    | .dend => s.phase = .decDone ∧ t.phase = .decDone
    | .wcnt _ | .wld _ _ | .wrd _ | .trd _ | .crd _ | .esym _ | .stat => t.phase = s.phase) ∧
  ∀ (i : Instr) (s t : State) (d : RspData), exec i s = .next t → t.rsps = s.rsps ++ [⟨.fault, d⟩] →
    s.phase ≠ .fault ∧ t.phase = .fault

/-- R64, R65: every accepted word is answered by exactly one response, and a status means what R65 says. -/
def Obligations.OneResponsePerCommand : Prop :=
  (Status.ok.code = 0 ∧ Status.fault.code = 1 ∧ Status.refused.code = 2) ∧
  ∀ (w : CmdWord) (s t : State), acceptWord w s = .next t → ∃ r, t.rsps = s.rsps ++ [r] ∧
    (r.status = .ok → ∃ i, decode w = .ok i ∧ i.opcode ∈ legalOps s.phase) ∧
    (r.status = .fault → s.phase ≠ .fault ∧ t.phase = .fault ∧ r.data = t.fcause.setWidth 136) ∧
    (r.status = .refused → s.phase = .fault ∧ t = { s with rsps := s.rsps ++ [r] } ∧
      r.data = s.fcause.setWidth 136)

/-- R26, R213: `OUT` is append-only: no command, fault, SRST or reset recalls a byte. -/
def Obligations.EmittedBytesAreNeverRecalled : Prop :=
  ∀ s t : State, step s = .next t → s.out <+: t.out ∧ s.rsps <+: t.rsps

/-- R47: the read commands write nothing when they do not fault. -/
def Obligations.ReadCommandsHaveNoSideEffects : Prop :=
  ∀ (i : Instr) (s t : State), ((∃ a, i = .wrd a ∨ i = .trd a ∨ i = .crd a) ∨ i = .stat) → exec i s = .next t →
    t = { s with rsps := t.rsps } ∨
      (i ≠ .stat ∧ s.phase ≠ .fault ∧
        t = { s with
          phase := .fault, fcause := t.fcause, fop := i.opcode, farg := i.operandA, rsps := t.rsps })

/-- R3, R10, R41: each store and register is written only by the commands the table of R10 names. -/
def Obligations.OnlyTheNamedCommandsWriteAStore : Prop :=
  ∀ (i : Instr) (s t : State), exec i s = .next t →
    (t.w ≠ s.w → i.opcode ∈ [0x10, 0x11, 0x12, 0x13, 0x61]) ∧
    (t.n ≠ s.n → i.opcode ∈ [0x10, 0x20, 0x61]) ∧
    (t.c ≠ s.c → i.opcode ∈ [0x10, 0x30, 0x61]) ∧
    (t.topt ≠ s.topt ∨ t.nleaf ≠ s.nleaf ∨ t.nnode ≠ s.nnode ∨ t.root ≠ s.root → i.opcode ∈ [0x10, 0x20, 0x61]) ∧
    (t.pb ≠ s.pb → i.opcode ∈ [0x10, 0x40, 0x41, 0x42, 0x61]) ∧
    (t.dcur ≠ s.dcur → i.opcode ∈ [0x10, 0x50, 0x51, 0x61]) ∧
    (t.fcause ≠ s.fcause ∨ t.fop ≠ s.fop ∨ t.farg ≠ s.farg →
      i = .srst ∨ (s.phase ≠ .fault ∧ t.phase = .fault)) ∧
    (t.out ≠ s.out → i.opcode ∈ [0x41, 0x42, 0x51]) ∧
    t.inputs = s.inputs

/-- R190: `fault_o` is 1 exactly while `PHASE = FAULT`: it rises with the response of a faulting command and falls
with SRST or the hardware reset, and in no other way. -/
def Obligations.FaultPinFollowsThePhase : Prop :=
  (∀ s : State, s.faultO = true ↔ s.phase = .fault) ∧
  (∀ (w : CmdWord) (s t : State), acceptWord w s = .next t → s.faultO = false →
    (t.faultO = true ↔ ∃ d, t.rsps = s.rsps ++ [⟨.fault, d⟩])) ∧
  (∀ (w : CmdWord) (s t : State), acceptWord w s = .next t → s.faultO = true →
    (t.faultO = false ↔ w = packWord 0x61 0 0)) ∧
  ∀ s t : State, handle .reset s = .next t → t.faultO = false

/-! ### weight_histogram_counter -/

/-- R80. -/
def Obligations.WclrBeginsACall : Prop :=
  EncodedAs .wclr 0x10 0 0 ∧
  (∀ s : State, s.phase ∈ [.idle, .wOpen, .wReady, .tReady, .cReady, .encDone, .decDone] →
    exec .wclr s = .next { s with
      w := some (Vector.replicate 128 0), n := none, c := none, topt := false, nleaf := 0, nnode := 0, root := 0xFF
      pb := [], dcur := 0xFF, phase := .wOpen, rsps := s.rsps ++ [⟨.ok, 0⟩] }) ∧
  RaisesBadPhaseOutside .wclr [.idle, .wOpen, .wReady, .tReady, .cReady, .encDone, .decDone]

/-- R81, R82: the byte's low seven bits name the entry, bit 7 is ignored. -/
def Obligations.WcntCountsOneByte : Prop :=
  ∀ a : Byte, EncodedAs (.wcnt a) 0x11 a 0 ∧
    (∀ (s : State) (f : Vector Weight 128) (x : Sym), s.phase = .wOpen → s.w = some f → x = a.extractLsb' 0 7 →
      (symGet f x ≠ 0xFFFFFFFF → exec (.wcnt a) s = .next { s with
        w := some (symSet f x (symGet f x + 1)), rsps := s.rsps ++ [⟨.ok, 0⟩] }) ∧
      (symGet f x = 0xFFFFFFFF → exec (.wcnt a) s = .next (s.takeFault .weightOverflow 0x11 a))) ∧
    RaisesBadPhaseOutside (.wcnt a) [.wOpen]

/-- R84. -/
def Obligations.WendCountsTheSentinelOnce : Prop :=
  EncodedAs .wend 0x12 0 0 ∧
  (∀ (s : State) (f : Vector Weight 128), s.phase = .wOpen → s.w = some f →
    (symGet f 0 ≠ 0xFFFFFFFF → exec .wend s = .next { s with
      w := some (symSet f 0 (symGet f 0 + 1)), phase := .wReady, rsps := s.rsps ++ [⟨.ok, 0⟩] }) ∧
    (symGet f 0 = 0xFFFFFFFF → exec .wend s = .next (s.takeFault .weightOverflow 0x12 0))) ∧
  RaisesBadPhaseOutside .wend [.wOpen]

/-- R83: a count neither wraps nor saturates: a completed WCNT or WEND adds one to one entry as a number, and an
entry at 2^32 − 1 raises `WEIGHT_OVERFLOW` and stays. -/
def Obligations.CountsNeverWrap : Prop :=
  ∀ (i : Instr) (s t : State) (f g : Vector Weight 128) (x : Sym),
    ((∃ a : Byte, i = .wcnt a ∧ x = a.extractLsb' 0 7) ∨ (i = .wend ∧ x = 0)) →
    s.phase = .wOpen → s.w = some f → exec i s = .next t → t.w = some g →
      (∀ y, y ≠ x → symGet g y = symGet f y) ∧
      ((symGet f x).toNat < 2 ^ 32 - 1 → t.phase ≠ .fault ∧ (symGet g x).toNat = (symGet f x).toNat + 1) ∧
      ((symGet f x).toNat = 2 ^ 32 - 1 → t.fcause = 4 ∧ t.phase = .fault ∧ g = f)

/-- R85. -/
def Obligations.WldLoadsOneWeight : Prop :=
  ∀ (a : Byte) (d : Weight), EncodedAs (.wld a d) 0x13 a d ∧
    (∀ (s : State) (f : Vector Weight 128), s.phase = .wOpen → s.w = some f →
      (a.toNat ≤ 127 → exec (.wld a d) s = .next { s with
        w := some (symSet f (a.setWidth 7) d), rsps := s.rsps ++ [⟨.ok, 0⟩] }) ∧
      (127 < a.toNat → exec (.wld a d) s = .next (s.takeFault .operandRange 0x13 a))) ∧
    RaisesBadPhaseOutside (.wld a d) [.wOpen]

/-- R86. -/
def Obligations.WsealClosesTheTable : Prop :=
  EncodedAs .wseal 0x14 0 0 ∧
  (∀ s : State, s.phase = .wOpen →
    exec .wseal s = .next { s with phase := .wReady, rsps := s.rsps ++ [⟨.ok, 0⟩] }) ∧
  RaisesBadPhaseOutside .wseal [.wOpen]

/-- R87. -/
def Obligations.WrdAnswersOneWeight : Prop :=
  ∀ a : Byte, EncodedAs (.wrd a) 0x15 a 0 ∧
    (∀ (s : State) (f : Vector Weight 128),
      s.phase ∈ [.wOpen, .wReady, .tReady, .cReady, .enc, .encDone, .dec, .decDone] → s.w = some f →
      (a.toNat ≤ 127 → exec (.wrd a) s = .next { s with
        rsps := s.rsps ++ [⟨.ok, (symGet f (a.setWidth 7)).setWidth 136⟩] }) ∧
      (127 < a.toNat → exec (.wrd a) s = .next (s.takeFault .operandRange 0x15 a))) ∧
    RaisesBadPhaseOutside (.wrd a) [.wOpen, .wReady, .tReady, .cReady, .enc, .encDone, .dec, .decDone]

/-- R88: what `HIST x` leaves wherever it completes, and that it completes on every text of fewer than 2^32 − 1 bytes,
in which no count can overflow. -/
def Obligations.HistCountsTheText : Prop :=
  ∀ (x : List Byte) (s : State), s.phase ∈ callStarts →
    (x.length + 1 < 2 ^ 32 → ∃ t, runInstrs (histCmds x) s = .next t ∧ t.phase = .wReady) ∧
    ∀ t, runInstrs (histCmds x) s = .next t → t.phase = .wReady → ∃ f, t.w = some f ∧
      (∀ y : Sym, y ≠ 0 → (symGet f y).toNat = x.countP fun b => b.extractLsb' 0 7 == y) ∧
      (symGet f 0).toNat = (x.countP fun b => b.extractLsb' 0 7 == (0 : Sym)) + 1 ∧
      weightSum f = x.length + 1

/-! ### huffman_tree_builder -/

/-- R100 to R103, R105, R107, R108: the leaves of the admitted symbols in ascending order, then, one at a time, the
internal node over the two smallest nodes of `Q`, until one is left. -/
def Obligations.TbuildBuildsTheMergedTree : Prop :=
  EncodedAs (.tbuild false) 0x20 0 0 ∧ EncodedAs (.tbuild true) 0x20 0 1 ∧
  ∀ opt : Bool,
    (∀ (s : State) (f : Vector Weight 128), s.phase = .wReady → s.w = some f → (∃ x, symGet f x ≠ 0) →
      ∃ (nodes : List NodeRec) (nleaf : Nat),
        exec (.tbuild opt) s = .next { s with
          n := some nodes, nleaf := BitVec.ofNat 8 nleaf, nnode := BitVec.ofNat 8 nodes.length
          root := BitVec.ofNat 8 (nodes.length - 1), topt := opt, phase := .tReady, rsps := s.rsps ++ [⟨.ok, 0⟩] } ∧
        TreeOk f opt nodes nleaf ∧ MergedInOrder nodes nleaf) ∧
    (∀ (s : State) (f : Vector Weight 128), s.phase = .wReady → s.w = some f → (∀ x, symGet f x = 0) →
      exec (.tbuild opt) s = .next (s.takeFault .allZero 0x20 0)) ∧
    RaisesBadPhaseOutside (.tbuild opt) [.wReady]

/-- R106: the degenerate tree, and when it arises; in every other case the root is the internal node created last. -/
def Obligations.LoneSymbolGivesTheDegenerateTree : Prop :=
  (∀ (s : State) (f : Vector Weight 128) (x : Sym), s.phase = .wReady → s.w = some f → symGet f x ≠ 0 →
    (∀ y, y ≠ x → symGet f y = 0) →
    exec (.tbuild true) s = .next { s with
      n := some [⟨true, x.setWidth 8, (symGet f x).setWidth 39, 0xFF, 0xFF⟩], nleaf := 1, nnode := 1, root := 0
      topt := true, phase := .tReady, rsps := s.rsps ++ [⟨.ok, 0⟩] }) ∧
  ∀ (s t : State) (f : Vector Weight 128) (opt : Bool), s.phase = .wReady → s.w = some f →
    exec (.tbuild opt) s = .next t → t.phase = .tReady →
    (t.nleaf = 1 ↔ opt = true ∧ ∃ x, symGet f x ≠ 0 ∧ ∀ y, y ≠ x → symGet f y = 0) ∧
    (t.nleaf ≠ 1 → ∃ nodes, t.n = some nodes ∧ t.root.toNat + 1 = nodes.length ∧ IsInner nodes t.root.toNat)

/-- R109: the tree and the code table are a function of the weights and the flag alone. -/
def Obligations.TreeAndCodesAreDeterministic : Prop :=
  ∀ (s s' t t' : State) (opt : Bool), s.phase = .wReady → s'.phase = .wReady → s.w = s'.w →
    (exec (.tbuild opt) s = .next t → exec (.tbuild opt) s' = .next t' → t.phase = .tReady →
      t'.phase = .tReady ∧ t.n = t'.n ∧ t.nleaf = t'.nleaf ∧ t.nnode = t'.nnode ∧ t.root = t'.root) ∧
    (runInstrs [.tbuild opt, .cgen] s = .next t → runInstrs [.tbuild opt, .cgen] s' = .next t' → t.phase = .cReady →
      t'.phase = .cReady ∧ t.c = t'.c)

/-- R110. -/
def Obligations.TrdAnswersTheRecord : Prop :=
  ∀ a : Byte, EncodedAs (.trd a) 0x21 a 0 ∧
    (∀ (s : State) (nodes : List NodeRec) (r : NodeRec),
      s.phase ∈ [.tReady, .cReady, .enc, .encDone, .dec, .decDone] → s.n = some nodes → a < s.nnode →
      nodes[a.toNat]? = some r →
      ∃ d : RspData, exec (.trd a) s = .next { s with rsps := s.rsps ++ [⟨.ok, d⟩] } ∧
        d.extractLsb' 0 39 = r.weight ∧ d.extractLsb' 39 8 = r.left ∧ d.extractLsb' 47 8 = r.right ∧
        d.extractLsb' 55 8 = r.sym ∧ d.getLsbD 63 = r.leaf ∧ d.toNat < 2 ^ 64) ∧
    (∀ (s : State) (nodes : List NodeRec),
      s.phase ∈ [.tReady, .cReady, .enc, .encDone, .dec, .decDone] → s.n = some nodes → s.nnode ≤ a →
      exec (.trd a) s = .next (s.takeFault .operandRange 0x21 a)) ∧
    RaisesBadPhaseOutside (.trd a) [.tReady, .cReady, .enc, .encDone, .dec, .decDone]

/-! ### huffman_code_table_generator -/

/-- R120, R121, R122, R126: on a tree in good order CGEN records exactly the path of every leaf (the one-bit code `0`
for a lone leaf), and the empty entry for every symbol without a leaf. -/
def Obligations.CgenRecordsEveryPath : Prop :=
  EncodedAs .cgen 0x30 0 0 ∧
  (∀ (s : State) (f : Vector Weight 128) (opt : Bool) (nodes : List NodeRec) (nleaf : Nat), s.phase = .tReady →
    s.n = some nodes → TreeOk f opt nodes nleaf → s.root.toNat + 1 = nodes.length →
    ∃ tab : Vector Bits 128,
      exec .cgen s = .next { s with c := some tab, phase := .cReady, rsps := s.rsps ++ [⟨.ok, 0⟩] } ∧
      (∀ x bits, bits ≠ [] → (symGet tab x = bits ↔ IsCodeOf nodes s.root.toNat x bits)) ∧
      (∀ x, symGet tab x ≠ [] ↔ (opt = false ∨ symGet f x ≠ 0))) ∧
  RaisesBadPhaseOutside .cgen [.tReady]

/-- R123: no code CGEN records is a prefix of another symbol's. -/
def Obligations.CodesArePrefixFree : Prop :=
  ∀ (s t : State) (f : Vector Weight 128) (opt : Bool) (nodes : List NodeRec) (nleaf : Nat) (tab : Vector Bits 128),
    s.phase = .tReady → s.n = some nodes → TreeOk f opt nodes nleaf → s.root.toNat + 1 = nodes.length →
    exec .cgen s = .next t → t.c = some tab →
    ∀ x y, x ≠ y → symGet tab x ≠ [] → symGet tab y ≠ [] → ¬ symGet tab x <+: symGet tab y

/-- R124: the lengths of the codes CGEN records. -/
def Obligations.CodeLengthsAreBounded : Prop :=
  ∀ (s t : State) (f : Vector Weight 128) (opt : Bool) (nodes : List NodeRec) (nleaf : Nat) (tab : Vector Bits 128),
    s.phase = .tReady → s.n = some nodes → TreeOk f opt nodes nleaf → s.root.toNat + 1 = nodes.length → 2 ≤ nleaf →
    exec .cgen s = .next t → t.c = some tab →
    ∀ x, symGet tab x ≠ [] →
      1 ≤ (symGet tab x).length ∧ (symGet tab x).length ≤ nleaf - 1 ∧ (symGet tab x).length ≤ 127

/-- R125: `rsp_data[135:128]` is the length, `rsp_data[127 − k]` bit `k` of the code, every other bit 0. -/
def Obligations.CrdAnswersTheCode : Prop :=
  ∀ a : Byte, EncodedAs (.crd a) 0x31 a 0 ∧
    (∀ (s : State) (tab : Vector Bits 128), s.phase ∈ [.cReady, .enc, .encDone, .dec, .decDone] → s.c = some tab →
      (a.toNat ≤ 127 → (symGet tab (a.setWidth 7)).length ≤ 127 →
        ∃ d : RspData, exec (.crd a) s = .next { s with rsps := s.rsps ++ [⟨.ok, d⟩] } ∧
          (d.extractLsb' 128 8).toNat = (symGet tab (a.setWidth 7)).length ∧
          ∀ k < 128, d.getLsbD (127 - k) = (symGet tab (a.setWidth 7)).getD k false) ∧
      (127 < a.toNat → exec (.crd a) s = .next (s.takeFault .operandRange 0x31 a))) ∧
    RaisesBadPhaseOutside (.crd a) [.cReady, .enc, .encDone, .dec, .decDone]

/-! ### bit_packer_encoder -/

/-- R130. -/
def Obligations.EstartOpensAnEncode : Prop :=
  EncodedAs .estart 0x40 0 0 ∧
  (∀ s : State, s.phase = .cReady →
    exec .estart s = .next { s with pb := [], phase := .enc, rsps := s.rsps ++ [⟨.ok, 0⟩] }) ∧
  RaisesBadPhaseOutside .estart [.cReady]

/-- R132, R136, R137: with `p` bits pending and a code of `L` bits, `⌊(p + L) / 8⌋` bytes are emitted and
`(p + L) mod 8` bits stay pending, in order, and the response counts the bytes; a symbol without code raises `NO_CODE`
and nothing is pushed. -/
def Obligations.EsymPacksOneCode : Prop :=
  ∀ a : Byte, EncodedAs (.esym a) 0x41 a 0 ∧
    (∀ (s : State) (tab : Vector Bits 128) (code : Bits), s.phase = .enc → s.c = some tab →
      code = symGet tab (a.extractLsb' 0 7) →
      (code ≠ [] → s.pb.length ≤ 7 → ∃ (bytes : List Byte) (pending : Bits),
        exec (.esym a) s = .next { s with
          pb := pending, out := s.out ++ bytes, rsps := s.rsps ++ [⟨.ok, BitVec.ofNat 136 bytes.length⟩] } ∧
        bytes.flatMap bits8 ++ pending = s.pb ++ code ∧ bytes.length = (s.pb.length + code.length) / 8 ∧
        pending.length = (s.pb.length + code.length) % 8) ∧
      (code = [] → exec (.esym a) s = .next (s.takeFault .noCode 0x41 a))) ∧
    RaisesBadPhaseOutside (.esym a) [.enc]

/-- R133, R134: the sentinel's code, then `(8 − (T mod 8)) mod 8` zeros, and nothing is pending. -/
def Obligations.EendPacksTheSentinelAndPads : Prop :=
  EncodedAs .eend 0x42 0 0 ∧
  (∀ (s : State) (tab : Vector Bits 128) (code : Bits), s.phase = .enc → s.c = some tab → code = symGet tab 0 →
    (code ≠ [] → s.pb.length ≤ 7 → ∃ bytes : List Byte,
      exec .eend s = .next { s with
        pb := [], out := s.out ++ bytes, phase := .encDone
        rsps := s.rsps ++ [⟨.ok, BitVec.ofNat 136 bytes.length⟩] } ∧
      bytes.flatMap bits8 =
        s.pb ++ code ++ List.replicate ((8 - (s.pb.length + code.length) % 8) % 8) false ∧
      1 ≤ bytes.length ∧ (code.length ≤ 127 → bytes.length ≤ 17)) ∧
    (code = [] → exec .eend s = .next (s.takeFault .noCode 0x42 0))) ∧
  RaisesBadPhaseOutside .eend [.enc]

/-- R135: an encode emits the codes of its symbols and the sentinel's, padded, in exactly `⌈T / 8⌉` bytes; before EEND,
`⌊(L1 + … + Lj) / 8⌋` bytes are out and the rest is pending. Bit 7 of a byte is its first bit (R42, R152). -/
def Obligations.EncodeEmitsEveryCodeBit : Prop :=
  (∀ b : Byte, (bits8 b).length = 8 ∧ ∀ k < 8, (bits8 b)[k]? = some (b.getLsbD (7 - k))) ∧
  ∀ (s : State) (tab : Vector Bits 128) (x : List Byte) (body all : Bits), s.phase = .cReady → s.c = some tab →
    (∀ b ∈ x, symGet tab (b.extractLsb' 0 7) ≠ []) → symGet tab 0 ≠ [] →
    body = x.flatMap (fun b => symGet tab (b.extractLsb' 0 7)) → all = body ++ symGet tab 0 →
    (∃ (t : State) (ys : List Byte), runInstrs (.estart :: x.map .esym) s = .next t ∧ t.out = s.out ++ ys ∧
      ys.length = body.length / 8 ∧ t.pb.length = body.length % 8 ∧ ys.flatMap bits8 ++ t.pb = body) ∧
    ∃ (t : State) (ys : List Byte), runInstrs (packCmds x) s = .next t ∧ t.out = s.out ++ ys ∧
      ys.length = (all.length + 7) / 8 ∧
      ys.flatMap bits8 = all ++ List.replicate ((8 - all.length % 8) % 8) false ∧ t.phase = .encDone ∧ t.pb = []

/-! ### bit_unpacker_decoder -/

/-- R150. -/
def Obligations.DstartOpensADecode : Prop :=
  EncodedAs .dstart 0x50 0 0 ∧
  (∀ s : State, s.phase = .cReady →
    exec .dstart s = .next { s with dcur := s.root, phase := .dec, rsps := s.rsps ++ [⟨.ok, 0⟩] }) ∧
  RaisesBadPhaseOutside .dstart [.cReady]

/-- R151, R152, R153, R154, R157 with R29's reading of the cursor: let `p` be the path from the root to the cursor, the
bits the source's decoder would still hold. Where `p` and the byte's bits, most significant first, spell the codes of
`syms` and a rest that ends at an internal node, DBYTE emits `syms` and keeps that node; where they spell `syms` and the
sentinel's code, it emits `syms` and is done, whatever bits follow. -/
def Obligations.DbyteDecodesTheHeldBits : Prop :=
  ∀ (a : Byte) (s : State) (f : Vector Weight 128) (opt : Bool) (nodes : List NodeRec) (nleaf : Nat)
    (code : Sym → Bits) (p rest : Bits) (syms : List Sym),
    s.phase = .dec → s.n = some nodes → TreeOk f opt nodes nleaf → s.root.toNat + 1 = nodes.length →
    IsInner nodes s.root.toNat → IsInner nodes s.dcur.toNat → treeWalk nodes s.root.toNat p = some s.dcur.toNat →
    (∀ x ∈ syms, x ≠ 0 ∧ IsCodeOf nodes s.root.toNat x (code x)) →
    (∀ cur : Idx, p ++ bits8 a = syms.flatMap code ++ rest → treeWalk nodes s.root.toNat rest = some cur.toNat →
      IsInner nodes cur.toNat →
      exec (.dbyte a) s = .next { s with
        dcur := cur, out := s.out ++ syms.map (BitVec.setWidth 8)
        rsps := s.rsps ++ [⟨.ok, BitVec.ofNat 136 (2 * syms.length)⟩] }) ∧
    (IsCodeOf nodes s.root.toNat 0 (code 0) → p ++ bits8 a = syms.flatMap code ++ (code 0 ++ rest) →
      exec (.dbyte a) s = .next { s with
        dcur := s.root, phase := .decDone, out := s.out ++ syms.map (BitVec.setWidth 8)
        rsps := s.rsps ++ [⟨.ok, BitVec.ofNat 136 (2 * syms.length + 1)⟩] })

/-- R153, R192: in a tree with an internal root no bit is illegal: DBYTE completes on every byte, emitting at most
eight symbols, all in 0x01 to 0x7F, with the cursor at an internal node again, or back at the root when done. Outside
`DEC` it raises `BAD_PHASE` (R151, R158). -/
def Obligations.DbyteCompletesOnEveryByte : Prop :=
  (∀ (a : Byte) (s : State) (f : Vector Weight 128) (opt : Bool) (nodes : List NodeRec) (nleaf : Nat),
    s.phase = .dec → s.n = some nodes → TreeOk f opt nodes nleaf → s.root.toNat + 1 = nodes.length →
    IsInner nodes s.root.toNat → IsInner nodes s.dcur.toNat →
    ∃ (bytes : List Byte) (cur : Idx) (done : Bool),
      exec (.dbyte a) s = .next { s with
        dcur := cur, phase := if done then .decDone else .dec, out := s.out ++ bytes
        rsps := s.rsps ++ [⟨.ok, BitVec.ofNat 136 (2 * bytes.length + done.toNat)⟩] } ∧
      bytes.length ≤ 8 ∧ (∀ b ∈ bytes, 1 ≤ b.toNat ∧ b.toNat ≤ 127) ∧
      (done = true → cur = s.root) ∧ IsInner nodes cur.toNat) ∧
  ∀ a : Byte, EncodedAs (.dbyte a) 0x51 a 0 ∧ RaisesBadPhaseOutside (.dbyte a) [.dec]

/-- R155: in the degenerate tree a 0 bit is the lone symbol and a 1 bit raises `BAD_CODE` at that bit, the symbols
before it staying emitted. -/
def Obligations.DbyteInTheDegenerateTree : Prop :=
  ∀ (a : Byte) (s : State) (nodes : List NodeRec) (x : Sym), s.phase = .dec → s.n = some nodes →
    IsLeafOf nodes s.root.toNat x →
    (x = 0 → a.getLsbD 7 = false → exec (.dbyte a) s = .next { s with
      phase := .decDone, rsps := s.rsps ++ [⟨.ok, 1⟩] }) ∧
    (x ≠ 0 → a = 0 → exec (.dbyte a) s = .next { s with
      out := s.out ++ List.replicate 8 (x.setWidth 8), rsps := s.rsps ++ [⟨.ok, 16⟩] }) ∧
    (∀ (k : Nat) (tail : Bits), bits8 a = List.replicate k false ++ true :: tail → (x = 0 → k = 0) →
      exec (.dbyte a) s =
        .next ({ s with out := s.out ++ List.replicate k (x.setWidth 8) }.takeFault .badCode 0x51 a))

/-- R156. -/
def Obligations.DendDeclaresTheEnd : Prop :=
  EncodedAs .dend 0x52 0 0 ∧
  (∀ s : State, s.phase = .decDone → exec .dend s = .next { s with rsps := s.rsps ++ [⟨.ok, 0⟩] }) ∧
  (∀ s : State, s.phase = .dec → exec .dend s = .next (s.takeFault .truncated 0x52 0)) ∧
  RaisesBadPhaseOutside .dend [.dec, .decDone]

/-! ### control and status -/

/-- R170, R171: STAT completes in every phase, writes nothing, and answers the registers at the table's bits, `PHASE`
by its code of R13. -/
def Obligations.StatPacksTheRegisters : Prop :=
  EncodedAs .stat 0x60 0 0 ∧
  (Phase.idle.code = 0 ∧ Phase.wOpen.code = 1 ∧ Phase.wReady.code = 2 ∧ Phase.tReady.code = 3 ∧ Phase.cReady.code = 4 ∧
    Phase.enc.code = 5 ∧ Phase.encDone.code = 6 ∧ Phase.dec.code = 7 ∧ Phase.decDone.code = 8 ∧
    Phase.fault.code = 15) ∧
  ∀ s : State, ∃ d : RspData, exec .stat s = .next { s with rsps := s.rsps ++ [⟨.ok, d⟩] } ∧
    d.extractLsb' 0 4 = s.phase.code ∧ d.extractLsb' 4 4 = s.fcause ∧ d.extractLsb' 8 8 = s.fop ∧
    d.extractLsb' 16 8 = s.farg ∧ d.getLsbD 24 = s.topt ∧ d.extractLsb' 25 8 = s.nleaf ∧
    d.extractLsb' 33 8 = s.nnode ∧ d.extractLsb' 41 8 = s.root ∧ d.extractLsb' 59 8 = s.dcur ∧ d.toNat < 2 ^ 67 ∧
    (s.pb.length ≤ 7 → (d.extractLsb' 49 3).toNat = s.pb.length ∧
      ∀ k < 7, d.getLsbD (58 - k) = s.pb.getD k false)

/-- R172: SRST completes in every phase, with every register at its reset value, the stores without value and exactly
the effect of the hardware reset; no other command leaves `FAULT` or abandons an encode or a decode. -/
def Obligations.SrstResetsInEveryPhase : Prop :=
  EncodedAs .srst 0x61 0 0 ∧
  (∀ s : State, exec .srst s = .next { s with
    w := none, n := none, c := none, phase := .idle, fcause := 0, fop := 0, farg := 0, topt := false, nleaf := 0
    nnode := 0, root := 0xFF, pb := [], dcur := 0xFF, rsps := s.rsps ++ [⟨.ok, 0⟩] }) ∧
  (∀ s : State, ∃ u, handle .reset s = .next u ∧ exec .srst s = .next { u with rsps := s.rsps ++ [⟨.ok, 0⟩] }) ∧
  ∀ (i : Instr) (s t : State), i ≠ .srst → exec i s = .next t →
    (s.phase = .fault → t.phase = .fault) ∧
    (s.phase = .enc → t.phase ∈ [.enc, .encDone, .fault]) ∧
    (s.phase = .dec → t.phase ∈ [.dec, .decDone, .fault])

/-! ### The invariant -/

/-- R31: the invariant holds at reset. -/
def Obligations.InvariantHoldsAtReset : Prop := StateOk State.reset

/-- R13 to R20, R22 to R24, R30: every step, whatever event it takes, keeps the invariant. -/
def Obligations.StepKeepsTheInvariant : Prop :=
  ∀ s t : State, StateOk s → step s = .next t → StateOk t

/-- R8, R107: in a state of the invariant no step stops: the model's own fault is never reached and nothing is refused
by name. -/
def Obligations.StepNeverStops : Prop :=
  ∀ s : State, StateOk s → ∃ t, step s = .next t

/-! ### The round trip -/

/-- R159, R157: what an encode of `x` emits, a decode with the same tree turns into the low seven bits of the bytes of
`x` up to the first that has symbol 0, and no command faults, whatever bytes `zs` the host still holds. The premise is
that every symbol, the sentinel too, has a code. Over the bytes 0x01 to 0x7F (R221, R223) that is `x` itself. -/
def Obligations.RoundTripOnOneTree : Prop :=
  ∀ (s : State) (tab : Vector Bits 128) (x : List Byte), StateOk s → s.phase = .cReady → s.c = some tab →
    (∀ b ∈ x, symGet tab (b.extractLsb' 0 7) ≠ []) → symGet tab 0 ≠ [] →
    ∃ (te : State) (ys : List Byte),
      runInstrs (packCmds x) s = .next te ∧ te.phase = .encDone ∧ te.out = s.out ++ ys ∧
      ∀ zs : List Byte, ∃ td : State, unpack (ys ++ zs) s = .next td ∧ td.phase = .decDone ∧
        td.out = s.out ++ (x.map fun b => b &&& 0x7F).takeWhile (· ≠ 0) ∧
        ((∀ b ∈ x, 1 ≤ b.toNat ∧ b.toNat ≤ 127) → td.out = s.out ++ x)

/-- S1, R72, R73, R88, R159, property 1 of 95_test_vectors.md section 8: for every text over 0x01 to 0x7F, each `opt`
and each weight source that suffices for it (none, so that the text is counted, or a table), decoding what `ENCODE` emits
with any table of the weights it used gives the text, from any state in which a call can begin. Bytes `zs` past the
sentinel's are not fed. -/
def Obligations.RoundTripOfWholeCalls : Prop :=
  ∀ (s s' : State) (x : List Byte) (src : Option WeightTable) (opt : Bool),
    s.phase ∈ callStarts → s'.phase ∈ callStarts → (∀ b ∈ x, 1 ≤ b.toNat ∧ b.toNat ≤ 127) →
    WeightsSuffice x opt src →
    ∃ (te : State) (f : Vector Weight 128) (ys : List Byte),
      runInstrs (encodeCmds x src opt) s = .next te ∧ te.phase = .encDone ∧ te.w = some f ∧ te.out = s.out ++ ys ∧
      (∀ tbl, src = some tbl → TableOf tbl f) ∧
      ∀ (tbl : WeightTable) (zs : List Byte), TableOf tbl f → ∃ td : State,
        runDecode (ys ++ zs) tbl opt s' = .next td ∧ td.phase = .decDone ∧ td.out = s'.out ++ x

/-! ### The pseudo-instructions -/

/-- R71 (LOADW), R80, R85, R86: the table's pairs and zeros elsewhere, every command answered `OK`, and the same state
whatever the order of the pairs. -/
def Obligations.LoadwFillsTheTable : Prop :=
  ∀ (tbl : WeightTable) (s : State), s.phase ∈ callStarts → OnePairEach tbl →
    (∃ f, TableOf tbl f ∧ runInstrs (loadwCmds tbl) s = .next { s with
      w := some f, n := none, c := none, topt := false, nleaf := 0, nnode := 0, root := 0xFF, pb := [], dcur := 0xFF
      phase := .wReady, rsps := s.rsps ++ List.replicate (tbl.length + 2) ⟨.ok, 0⟩ }) ∧
    ∀ tbl' : WeightTable, tbl'.Perm tbl → runInstrs (loadwCmds tbl') s = runInstrs (loadwCmds tbl) s

/-- R72, second form, with R108, R136 and R135: `ENCODE x, tbl, opt` ends in `ALL_ZERO` where the table has no weight, in
`NO_CODE` where `opt` = 1 and a symbol of `x` or the sentinel has weight 0, and else emits every symbol's code and the
sentinel's, padded. After a fault the rest of the sequence is refused (log 15). -/
def Obligations.EncodeWithALoadedTable : Prop :=
  ∀ (tbl : WeightTable) (f : Vector Weight 128) (x : List Byte) (opt : Bool) (s : State),
    s.phase ∈ callStarts → TableOf tbl f →
    ((∀ y, symGet f y = 0) → ∃ t, runInstrs (encodeCmds x (some tbl) opt) s = .next t ∧
      t.phase = .fault ∧ t.fcause = 5 ∧ t.fop = 0x20 ∧ t.out = s.out) ∧
    ((∃ y, symGet f y ≠ 0) → ¬ CoversText f opt x → ∃ t, runInstrs (encodeCmds x (some tbl) opt) s = .next t ∧
      t.phase = .fault ∧ t.fcause = 6 ∧ t.fop ∈ [0x41, 0x42]) ∧
    (CoversText f opt x → ∃ (t : State) (nodes : List NodeRec) (tab : Vector Bits 128) (ys : List Byte),
      runInstrs (encodeCmds x (some tbl) opt) s = .next t ∧ t.phase = .encDone ∧ t.w = some f ∧ t.n = some nodes ∧
      t.c = some tab ∧ CodesOk nodes t.root.toNat tab ∧ t.out = s.out ++ ys ∧
      ∃ k < 8, ys.flatMap bits8 =
        x.flatMap (fun b => symGet tab (b.extractLsb' 0 7)) ++ symGet tab 0 ++ List.replicate k false)

/-- R73, R156, R155, R108: `DECODE y, tbl, opt` always comes to its end. Where a response has `done` = 1 the bytes past
that one are not fed and DEND is answered `OK`; where every byte is fed and none has, DEND raises `TRUNCATED`;
`BAD_CODE` comes only from the tree of a lone symbol; a table without weight raises `ALL_ZERO`. After a fault the
rest of the sequence is refused (log 15). -/
def Obligations.DecodeStopsAtTheSentinelOrTheEnd : Prop :=
  ∀ (tbl : WeightTable) (f : Vector Weight 128) (y : List Byte) (opt : Bool) (s : State),
    s.phase ∈ callStarts → TableOf tbl f →
    ((∀ x, symGet f x = 0) → ∃ t, runDecode y tbl opt s = .next t ∧
      t.phase = .fault ∧ t.fcause = 5 ∧ t.fop = 0x20 ∧ t.out = s.out) ∧
    ((∃ x, symGet f x ≠ 0) → ∃ t, runDecode y tbl opt s = .next t ∧
      ((t.phase = .decDone ∧ t.rsps.getLast? = some ⟨.ok, 0⟩ ∧ ∀ zs, runDecode (y ++ zs) tbl opt s = .next t) ∨
        (t.phase = .fault ∧ t.fcause = 8 ∧ t.fop = 0x52 ∧ t.rsps.length = s.rsps.length + tbl.length + y.length + 6) ∨
        (t.phase = .fault ∧ t.fcause = 7 ∧ t.fop = 0x51 ∧ opt = true ∧ ∃ x, ∀ z, z ≠ x → symGet f z = 0)))
end

