-- ==== Sys2Proof/Laws/State.lean ====
section
/-!
SUPPORT. One lemma per field and per shared update of the state, true by rfl, so that no proof unfolds an update.
-/

namespace Sys2Proof.Machine

@[simp] theorem State.emit_w (s : State) (bs : List Byte) : (s.emit bs).w = s.w := rfl
@[simp] theorem State.emit_n (s : State) (bs : List Byte) : (s.emit bs).n = s.n := rfl
@[simp] theorem State.emit_c (s : State) (bs : List Byte) : (s.emit bs).c = s.c := rfl
@[simp] theorem State.emit_phase (s : State) (bs : List Byte) : (s.emit bs).phase = s.phase := rfl
@[simp] theorem State.emit_fcause (s : State) (bs : List Byte) : (s.emit bs).fcause = s.fcause := rfl
@[simp] theorem State.emit_fop (s : State) (bs : List Byte) : (s.emit bs).fop = s.fop := rfl
@[simp] theorem State.emit_farg (s : State) (bs : List Byte) : (s.emit bs).farg = s.farg := rfl
@[simp] theorem State.emit_topt (s : State) (bs : List Byte) : (s.emit bs).topt = s.topt := rfl
@[simp] theorem State.emit_nleaf (s : State) (bs : List Byte) : (s.emit bs).nleaf = s.nleaf := rfl
@[simp] theorem State.emit_nnode (s : State) (bs : List Byte) : (s.emit bs).nnode = s.nnode := rfl
@[simp] theorem State.emit_root (s : State) (bs : List Byte) : (s.emit bs).root = s.root := rfl
@[simp] theorem State.emit_pb (s : State) (bs : List Byte) : (s.emit bs).pb = s.pb := rfl
@[simp] theorem State.emit_dcur (s : State) (bs : List Byte) : (s.emit bs).dcur = s.dcur := rfl
@[simp] theorem State.emit_inputs (s : State) (bs : List Byte) : (s.emit bs).inputs = s.inputs := rfl
@[simp] theorem State.emit_out (s : State) (bs : List Byte) : (s.emit bs).out = s.out ++ bs := rfl
@[simp] theorem State.emit_rsps (s : State) (bs : List Byte) : (s.emit bs).rsps = s.rsps := rfl

@[simp] theorem State.respond_w (s : State) (st : Status) (d : RspData) : (s.respond st d).w = s.w := rfl
@[simp] theorem State.respond_n (s : State) (st : Status) (d : RspData) : (s.respond st d).n = s.n := rfl
@[simp] theorem State.respond_c (s : State) (st : Status) (d : RspData) : (s.respond st d).c = s.c := rfl
@[simp] theorem State.respond_phase (s : State) (st : Status) (d : RspData) : (s.respond st d).phase = s.phase := rfl
@[simp] theorem State.respond_fcause (s : State) (st : Status) (d : RspData) : (s.respond st d).fcause = s.fcause := rfl
@[simp] theorem State.respond_fop (s : State) (st : Status) (d : RspData) : (s.respond st d).fop = s.fop := rfl
@[simp] theorem State.respond_farg (s : State) (st : Status) (d : RspData) : (s.respond st d).farg = s.farg := rfl
@[simp] theorem State.respond_topt (s : State) (st : Status) (d : RspData) : (s.respond st d).topt = s.topt := rfl
@[simp] theorem State.respond_nleaf (s : State) (st : Status) (d : RspData) : (s.respond st d).nleaf = s.nleaf := rfl
@[simp] theorem State.respond_nnode (s : State) (st : Status) (d : RspData) : (s.respond st d).nnode = s.nnode := rfl
@[simp] theorem State.respond_root (s : State) (st : Status) (d : RspData) : (s.respond st d).root = s.root := rfl
@[simp] theorem State.respond_pb (s : State) (st : Status) (d : RspData) : (s.respond st d).pb = s.pb := rfl
@[simp] theorem State.respond_dcur (s : State) (st : Status) (d : RspData) : (s.respond st d).dcur = s.dcur := rfl
@[simp] theorem State.respond_inputs (s : State) (st : Status) (d : RspData) : (s.respond st d).inputs = s.inputs := rfl
@[simp] theorem State.respond_out (s : State) (st : Status) (d : RspData) : (s.respond st d).out = s.out := rfl
@[simp] theorem State.respond_rsps (s : State) (st : Status) (d : RspData) : (s.respond st d).rsps = s.rsps ++ [⟨st, d⟩] := rfl

@[simp] theorem State.ok_w (s : State) (d : RspData) : (s.ok d).w = s.w := rfl
@[simp] theorem State.ok_n (s : State) (d : RspData) : (s.ok d).n = s.n := rfl
@[simp] theorem State.ok_c (s : State) (d : RspData) : (s.ok d).c = s.c := rfl
@[simp] theorem State.ok_phase (s : State) (d : RspData) : (s.ok d).phase = s.phase := rfl
@[simp] theorem State.ok_fcause (s : State) (d : RspData) : (s.ok d).fcause = s.fcause := rfl
@[simp] theorem State.ok_fop (s : State) (d : RspData) : (s.ok d).fop = s.fop := rfl
@[simp] theorem State.ok_farg (s : State) (d : RspData) : (s.ok d).farg = s.farg := rfl
@[simp] theorem State.ok_topt (s : State) (d : RspData) : (s.ok d).topt = s.topt := rfl
@[simp] theorem State.ok_nleaf (s : State) (d : RspData) : (s.ok d).nleaf = s.nleaf := rfl
@[simp] theorem State.ok_nnode (s : State) (d : RspData) : (s.ok d).nnode = s.nnode := rfl
@[simp] theorem State.ok_root (s : State) (d : RspData) : (s.ok d).root = s.root := rfl
@[simp] theorem State.ok_pb (s : State) (d : RspData) : (s.ok d).pb = s.pb := rfl
@[simp] theorem State.ok_dcur (s : State) (d : RspData) : (s.ok d).dcur = s.dcur := rfl
@[simp] theorem State.ok_inputs (s : State) (d : RspData) : (s.ok d).inputs = s.inputs := rfl
@[simp] theorem State.ok_out (s : State) (d : RspData) : (s.ok d).out = s.out := rfl
@[simp] theorem State.ok_rsps (s : State) (d : RspData) : (s.ok d).rsps = s.rsps ++ [⟨.ok, d⟩] := rfl

@[simp] theorem State.takeFault_w (s : State) (f : Cause) (op a : Byte) : (s.takeFault f op a).w = s.w := rfl
@[simp] theorem State.takeFault_n (s : State) (f : Cause) (op a : Byte) : (s.takeFault f op a).n = s.n := rfl
@[simp] theorem State.takeFault_c (s : State) (f : Cause) (op a : Byte) : (s.takeFault f op a).c = s.c := rfl
@[simp] theorem State.takeFault_phase (s : State) (f : Cause) (op a : Byte) : (s.takeFault f op a).phase = .fault := rfl
@[simp] theorem State.takeFault_fcause (s : State) (f : Cause) (op a : Byte) : (s.takeFault f op a).fcause = f.code := rfl
@[simp] theorem State.takeFault_fop (s : State) (f : Cause) (op a : Byte) : (s.takeFault f op a).fop = op := rfl
@[simp] theorem State.takeFault_farg (s : State) (f : Cause) (op a : Byte) : (s.takeFault f op a).farg = a := rfl
@[simp] theorem State.takeFault_topt (s : State) (f : Cause) (op a : Byte) : (s.takeFault f op a).topt = s.topt := rfl
@[simp] theorem State.takeFault_nleaf (s : State) (f : Cause) (op a : Byte) : (s.takeFault f op a).nleaf = s.nleaf := rfl
@[simp] theorem State.takeFault_nnode (s : State) (f : Cause) (op a : Byte) : (s.takeFault f op a).nnode = s.nnode := rfl
@[simp] theorem State.takeFault_root (s : State) (f : Cause) (op a : Byte) : (s.takeFault f op a).root = s.root := rfl
@[simp] theorem State.takeFault_pb (s : State) (f : Cause) (op a : Byte) : (s.takeFault f op a).pb = s.pb := rfl
@[simp] theorem State.takeFault_dcur (s : State) (f : Cause) (op a : Byte) : (s.takeFault f op a).dcur = s.dcur := rfl
@[simp] theorem State.takeFault_inputs (s : State) (f : Cause) (op a : Byte) : (s.takeFault f op a).inputs = s.inputs := rfl
@[simp] theorem State.takeFault_out (s : State) (f : Cause) (op a : Byte) : (s.takeFault f op a).out = s.out := rfl
@[simp] theorem State.takeFault_rsps (s : State) (f : Cause) (op a : Byte) : (s.takeFault f op a).rsps = s.rsps ++ [⟨.fault, f.code.setWidth 136⟩] := rfl

@[simp] theorem State.refuse_w (s : State) : (s.refuse).w = s.w := rfl
@[simp] theorem State.refuse_n (s : State) : (s.refuse).n = s.n := rfl
@[simp] theorem State.refuse_c (s : State) : (s.refuse).c = s.c := rfl
@[simp] theorem State.refuse_phase (s : State) : (s.refuse).phase = s.phase := rfl
@[simp] theorem State.refuse_fcause (s : State) : (s.refuse).fcause = s.fcause := rfl
@[simp] theorem State.refuse_fop (s : State) : (s.refuse).fop = s.fop := rfl
@[simp] theorem State.refuse_farg (s : State) : (s.refuse).farg = s.farg := rfl
@[simp] theorem State.refuse_topt (s : State) : (s.refuse).topt = s.topt := rfl
@[simp] theorem State.refuse_nleaf (s : State) : (s.refuse).nleaf = s.nleaf := rfl
@[simp] theorem State.refuse_nnode (s : State) : (s.refuse).nnode = s.nnode := rfl
@[simp] theorem State.refuse_root (s : State) : (s.refuse).root = s.root := rfl
@[simp] theorem State.refuse_pb (s : State) : (s.refuse).pb = s.pb := rfl
@[simp] theorem State.refuse_dcur (s : State) : (s.refuse).dcur = s.dcur := rfl
@[simp] theorem State.refuse_inputs (s : State) : (s.refuse).inputs = s.inputs := rfl
@[simp] theorem State.refuse_out (s : State) : (s.refuse).out = s.out := rfl
@[simp] theorem State.refuse_rsps (s : State) : (s.refuse).rsps = s.rsps ++ [⟨.refused, s.fcause.setWidth 136⟩] := rfl

@[simp] theorem State.resetRegisters_w (s : State) : (s.resetRegisters).w = none := rfl
@[simp] theorem State.resetRegisters_n (s : State) : (s.resetRegisters).n = none := rfl
@[simp] theorem State.resetRegisters_c (s : State) : (s.resetRegisters).c = none := rfl
@[simp] theorem State.resetRegisters_phase (s : State) : (s.resetRegisters).phase = .idle := rfl
@[simp] theorem State.resetRegisters_fcause (s : State) : (s.resetRegisters).fcause = 0 := rfl
@[simp] theorem State.resetRegisters_fop (s : State) : (s.resetRegisters).fop = 0 := rfl
@[simp] theorem State.resetRegisters_farg (s : State) : (s.resetRegisters).farg = 0 := rfl
@[simp] theorem State.resetRegisters_topt (s : State) : (s.resetRegisters).topt = false := rfl
@[simp] theorem State.resetRegisters_nleaf (s : State) : (s.resetRegisters).nleaf = 0 := rfl
@[simp] theorem State.resetRegisters_nnode (s : State) : (s.resetRegisters).nnode = 0 := rfl
@[simp] theorem State.resetRegisters_root (s : State) : (s.resetRegisters).root = Config.nil := rfl
@[simp] theorem State.resetRegisters_pb (s : State) : (s.resetRegisters).pb = [] := rfl
@[simp] theorem State.resetRegisters_dcur (s : State) : (s.resetRegisters).dcur = Config.nil := rfl
@[simp] theorem State.resetRegisters_inputs (s : State) : (s.resetRegisters).inputs = s.inputs := rfl
@[simp] theorem State.resetRegisters_out (s : State) : (s.resetRegisters).out = s.out := rfl
@[simp] theorem State.resetRegisters_rsps (s : State) : (s.resetRegisters).rsps = s.rsps := rfl

@[simp] theorem State.packed_w (s : State) (p : Packer) (ph : Phase) : (s.packed p ph).w = s.w := rfl
@[simp] theorem State.packed_n (s : State) (p : Packer) (ph : Phase) : (s.packed p ph).n = s.n := rfl
@[simp] theorem State.packed_c (s : State) (p : Packer) (ph : Phase) : (s.packed p ph).c = s.c := rfl
@[simp] theorem State.packed_phase (s : State) (p : Packer) (ph : Phase) : (s.packed p ph).phase = ph := rfl
@[simp] theorem State.packed_fcause (s : State) (p : Packer) (ph : Phase) : (s.packed p ph).fcause = s.fcause := rfl
@[simp] theorem State.packed_fop (s : State) (p : Packer) (ph : Phase) : (s.packed p ph).fop = s.fop := rfl
@[simp] theorem State.packed_farg (s : State) (p : Packer) (ph : Phase) : (s.packed p ph).farg = s.farg := rfl
@[simp] theorem State.packed_topt (s : State) (p : Packer) (ph : Phase) : (s.packed p ph).topt = s.topt := rfl
@[simp] theorem State.packed_nleaf (s : State) (p : Packer) (ph : Phase) : (s.packed p ph).nleaf = s.nleaf := rfl
@[simp] theorem State.packed_nnode (s : State) (p : Packer) (ph : Phase) : (s.packed p ph).nnode = s.nnode := rfl
@[simp] theorem State.packed_root (s : State) (p : Packer) (ph : Phase) : (s.packed p ph).root = s.root := rfl
@[simp] theorem State.packed_pb (s : State) (p : Packer) (ph : Phase) : (s.packed p ph).pb = p.pb := rfl
@[simp] theorem State.packed_dcur (s : State) (p : Packer) (ph : Phase) : (s.packed p ph).dcur = s.dcur := rfl
@[simp] theorem State.packed_inputs (s : State) (p : Packer) (ph : Phase) : (s.packed p ph).inputs = s.inputs := rfl
@[simp] theorem State.packed_out (s : State) (p : Packer) (ph : Phase) : (s.packed p ph).out = s.out ++ p.emitted := rfl
@[simp] theorem State.packed_rsps (s : State) (p : Packer) (ph : Phase) : (s.packed p ph).rsps = s.rsps ++ [⟨.ok, BitVec.ofNat 136 p.emitted.length⟩] := rfl

end Sys2Proof.Machine
end

