-- ==== Sys2Proof/Laws/Ops.lean ====
section
/-!
SUPPORT. What the shared operations can do: the symbol-indexed stores, the check order, the operand forms.
-/

namespace Sys2Proof.Machine

/-! ### Symbols and the stores indexed by them -/

theorem mem_allSyms (x : Sym) : x ∈ allSyms := by
  simp only [allSyms, List.mem_map, List.mem_range]
  exact ⟨x.toNat, x.isLt, by simp⟩

theorem allSyms_toNat : allSyms.map BitVec.toNat = List.range 128 := by decide +kernel

theorem allSyms_length : allSyms.length = 128 := by simp [allSyms]

/-- The symbols stand in strictly ascending order. -/
theorem allSyms_ascending : allSyms.Pairwise (· < ·) := by decide +kernel

@[simp] theorem symGet_symSet_same {α : Type} (t : Vector α 128) (x : Sym) (v : α) : symGet (symSet t x v) x = v := by
  simp [symGet, symSet]

theorem symGet_symSet_ne {α : Type} (t : Vector α 128) {x y : Sym} (v : α) (h : x ≠ y) :
    symGet (symSet t x v) y = symGet t y := by
  have : x.toNat ≠ y.toNat := fun h' => h (BitVec.eq_of_toNat_eq h')
  simp [symGet, symSet, this]

theorem symGet_symSet {α : Type} (t : Vector α 128) (x y : Sym) (v : α) :
    symGet (symSet t x v) y = if x = y then v else symGet t y := by
  split
  · subst_vars; simp
  · exact symGet_symSet_ne t v ‹_›

@[simp] theorem symGet_replicate {α : Type} (v : α) (x : Sym) : symGet (Vector.replicate 128 v) x = v := by
  simp [symGet]

/-- Entries written one after the other, at most one per symbol: an entry not written keeps its value. -/
theorem symGet_writes_of_not_mem {α : Type} {l : List (Sym × α)} {x : Sym} (h : x ∉ l.map Prod.fst) (t : Vector α 128) :
    symGet (l.foldl (fun t p => symSet t p.1 p.2) t) x = symGet t x := by
  induction l generalizing t with
  | nil => rfl
  | cons p l ih =>
    rw [List.map_cons, List.mem_cons, not_or] at h
    rw [List.foldl_cons, ih h.2, symGet_symSet_ne _ _ (Ne.symm h.1)]

/-- … and an entry written has the value written. -/
theorem symGet_writes_of_mem {α : Type} {l : List (Sym × α)} (h : (l.map Prod.fst).Nodup) {p : Sym × α} (hp : p ∈ l)
    (t : Vector α 128) : symGet (l.foldl (fun t p => symSet t p.1 p.2) t) p.1 = p.2 := by
  induction l generalizing t with
  | nil => simp at hp
  | cons q l ih =>
    rw [List.map_cons, List.nodup_cons] at h
    rcases List.mem_cons.1 hp with rfl | hp
    · rw [List.foldl_cons, symGet_writes_of_not_mem h.1, symGet_symSet_same]
    · exact ih h.2 hp _

/-- Two tables that agree on every symbol are equal. -/
theorem symTable_ext {α : Type} {t u : Vector α 128} (h : ∀ x : Sym, symGet t x = symGet u x) : t = u := by
  ext i hi
  have := h (BitVec.ofNat 7 i)
  simpa [symGet, Nat.mod_eq_of_lt hi] using this

/-! ### The check order (R68, R183) -/

theorem guarded_of_fault {i : Instr} {s : State} (h : s.phase = .fault) (body : Result) :
    guarded i s body = .next s.refuse := by simp [guarded, h]

theorem guarded_of_legal {i : Instr} {s : State} (hf : s.phase ≠ .fault) (hl : legalIn i s.phase = true)
    (body : Result) : guarded i s body = body := by simp [guarded, hf, hl]

theorem guarded_of_illegal {i : Instr} {s : State} (hf : s.phase ≠ .fault) (hl : legalIn i s.phase = false)
    (body : Result) : guarded i s body = raise .badPhase i s := by simp [guarded, hf, hl]

/-- Everything a guarded command can answer: refused in `FAULT`, `BAD_PHASE` where it is not legal, else its body. -/
theorem guarded_cases {i : Instr} {s : State} {body r : Result} (h : guarded i s body = r) :
    (s.phase = .fault ∧ r = .next s.refuse) ∨
    (s.phase ≠ .fault ∧ legalIn i s.phase = false ∧ r = raise .badPhase i s) ∨
    (s.phase ≠ .fault ∧ legalIn i s.phase = true ∧ r = body) := by
  subst h
  by_cases hf : s.phase = .fault
  · exact .inl ⟨hf, guarded_of_fault hf _⟩
  · cases hl : legalIn i s.phase
    · exact .inr (.inl ⟨hf, rfl, guarded_of_illegal hf hl _⟩)
    · exact .inr (.inr ⟨hf, rfl, guarded_of_legal hf hl _⟩)

/-- A legal command in a phase other than `FAULT`: the phase is one of the table's row (R173). -/
theorem legalIn_fault (i : Instr) : legalIn i .fault = true ↔ i = .stat ∨ i = .srst := by
  cases i <;> simp [legalIn]

@[simp] theorem withStore_some {α : Type} (i : Instr) (s : State) (t : α) (body : α → Result) :
    withStore i s (some t) body = body t := rfl

@[simp] theorem withStore_none {α : Type} (i : Instr) (s : State) (body : α → Result) :
    withStore i s none body = raise .badPhase i s := rfl

/-! ### Operands (R69, R45) -/

theorem symIndex_eq_some {a : Byte} {x : Sym} : symIndex a = some x ↔ a = x.setWidth 8 := by
  unfold symIndex
  split
  · rename_i h
    simp only [Option.some.injEq]
    constructor
    · rintro rfl
      apply BitVec.eq_of_toNat_eq
      simp only [BitVec.toNat_setWidth, BitVec.extractLsb'_toNat]
      simp; omega
    · rintro rfl
      apply BitVec.eq_of_toNat_eq
      have := x.isLt
      simp only [BitVec.extractLsb'_toNat, BitVec.toNat_setWidth]
      simp; omega
  · rename_i h
    simp only [reduceCtorEq, false_iff]
    rintro rfl
    apply h
    have := x.isLt
    simp only [BitVec.toNat_setWidth]
    omega

theorem symIndex_eq_none {a : Byte} : symIndex a = none ↔ 127 < a.toNat := by
  unfold symIndex; split <;> simp <;> omega

@[simp] theorem symIndex_setWidth (x : Sym) : symIndex (x.setWidth 8) = some x := symIndex_eq_some.2 rfl

theorem setWidth_sym_inj {x y : Sym} (h : x.setWidth 8 = y.setWidth 8) : x = y := by
  have := symIndex_setWidth x
  rw [h, symIndex_setWidth] at this
  exact (Option.some.inj this).symm

@[simp] theorem maskedSym_setWidth (x : Sym) : maskedSym (x.setWidth 8) = x := by
  apply BitVec.eq_of_toNat_eq
  have := x.isLt
  simp only [maskedSym, BitVec.extractLsb'_toNat, BitVec.toNat_setWidth]
  simp; omega

theorem maskedSym_toNat (a : Byte) : (maskedSym a).toNat = a.toNat % 128 := by
  simp [maskedSym, BitVec.extractLsb'_toNat]

end Sys2Proof.Machine
end

