-- ==== Sys2Proof/Laws/Tree.lean ====
section
/-!
SUPPORT. What TBUILD's operations do: the order of R104, the removal of a smallest key, the leaves of R102, and the
invariant of the merge loop, from which the finished tree is in good order and merged in order.
-/

namespace Sys2Proof.Machine

/-! ### The order of keys -/

theorem keyLt_iff {x y : Key} :
    keyLt x y = true ↔
      x.weight.toNat < y.weight.toNat ∨ (x.weight.toNat = y.weight.toNat ∧ x.idx.toNat < y.idx.toNat) := by
  simp [keyLt, BitVec.lt_def, BitVec.toNat_inj]

/-- `popMin` removes one key, and none that is left is smaller. -/
theorem popMin_spec {q rest : List Key} {m : Key} (h : popMin q = some (m, rest)) :
    (m :: rest).Perm q ∧ ∀ k ∈ rest, ¬ keyLt k m = true := by
  induction q generalizing m rest with
  | nil => simp [popMin] at h
  | cons k q ih =>
    cases hq : popMin q with
    | none =>
      have hnil : q = [] := by
        cases q with
        | nil => rfl
        | cons a q =>
          exfalso
          simp only [popMin] at hq
          split at hq <;> [skip; split at hq] <;> simp at hq
      simp only [popMin, hq, Option.some.injEq, Prod.mk.injEq] at h
      obtain ⟨rfl, rfl⟩ := h
      simp [hnil]
    | some p =>
      obtain ⟨m', rest'⟩ := p
      obtain ⟨hperm, hmin⟩ := ih hq
      simp only [popMin, hq] at h
      split at h
      · rename_i hlt
        simp only [Option.some.injEq, Prod.mk.injEq] at h
        obtain ⟨rfl, rfl⟩ := h
        refine ⟨List.Perm.refl _, fun x hx hxk => ?_⟩
        rcases List.mem_cons.1 (hperm.mem_iff.2 hx) with rfl | hx'
        · rw [keyLt_iff] at hlt hxk; omega
        · apply hmin x hx'
          rw [keyLt_iff] at hlt hxk ⊢; omega
      · rename_i hlt
        simp only [Option.some.injEq, Prod.mk.injEq] at h
        obtain ⟨rfl, rfl⟩ := h
        refine ⟨(List.Perm.swap _ _ _).trans (hperm.cons _), fun x hx => ?_⟩
        rcases List.mem_cons.1 hx with rfl | hx'
        · exact hlt
        · exact hmin x hx'

theorem popMin_eq_none {q : List Key} : popMin q = none ↔ q = [] := by
  constructor
  · intro h
    cases q with
    | nil => rfl
    | cons a q =>
      exfalso
      simp only [popMin] at h
      split at h <;> [skip; split at h] <;> simp at h
  · rintro rfl; rfl

/-! ### Records, children, sums -/

@[simp] theorem childIdxs_append (l m : List NodeRec) : childIdxs (l ++ m) = childIdxs l ++ childIdxs m := by
  simp [childIdxs]

@[simp] theorem childIdxs_internalRec (x y : Key) : childIdxs [internalRec x y] = [x.idx.toNat, y.idx.toNat] := by
  simp [childIdxs, internalRec]

theorem childIdxs_eq_nil {l : List NodeRec} (h : ∀ r ∈ l, r.leaf = true) : childIdxs l = [] := by
  simp only [childIdxs, List.flatMap_eq_nil_iff]
  intro r hr; simp [h r hr]

/-! ### Seeding (R101, R102) -/

theorem seedLeaves_leaf {f : Vector Weight 128} {opt : Bool} {r : NodeRec} (h : r ∈ seedLeaves f opt) :
    ∃ x, admitted f opt x = true ∧ r = leafRec f x := by
  simp only [seedLeaves, List.mem_map, List.mem_filter] at h
  obtain ⟨x, ⟨-, hx⟩, rfl⟩ := h
  exact ⟨x, hx, rfl⟩

theorem mem_seedLeaves {f : Vector Weight 128} {opt : Bool} {x : Sym} :
    leafRec f x ∈ seedLeaves f opt ↔ admitted f opt x = true := by
  constructor
  · intro h
    obtain ⟨y, hy, heq⟩ := seedLeaves_leaf h
    have : x = y := setWidth_sym_inj (congrArg NodeRec.sym heq)
    rwa [this]
  · intro h
    simp only [seedLeaves, List.mem_map, List.mem_filter]
    exact ⟨x, ⟨mem_allSyms x, h⟩, rfl⟩

theorem admitted_iff {f : Vector Weight 128} {opt : Bool} {x : Sym} :
    admitted f opt x = true ↔ opt = false ∨ symGet f x ≠ 0 := by
  cases opt <;> simp [admitted]

theorem seedLeaves_ascending (f : Vector Weight 128) (opt : Bool) :
    (seedLeaves f opt).Pairwise fun a b => a.sym < b.sym := by
  unfold seedLeaves
  rw [List.pairwise_map]
  refine (allSyms_ascending.filter _).imp ?_
  intro x y h
  rw [BitVec.lt_def] at h ⊢
  have hx := x.isLt
  have hy := y.isLt
  simp only [leafRec, BitVec.toNat_setWidth]
  omega

theorem seedLeaves_length_le (f : Vector Weight 128) (opt : Bool) : (seedLeaves f opt).length ≤ 128 := by
  have := List.length_filter_le (admitted f opt) allSyms
  simpa [seedLeaves, allSyms_length] using this

theorem seedLeaves_length_pos {f : Vector Weight 128} (opt : Bool) (h : allZero f = false) :
    1 ≤ (seedLeaves f opt).length := by
  simp only [allZero, List.all_eq_false] at h
  obtain ⟨x, -, hx⟩ := h
  apply List.length_pos_of_mem (a := leafRec f x)
  rw [mem_seedLeaves, admitted_iff]
  right
  simpa using hx

theorem seedLeaves_weightSum (f : Vector Weight 128) (opt : Bool) :
    ((seedLeaves f opt).map fun r => r.weight.toNat).sum = weightSum f := by
  unfold seedLeaves weightSum
  rw [List.map_map]
  have hw : ∀ x : Sym, (leafRec f x).weight.toNat = (symGet f x).toNat := by
    intro x
    have := (symGet f x).isLt
    simp only [leafRec, BitVec.toNat_setWidth]
    omega
  induction allSyms with
  | nil => rfl
  | cons x xs ih =>
    by_cases ha : admitted f opt x = true
    · simp [ha, hw] at ih ⊢
      omega
    · have h0 : symGet f x = 0 := by
        rw [admitted_iff] at ha; push Not at ha; exact ha.2
      simp [ha, h0] at ih ⊢
      omega

theorem weightSum_lt (f : Vector Weight 128) : weightSum f < 2 ^ 39 := by
  have : ∀ l : List Sym, (l.map fun x => (symGet f x).toNat).sum ≤ l.length * (2 ^ 32 - 1) := by
    intro l
    induction l with
    | nil => simp
    | cons x xs ih =>
      have := (symGet f x).isLt
      simp only [List.map_cons, List.sum_cons, List.length_cons]
      omega
  have h := this allSyms
  rw [allSyms_length] at h
  unfold weightSum
  omega

/-! ### The merge loop (R103) -/

/-- What holds of the records and of `Q` before every pass of the loop. -/
structure LoopInv (leaves nodes : List NodeRec) (q : List Key) : Prop where
  size : nodes.length + q.length = 2 * leaves.length
  leafMax : leaves.length ≤ 128
  nonempty : 1 ≤ q.length
  seeded : ∃ more, nodes = leaves ++ more
  keyed : ∀ k ∈ q, ∃ r, nodes[k.idx.toNat]? = some r ∧ r.weight = k.weight
  distinct : (q.map fun k => k.idx.toNat).Nodup
  live : ∀ j, j < nodes.length → ((∃ k ∈ q, k.idx.toNat = j) ↔ j ∉ childIdxs nodes)
  children : (childIdxs nodes).Nodup
  childLt : ∀ c ∈ childIdxs nodes, c + 1 < nodes.length
  inner : ∀ i r, nodes[i]? = some r → leaves.length ≤ i →
    r.leaf = false ∧ r.sym = Config.noSym ∧ r.left.toNat < i ∧ r.right.toNat < i ∧ r.left ≠ r.right
  sums : ∀ i r l t, nodes[i]? = some r → leaves.length ≤ i → nodes[r.left.toNat]? = some l →
    nodes[r.right.toNat]? = some t → r.weight.toNat = l.weight.toNat + t.weight.toNat
  order : MergedInOrder nodes leaves.length
  total : (q.map fun k => k.weight.toNat).sum < 2 ^ 39

theorem getElem?_append_old {α : Type} {l : List α} {m : List α} {i : Nat} {a : α} (h : l[i]? = some a) :
    (l ++ m)[i]? = some a := by
  have hi : i < l.length := by
    rw [List.getElem?_eq_some_iff] at h; exact h.1
  rw [List.getElem?_append_left hi, h]

theorem getElem?_snoc_cases {α : Type} {l : List α} {r a : α} {i : Nat} (h : (l ++ [r])[i]? = some a) :
    (i < l.length ∧ l[i]? = some a) ∨ (i = l.length ∧ a = r) := by
  by_cases hi : i < l.length
  · rw [List.getElem?_append_left hi] at h; exact .inl ⟨hi, h⟩
  · rw [List.getElem?_append_right (by omega)] at h
    cases hk : i - l.length with
    | zero => rw [hk] at h; simp at h; exact .inr ⟨by omega, h.symm⟩
    | succ n => rw [hk] at h; simp at h

theorem getElem?_lt {α : Type} {l : List α} {i : Nat} {a : α} (h : l[i]? = some a) : i < l.length := by
  rw [List.getElem?_eq_some_iff] at h; exact h.1

theorem KeyBelow.append {nodes : List NodeRec} {j k : Nat} (more : List NodeRec) (h : KeyBelow nodes j k) :
    KeyBelow (nodes ++ more) j k := by
  obtain ⟨a, b, ha, hb, hlt⟩ := h
  exact ⟨a, b, getElem?_append_old ha, getElem?_append_old hb, hlt⟩

theorem live_append_iff {nodes more : List NodeRec} {i j : Nat} (h : i ≤ nodes.length) :
    Live (nodes ++ more) i j ↔ Live nodes i j := by
  unfold Live
  rw [List.take_append_of_le_length h]

/-- A key that is not greater is, among keys of distinct indices, below. -/
theorem keyBelow_of_not_lt {nodes : List NodeRec} {x y : Key} {a b : NodeRec} (ha : nodes[x.idx.toNat]? = some a)
    (hb : nodes[y.idx.toNat]? = some b) (hwa : a.weight = x.weight) (hwb : b.weight = y.weight)
    (hne : x.idx.toNat ≠ y.idx.toNat) (h : ¬ keyLt y x = true) : KeyBelow nodes x.idx.toNat y.idx.toNat := by
  refine ⟨a, b, ha, hb, ?_⟩
  rw [keyLt_iff] at h
  rw [hwa, hwb, BitVec.lt_def, ← BitVec.toNat_inj]
  omega

/-- One pass of the loop keeps the invariant. -/
theorem LoopInv.pass {leaves nodes : List NodeRec} {q q1 q2 : List Key} {x y : Key} (h : LoopInv leaves nodes q)
    (hx : popMin q = some (x, q1)) (hy : popMin q1 = some (y, q2)) :
    LoopInv leaves (nodes ++ [internalRec x y])
      (⟨(internalRec x y).weight, BitVec.ofNat 8 nodes.length⟩ :: q2) := by
  obtain ⟨hp1, hm1⟩ := popMin_spec hx
  obtain ⟨hp2, hm2⟩ := popMin_spec hy
  have hperm : (x :: y :: q2).Perm q := (hp2.cons x).trans hp1
  have hlen : q2.length + 2 = q.length := by simpa using hperm.length_eq
  have hn : nodes.length ≤ 254 := by have := h.size; have := h.leafMax; omega
  have hnew : (BitVec.ofNat 8 nodes.length).toNat = nodes.length := by
    rw [BitVec.toNat_ofNat]; exact Nat.mod_eq_of_lt (by omega)
  have hmem : ∀ k, k ∈ q ↔ k = x ∨ k = y ∨ k ∈ q2 := by
    intro k; rw [← hperm.mem_iff]; simp
  have hd : (x.idx.toNat :: y.idx.toNat :: q2.map fun k => k.idx.toNat).Nodup := by
    have := (hperm.map fun k => k.idx.toNat).nodup_iff.2 h.distinct
    simpa using this
  have hxy : x.idx.toNat ≠ y.idx.toNat := by
    intro he; simp [he] at hd
  have hxq : ∀ k ∈ q2, x.idx.toNat ≠ k.idx.toNat := by
    intro k hk he
    simp only [List.nodup_cons, List.mem_cons, List.mem_map, not_or, not_exists, not_and] at hd
    exact hd.1.2 k hk he.symm
  have hyq : ∀ k ∈ q2, y.idx.toNat ≠ k.idx.toNat := by
    intro k hk he
    simp only [List.nodup_cons, List.mem_cons, List.mem_map, not_or, not_exists, not_and] at hd
    exact hd.2.1 k hk he.symm
  obtain ⟨rx, hrx, hwx⟩ := h.keyed x ((hmem x).2 (.inl rfl))
  obtain ⟨ry, hry, hwy⟩ := h.keyed y ((hmem y).2 (.inr (.inl rfl)))
  have hxlt := getElem?_lt hrx
  have hylt := getElem?_lt hry
  have hxlive : x.idx.toNat ∉ childIdxs nodes := (h.live _ hxlt).1 ⟨x, (hmem x).2 (.inl rfl), rfl⟩
  have hylive : y.idx.toNat ∉ childIdxs nodes := (h.live _ hylt).1 ⟨y, (hmem y).2 (.inr (.inl rfl)), rfl⟩
  have htot : x.weight.toNat + (y.weight.toNat + (q2.map fun k => k.weight.toNat).sum) < 2 ^ 39 := by
    have := (hperm.map fun k => k.weight.toNat).sum_eq
    have h2 := h.total
    rw [← this] at h2
    simpa using h2
  have hsum : (internalRec x y).weight.toNat = x.weight.toNat + y.weight.toNat := by
    simp only [internalRec, BitVec.toNat_add]
    exact Nat.mod_eq_of_lt (by omega)
  refine
    { size := ?_, leafMax := h.leafMax, nonempty := by simp, seeded := ?_, keyed := ?_, distinct := ?_, live := ?_,
      children := ?_, childLt := ?_, inner := ?_, sums := ?_, order := ?_, total := ?_ }
  · have := h.size; simp; omega
  · obtain ⟨more, hmore⟩ := h.seeded
    exact ⟨more ++ [internalRec x y], by rw [hmore]; simp⟩
  · intro k hk
    rcases List.mem_cons.1 hk with rfl | hk
    · refine ⟨internalRec x y, ?_, rfl⟩
      rw [hnew]; simp
    · obtain ⟨r, hr, hw⟩ := h.keyed k ((hmem k).2 (.inr (.inr hk)))
      exact ⟨r, getElem?_append_old hr, hw⟩
  · simp only [List.map_cons, List.nodup_cons, hnew, List.mem_map, not_exists, not_and]
    refine ⟨fun k hk he => ?_, ?_⟩
    · obtain ⟨r, hr, -⟩ := h.keyed k ((hmem k).2 (.inr (.inr hk)))
      have := getElem?_lt hr
      omega
    · simp only [List.nodup_cons] at hd; exact hd.2.2
  · intro j hj
    simp only [List.length_append, List.length_cons, List.length_nil] at hj
    simp only [List.mem_cons, exists_eq_or_imp, hnew, childIdxs_append, childIdxs_internalRec, List.mem_append,
      List.not_mem_nil, or_false, not_or]
    by_cases hjn : j = nodes.length
    · subst hjn
      simp only [true_or, true_iff]
      refine ⟨fun hc => ?_, by omega, by omega⟩
      have := h.childLt _ hc; omega
    · have hj' : j < nodes.length := by omega
      rw [← h.live j hj']
      constructor
      · rintro (he | ⟨k, hk, rfl⟩)
        · omega
        · exact ⟨⟨k, (hmem k).2 (.inr (.inr hk)), rfl⟩, fun he => hxq k hk he.symm, fun he => hyq k hk he.symm⟩
      · rintro ⟨⟨k, hk, rfl⟩, hnx, hny⟩
        rcases (hmem k).1 hk with rfl | rfl | hk
        · exact absurd rfl hnx
        · exact absurd rfl hny
        · exact .inr ⟨k, hk, rfl⟩
  · rw [childIdxs_append, childIdxs_internalRec, List.nodup_append]
    refine ⟨h.children, by simp [hxy], ?_⟩
    intro a ha b hb
    simp only [List.mem_cons, List.not_mem_nil, or_false] at hb
    rcases hb with rfl | rfl
    · rintro rfl; exact hxlive ha
    · rintro rfl; exact hylive ha
  · intro c hc
    simp only [childIdxs_append, childIdxs_internalRec, List.mem_append, List.mem_cons, List.not_mem_nil,
      or_false] at hc
    simp only [List.length_append, List.length_cons, List.length_nil]
    rcases hc with hc | rfl | rfl
    · have := h.childLt c hc; omega
    · omega
    · omega
  · intro i r hr hi
    rcases getElem?_snoc_cases hr with ⟨-, hr⟩ | ⟨rfl, rfl⟩
    · exact h.inner i r hr hi
    · refine ⟨rfl, rfl, hxlt, hylt, ?_⟩
      intro he
      exact hxy (congrArg BitVec.toNat he)
  · intro i r l t hr hi hl ht
    rcases getElem?_snoc_cases hr with ⟨hlt, hr⟩ | ⟨rfl, rfl⟩
    · have hin := h.inner i r hr hi
      rw [List.getElem?_append_left (by omega)] at hl ht
      exact h.sums i r l t hr hi hl ht
    · have e1 : rx = l := by
        have := getElem?_append_old (m := [internalRec x y]) hrx
        exact Option.some.inj (this.symm.trans hl)
      have e2 : ry = t := by
        have := getElem?_append_old (m := [internalRec x y]) hry
        exact Option.some.inj (this.symm.trans ht)
      rw [hsum, ← e1, ← e2, hwx, hwy]
  · intro i r hr hi
    rcases getElem?_snoc_cases hr with ⟨hlt, hr⟩ | ⟨rfl, rfl⟩
    · obtain ⟨h1, h2, h3, h4⟩ := h.order i r hr hi
      have hle : i ≤ nodes.length := by omega
      refine ⟨(live_append_iff hle).2 h1, (live_append_iff hle).2 h2, fun j hj hne => ?_, fun j hj hne hne' => ?_⟩
      · exact (h3 j ((live_append_iff hle).1 hj) hne).append _
      · exact (h4 j ((live_append_iff hle).1 hj) hne hne').append _
    · have hlive : ∀ j, Live (nodes ++ [internalRec x y]) nodes.length j ↔ ∃ k ∈ q, k.idx.toNat = j := by
        intro j
        rw [live_append_iff (Nat.le_refl _)]
        unfold Live
        rw [List.take_length]
        constructor
        · rintro ⟨hj, hc⟩; exact (h.live j hj).2 hc
        · rintro ⟨k, hk, rfl⟩
          obtain ⟨r, hr, -⟩ := h.keyed k hk
          have hklt := getElem?_lt hr
          exact ⟨hklt, (h.live _ hklt).1 ⟨k, hk, rfl⟩⟩
      refine ⟨(hlive _).2 ⟨x, (hmem x).2 (.inl rfl), rfl⟩, (hlive _).2 ⟨y, (hmem y).2 (.inr (.inl rfl)), rfl⟩,
        fun j hj hne => ?_, fun j hj hne hne' => ?_⟩
      · obtain ⟨k, hk, rfl⟩ := (hlive j).1 hj
        obtain ⟨r, hr, hw⟩ := h.keyed k hk
        have hk1 : k ∈ q1 := by
          rcases List.mem_cons.1 (hp1.mem_iff.2 hk) with rfl | hk1
          · exact absurd rfl hne
          · exact hk1
        exact (keyBelow_of_not_lt hrx hr hwx hw (fun he => hne he.symm) (hm1 k hk1)).append _
      · obtain ⟨k, hk, rfl⟩ := (hlive j).1 hj
        obtain ⟨r, hr, hw⟩ := h.keyed k hk
        have hk2 : k ∈ q2 := by
          rcases (hmem k).1 hk with rfl | rfl | hk2
          · exact absurd rfl hne
          · exact absurd rfl hne'
          · exact hk2
        exact (keyBelow_of_not_lt hry hr hwy hw (fun he => hne' he.symm) (hm2 k hk2)).append _
  · simp only [List.map_cons, List.sum_cons, hsum]
    omega

/-- `Q` keeps its total weight through a pass. -/
theorem pass_total {leaves nodes : List NodeRec} {q q1 q2 : List Key} {x y : Key} (h : LoopInv leaves nodes q)
    (hx : popMin q = some (x, q1)) (hy : popMin q1 = some (y, q2)) :
    ((⟨(internalRec x y).weight, BitVec.ofNat 8 nodes.length⟩ :: q2 : List Key).map fun k => k.weight.toNat).sum =
      (q.map fun k => k.weight.toNat).sum := by
  have hperm : (x :: y :: q2).Perm q := ((popMin_spec hy).1.cons x).trans (popMin_spec hx).1
  have hs := (hperm.map fun k => k.weight.toNat).sum_eq
  have ht := h.total
  simp only [List.map_cons, List.sum_cons] at hs ⊢
  simp only [internalRec, BitVec.toNat_add]
  rw [Nat.mod_eq_of_lt (by omega)]
  omega

/-- The whole loop: it ends with one key in `Q`, of the weight `Q` had. -/
theorem mergeLoop_inv {leaves nodes : List NodeRec} {q : List Key} {fuel : Nat} (h : LoopInv leaves nodes q)
    (hf : fuel + 1 = q.length) :
    ∃ k, LoopInv leaves (mergeLoop fuel nodes q) [k] ∧ k.weight.toNat = (q.map fun k => k.weight.toNat).sum := by
  induction fuel generalizing nodes q with
  | zero =>
    obtain ⟨k, rfl⟩ : ∃ k, q = [k] := List.length_eq_one_iff.1 hf.symm
    exact ⟨k, h, by simp⟩
  | succ fuel ih =>
    cases hx : popMin q with
    | none => rw [popMin_eq_none.1 hx] at hf; simp at hf
    | some p =>
      obtain ⟨x, q1⟩ := p
      have hl1 : q1.length + 1 = q.length := by simpa using (popMin_spec hx).1.length_eq
      cases hy : popMin q1 with
      | none => rw [popMin_eq_none.1 hy] at hl1; simp at hl1; omega
      | some p =>
        obtain ⟨y, q2⟩ := p
        have hl2 : q2.length + 1 = q1.length := by simpa using (popMin_spec hy).1.length_eq
        have hstep : mergeLoop (fuel + 1) nodes q =
            mergeLoop fuel (nodes ++ [internalRec x y])
              (⟨(internalRec x y).weight, BitVec.ofNat 8 nodes.length⟩ :: q2) := by
          simp [mergeLoop, hx, hy]
        rw [hstep, ← pass_total h hx hy]
        exact ih (h.pass hx hy) (by simp; omega)

/-! ### The start of the loop -/

theorem keysFrom_length (i : Nat) (l : List NodeRec) : (keysFrom i l).length = l.length := by
  induction l generalizing i with
  | nil => rfl
  | cons r rs ih => simp [keysFrom, ih]

theorem mem_keysFrom {i : Nat} {l : List NodeRec} {k : Key} (hb : i + l.length ≤ 256) (h : k ∈ keysFrom i l) :
    i ≤ k.idx.toNat ∧ ∃ r, l[k.idx.toNat - i]? = some r ∧ r.weight = k.weight := by
  induction l generalizing i with
  | nil => simp [keysFrom] at h
  | cons r rs ih =>
    simp only [List.length_cons] at hb
    rcases List.mem_cons.1 h with rfl | h
    · have : (BitVec.ofNat 8 i).toNat = i := by
        rw [BitVec.toNat_ofNat]; exact Nat.mod_eq_of_lt (by omega)
      simp [this]
    · obtain ⟨hle, r', hr', hw⟩ := ih (by omega) h
      refine ⟨by omega, r', ?_, hw⟩
      rw [show k.idx.toNat - i = (k.idx.toNat - (i + 1)) + 1 by omega]
      simpa using hr'

theorem keysFrom_toNat {i : Nat} {l : List NodeRec} (hb : i + l.length ≤ 256) :
    (keysFrom i l).map (fun k => k.idx.toNat) = List.range' i l.length := by
  induction l generalizing i with
  | nil => rfl
  | cons r rs ih =>
    simp only [List.length_cons] at hb
    have : (BitVec.ofNat 8 i).toNat = i := by
      rw [BitVec.toNat_ofNat]; exact Nat.mod_eq_of_lt (by omega)
    simp only [keysFrom, List.map_cons, this, ih (show i + 1 + rs.length ≤ 256 by omega), List.length_cons,
      List.range'_succ]

theorem keysFrom_weights (i : Nat) (l : List NodeRec) :
    (keysFrom i l).map (fun k => k.weight.toNat) = l.map fun r => r.weight.toNat := by
  induction l generalizing i with
  | nil => rfl
  | cons r rs ih => simp [keysFrom, ih]

/-- The loop starts in its invariant. -/
theorem loopInv_start {f : Vector Weight 128} (opt : Bool) (h : allZero f = false) :
    LoopInv (seedLeaves f opt) (seedLeaves f opt) (keysFrom 0 (seedLeaves f opt)) := by
  have hle := seedLeaves_length_le f opt
  have hpos := seedLeaves_length_pos opt h
  have hnil : childIdxs (seedLeaves f opt) = [] := childIdxs_eq_nil fun r hr => by
    obtain ⟨x, -, rfl⟩ := seedLeaves_leaf hr; rfl
  have hbnd : 0 + (seedLeaves f opt).length ≤ 256 := by omega
  refine
    { size := ?_, leafMax := hle, nonempty := by rw [keysFrom_length]; exact hpos, seeded := ⟨[], by simp⟩,
      keyed := ?_, distinct := ?_, live := ?_, children := by simp [hnil], childLt := by simp [hnil], inner := ?_,
      sums := ?_, order := ?_, total := ?_ }
  · rw [keysFrom_length]; omega
  · intro k hk
    obtain ⟨-, r, hr, hw⟩ := mem_keysFrom hbnd hk
    exact ⟨r, by simpa using hr, hw⟩
  · rw [keysFrom_toNat hbnd]; exact List.nodup_range'
  · intro j hj
    simp only [hnil, List.not_mem_nil, not_false_eq_true, iff_true]
    have hm : j ∈ (keysFrom 0 (seedLeaves f opt)).map fun k => k.idx.toNat := by
      rw [keysFrom_toNat hbnd]; simp [hj]
    simpa using hm
  · intro i r hr hi; have := getElem?_lt hr; omega
  · intro i r l t hr hi; have := getElem?_lt hr; omega
  · intro i r hr hi; have := getElem?_lt hr; omega
  · rw [keysFrom_weights, seedLeaves_weightSum]; exact weightSum_lt f

/-! ### The finished tree -/

/-- The sum beneath a node is its weight, in any tree of summed weights over older nodes. -/
theorem leafSum_eq_weight {nodes : List NodeRec} {nleaf : Nat}
    (hleaf : ∀ i r, nodes[i]? = some r → i < nleaf → r.leaf = true)
    (hinner : ∀ i r, nodes[i]? = some r → nleaf ≤ i → r.leaf = false ∧ r.left.toNat < i ∧ r.right.toNat < i)
    (hsums : ∀ i r l t, nodes[i]? = some r → nleaf ≤ i → nodes[r.left.toNat]? = some l →
      nodes[r.right.toNat]? = some t → r.weight.toNat = l.weight.toNat + t.weight.toNat)
    (fuel i : Nat) (r : NodeRec) (hr : nodes[i]? = some r) (hi : i < fuel) :
    leafSum nodes fuel i = r.weight.toNat := by
  induction fuel generalizing i r with
  | zero => omega
  | succ fuel ih =>
    simp only [leafSum, hr]
    by_cases hlt : i < nleaf
    · simp [hleaf i r hr hlt]
    · obtain ⟨hl, hll, hrl⟩ := hinner i r hr (by omega)
      have hlen := getElem?_lt hr
      obtain ⟨l, hl'⟩ : ∃ l, nodes[r.left.toNat]? = some l := ⟨_, List.getElem?_eq_getElem (by omega)⟩
      obtain ⟨t, ht'⟩ : ∃ t, nodes[r.right.toNat]? = some t := ⟨_, List.getElem?_eq_getElem (by omega)⟩
      simp only [hl, Bool.false_eq_true, if_false]
      rw [ih _ l hl' (by omega), ih _ t ht' (by omega), hsums i r l t hr (by omega) hl' ht']

/-- The tree TBUILD builds is in good order (R23, R101, R107, R111) and was merged in order (R103 to R105). -/
theorem buildTree_spec {f : Vector Weight 128} (opt : Bool) (h : allZero f = false) :
    TreeOk f opt (buildTree f opt) (seedLeaves f opt).length ∧
      MergedInOrder (buildTree f opt) (seedLeaves f opt).length := by
  have hle := seedLeaves_length_le f opt
  have hpos := seedLeaves_length_pos opt h
  obtain ⟨k, hinv, hk⟩ := mergeLoop_inv (fuel := (seedLeaves f opt).length - 1) (loopInv_start opt h)
    (by rw [keysFrom_length]; omega)
  rw [keysFrom_weights, seedLeaves_weightSum] at hk
  change LoopInv _ (buildTree f opt) [k] at hinv
  generalize hnodes : buildTree f opt = nodes at hinv ⊢
  have hsize : nodes.length = 2 * (seedLeaves f opt).length - 1 := by
    have := hinv.size; simp at this; omega
  obtain ⟨more, hmore⟩ := hinv.seeded
  have hold : ∀ i, i < (seedLeaves f opt).length → nodes[i]? = (seedLeaves f opt)[i]? := by
    intro i hi; rw [hmore, List.getElem?_append_left hi]
  have hleafrec : ∀ i r, nodes[i]? = some r → i < (seedLeaves f opt).length →
      ∃ x, admitted f opt x = true ∧ r = leafRec f x := by
    intro i r hr hi
    rw [hold i hi] at hr
    exact seedLeaves_leaf (List.mem_of_getElem? hr)
  have hlast : k.idx.toNat = nodes.length - 1 := by
    have hlive : nodes.length - 1 ∉ childIdxs nodes := by
      intro hc; have := hinv.childLt _ hc; omega
    obtain ⟨k', hk', he⟩ := (hinv.live (nodes.length - 1) (by omega)).2 hlive
    rw [List.mem_singleton.1 hk'] at he
    exact he
  refine ⟨⟨⟨hpos, hle⟩, hsize, ?_, ?_, ?_, hinv.inner, hinv.sums, ?_, ?_, ?_⟩, hinv.order⟩
  · intro i r hr hi
    obtain ⟨x, -, rfl⟩ := hleafrec i r hr hi
    exact ⟨rfl, rfl, rfl, x, rfl, rfl⟩
  · intro i j ri rj hri hrj hij hj
    rw [hold i (by omega)] at hri
    rw [hold j hj] at hrj
    obtain ⟨hi', rfl⟩ := List.getElem?_eq_some_iff.1 hri
    obtain ⟨hj', rfl⟩ := List.getElem?_eq_some_iff.1 hrj
    exact List.pairwise_iff_getElem.1 (seedLeaves_ascending f opt) i j hi' hj' hij
  · intro x
    rw [← admitted_iff, ← mem_seedLeaves]
    constructor
    · rintro ⟨i, hi, r, hr, hl, hs⟩
      obtain ⟨y, hy, rfl⟩ := hleafrec i r hr hi
      have : y = x := setWidth_sym_inj hs
      subst this
      exact mem_seedLeaves.2 hy
    · intro hx
      obtain ⟨i, hi, he⟩ := List.mem_iff_getElem.1 hx
      refine ⟨i, hi, leafRec f x, ?_, rfl, rfl⟩
      rw [hold i hi, List.getElem?_eq_getElem hi, he]
  · intro j hj
    split
    · rename_i he
      rw [List.count_eq_zero]
      intro hc; have := hinv.childLt _ hc; omega
    · rename_i hne
      have hnl : j ∈ childIdxs nodes := by
        by_contra hc
        obtain ⟨k', hk', he⟩ := (hinv.live j hj).2 hc
        rw [List.mem_singleton.1 hk'] at he
        omega
      exact List.count_eq_one_of_mem hinv.children hnl
  · intro i r hr
    refine (leafSum_eq_weight (nleaf := (seedLeaves f opt).length) ?_ ?_ hinv.sums (i + 1) i r hr (by omega)).symm
    · intro i r hr hi
      obtain ⟨x, -, rfl⟩ := hleafrec i r hr hi
      rfl
    · intro i r hr hi
      obtain ⟨h1, -, h2, h3, -⟩ := hinv.inner i r hr hi
      exact ⟨h1, h2, h3⟩
  · intro r hr
    obtain ⟨r', hr', hw⟩ := hinv.keyed k (by simp)
    rw [hlast, hr] at hr'
    obtain rfl := Option.some.inj hr'
    rw [hw, hk]

end Sys2Proof.Machine
end

