-- ==== Sys2Proof/Laws/Codes.lean ====
section
/-!
SUPPORT. Walks through a tree in good order, and what CGEN's traversal and table hold: the path of every leaf.
-/

namespace Sys2Proof.Machine

/-! ### Walks -/

@[simp] theorem treeWalk_nil (nodes : List NodeRec) (i : Nat) : treeWalk nodes i [] = some i := rfl

theorem treeWalk_append (nodes : List NodeRec) (i : Nat) (p q : Bits) :
    treeWalk nodes i (p ++ q) = (treeWalk nodes i p).bind fun j => treeWalk nodes j q := by
  induction p generalizing i with
  | nil => rfl
  | cons b bs ih =>
    simp only [List.cons_append, treeWalk]
    cases nodes[i]? with
    | none => rfl
    | some r => cases hl : r.leaf <;> simp [hl, ih]

/-- The child of an inner record that a bit leads to (R153). -/
def NodeRec.child (r : NodeRec) (b : Bool) : Idx := if b then r.right else r.left

/-- One step of a walk. -/
theorem treeWalk_cons_eq_some {nodes : List NodeRec} {i j : Nat} {b : Bool} {bs : Bits} :
    treeWalk nodes i (b :: bs) = some j ↔
      ∃ r, nodes[i]? = some r ∧ r.leaf = false ∧ treeWalk nodes (r.child b).toNat bs = some j := by
  simp only [treeWalk, NodeRec.child]
  cases nodes[i]? with
  | none => simp
  | some r => cases hl : r.leaf <;> simp [hl]

theorem treeWalk_snoc_eq_some {nodes : List NodeRec} {i j : Nat} {b : Bool} {bs : Bits} :
    treeWalk nodes i (bs ++ [b]) = some j ↔
      ∃ k r, treeWalk nodes i bs = some k ∧ nodes[k]? = some r ∧ r.leaf = false ∧ (r.child b).toNat = j := by
  rw [treeWalk_append]
  cases treeWalk nodes i bs with
  | none => simp
  | some k => simp [treeWalk_cons_eq_some]

/-- A walk cannot go on from a leaf. -/
theorem treeWalk_from_leaf {nodes : List NodeRec} {i j : Nat} {x : Sym} {bs : Bits} (h : IsLeafOf nodes i x)
    (hw : treeWalk nodes i bs = some j) : bs = [] := by
  cases bs with
  | nil => rfl
  | cons b bs =>
    obtain ⟨r, hr, hl, -⟩ := h
    obtain ⟨r', hr', hl', -⟩ := treeWalk_cons_eq_some.1 hw
    rw [hr] at hr'
    obtain rfl := Option.some.inj hr'
    rw [hl] at hl'; cases hl'

theorem not_inner_of_leaf {nodes : List NodeRec} {i : Nat} {x : Sym} (h : IsLeafOf nodes i x) : ¬ IsInner nodes i := by
  rintro ⟨r, hr, hl⟩
  obtain ⟨r', hr', hl', -⟩ := h
  rw [hr] at hr'
  obtain rfl := Option.some.inj hr'
  rw [hl] at hl'; cases hl'

/-! ### Trees in good order -/

section Tree
variable {f : Vector Weight 128} {opt : Bool} {nodes : List NodeRec} {nleaf : Nat}

theorem TreeOk.length_pos (h : TreeOk f opt nodes nleaf) : 1 ≤ nodes.length := by
  have := h.leafCount; have := h.nodeCount; omega

/-- A record is a leaf exactly at the indices below `nleaf`. -/
theorem TreeOk.leaf_iff (h : TreeOk f opt nodes nleaf) {i : Nat} {r : NodeRec} (hr : nodes[i]? = some r) :
    r.leaf = true ↔ i < nleaf := by
  constructor
  · intro hl
    by_contra hi
    have := (h.inner i r hr (by omega)).1
    rw [hl] at this; cases this
  · intro hi; exact (h.leaves i r hr hi).1

theorem TreeOk.inner_of_not_leaf (h : TreeOk f opt nodes nleaf) {i : Nat} {r : NodeRec} (hr : nodes[i]? = some r)
    (hl : r.leaf = false) :
    nleaf ≤ i ∧ r.left.toNat < i ∧ r.right.toNat < i ∧ r.left ≠ r.right := by
  have hi : nleaf ≤ i := by
    by_contra hi
    have := (h.leaf_iff hr).2 (by omega)
    rw [hl] at this; cases this
  obtain ⟨-, -, h1, h2, h3⟩ := h.inner i r hr hi
  exact ⟨hi, h1, h2, h3⟩

theorem TreeOk.child_lt (h : TreeOk f opt nodes nleaf) {i : Nat} {r : NodeRec} (hr : nodes[i]? = some r)
    (hl : r.leaf = false) (b : Bool) : (r.child b).toNat < i := by
  obtain ⟨-, h1, h2, -⟩ := h.inner_of_not_leaf hr hl
  cases b
  · exact h1
  · exact h2

/-- Every leaf record is the leaf of a symbol. -/
theorem TreeOk.leafSym (h : TreeOk f opt nodes nleaf) {i : Nat} {r : NodeRec} (hr : nodes[i]? = some r)
    (hl : r.leaf = true) : ∃ x : Sym, r.sym = x.setWidth 8 ∧ r.leafSym = some x := by
  obtain ⟨-, -, -, x, hx, -⟩ := h.leaves i r hr ((h.leaf_iff hr).1 hl)
  exact ⟨x, hx, by simp [NodeRec.leafSym, hl, hx]⟩

/-- Every node is a leaf of a symbol or an inner node. -/
theorem TreeOk.leaf_or_inner (h : TreeOk f opt nodes nleaf) {i : Nat} (hi : i < nodes.length) :
    (∃ x, IsLeafOf nodes i x) ∨ IsInner nodes i := by
  have hr := List.getElem?_eq_getElem hi
  cases hl : nodes[i].leaf with
  | true =>
    obtain ⟨x, hx, -⟩ := h.leafSym hr hl
    exact .inl ⟨x, _, hr, hl, hx⟩
  | false => exact .inr ⟨_, hr, hl⟩

/-- A symbol has at most one leaf. -/
theorem TreeOk.leaf_unique (h : TreeOk f opt nodes nleaf) {i j : Nat} {x : Sym} (hi : IsLeafOf nodes i x)
    (hj : IsLeafOf nodes j x) : i = j := by
  obtain ⟨ri, hri, hli, hsi⟩ := hi
  obtain ⟨rj, hrj, hlj, hsj⟩ := hj
  have hi' := (h.leaf_iff hri).1 hli
  have hj' := (h.leaf_iff hrj).1 hlj
  rcases Nat.lt_trichotomy i j with hlt | heq | hlt
  · have := h.ascending i j ri rj hri hrj hlt hj'
    rw [hsi, hsj] at this; exact absurd this (by simp)
  · exact heq
  · have := h.ascending j i rj ri hrj hri hlt hi'
    rw [hsi, hsj] at this; exact absurd this (by simp)

/-- A walk stays among the records. -/
theorem TreeOk.walk_lt (h : TreeOk f opt nodes nleaf) {i j : Nat} {bs : Bits} (hi : i < nodes.length)
    (hw : treeWalk nodes i bs = some j) : j ≤ i ∧ (bs ≠ [] → j < i) := by
  induction bs generalizing i with
  | nil => simp at hw; subst hw; simp
  | cons b bs ih =>
    obtain ⟨r, hr, hl, hw⟩ := treeWalk_cons_eq_some.1 hw
    have hc := h.child_lt hr hl b
    have := (ih (by omega) hw).1
    exact ⟨by omega, fun _ => by omega⟩

/-- R124: the length of a walk is bounded by the number of internal nodes not above its start. -/
theorem TreeOk.walk_length (h : TreeOk f opt nodes nleaf) {i j : Nat} {bs : Bits}
    (hw : treeWalk nodes i bs = some j) : bs.length ≤ i + 1 - nleaf := by
  induction bs generalizing i with
  | nil => simp
  | cons b bs ih =>
    obtain ⟨r, hr, hl, hw⟩ := treeWalk_cons_eq_some.1 hw
    have hc := h.child_lt hr hl b
    have := ih hw
    have hi := (h.inner_of_not_leaf hr hl).1
    simp only [List.length_cons]
    omega

theorem TreeOk.children_nodup (h : TreeOk f opt nodes nleaf) : (childIdxs nodes).Nodup := by
  rw [List.nodup_iff_count_le_one]
  intro j
  by_cases hj : j < nodes.length
  · rw [h.oneParent j hj]; split <;> omega
  · rw [List.count_eq_zero.2]
    · omega
    · intro hc
      simp only [childIdxs, List.mem_flatMap] at hc
      obtain ⟨r, hr, hc⟩ := hc
      obtain ⟨i, hi, rfl⟩ := List.mem_iff_getElem.1 hr
      cases hl : nodes[i].leaf with
      | true => simp [hl] at hc
      | false =>
        obtain ⟨-, h1, h2, -⟩ := h.inner_of_not_leaf (List.getElem?_eq_getElem hi) hl
        simp [hl] at hc
        omega

/-- R23 (c): an inner record and a side are determined by the child there. -/
theorem TreeOk.parent_unique (h : TreeOk f opt nodes nleaf) {i i' : Nat} {r r' : NodeRec} {b b' : Bool}
    (hr : nodes[i]? = some r) (hl : r.leaf = false) (hr' : nodes[i']? = some r') (hl' : r'.leaf = false)
    (hc : r.child b = r'.child b') : i = i' ∧ b = b' := by
  have hnd := h.children_nodup
  rw [childIdxs, List.nodup_flatMap] at hnd
  have hpw := List.pairwise_iff_getElem.1 hnd.2
  obtain ⟨hi, rfl⟩ := List.getElem?_eq_some_iff.1 hr
  obtain ⟨hi', rfl⟩ := List.getElem?_eq_some_iff.1 hr'
  have hmem : ∀ (k : Nat) (hk : k < nodes.length) (c : Bool), nodes[k].leaf = false →
      (nodes[k].child c).toNat ∈ (if nodes[k].leaf = true then [] else [nodes[k].left.toNat, nodes[k].right.toNat]) := by
    intro k hk c hkl
    cases c <;> simp [hkl, NodeRec.child]
  have hii : i = i' := by
    rcases Nat.lt_trichotomy i i' with hlt | heq | hlt
    · exact absurd (hpw i i' hi hi' hlt) (fun hd => hd (hmem i hi b hl) (hc ▸ hmem i' hi' b' hl'))
    · exact heq
    · exact absurd (hpw i' i hi' hi hlt) (fun hd => hd (hmem i' hi' b' hl') (hc ▸ hmem i hi b hl))
  subst hii
  refine ⟨rfl, ?_⟩
  have hne := (h.inner_of_not_leaf hr hl).2.2.2
  cases b <;> cases b' <;> simp [NodeRec.child] at hc
  · rfl
  · exact absurd hc hne
  · exact absurd hc.symm hne
  · rfl

/-- Every node but the root is the child of an inner record. -/
theorem TreeOk.parent_exists (h : TreeOk f opt nodes nleaf) {j : Nat} (hj : j + 1 < nodes.length) :
    ∃ (i : Nat) (r : NodeRec) (b : Bool), nodes[i]? = some r ∧ r.leaf = false ∧ (r.child b).toNat = j := by
  have hcount := h.oneParent j (by omega)
  rw [if_neg (by omega)] at hcount
  have hmem : j ∈ childIdxs nodes := by
    rw [← List.count_pos_iff]; omega
  simp only [childIdxs, List.mem_flatMap] at hmem
  obtain ⟨r, hr, hc⟩ := hmem
  obtain ⟨i, hi, rfl⟩ := List.mem_iff_getElem.1 hr
  cases hl : nodes[i].leaf with
  | true => simp [hl] at hc
  | false =>
    simp [hl] at hc
    rcases hc with rfl | rfl
    · exact ⟨i, _, false, List.getElem?_eq_getElem hi, hl, rfl⟩
    · exact ⟨i, _, true, List.getElem?_eq_getElem hi, hl, rfl⟩

/-- Every node is reached from the root. -/
theorem TreeOk.reachable (h : TreeOk f opt nodes nleaf) {j : Nat} (hj : j < nodes.length) :
    ∃ bits, treeWalk nodes (nodes.length - 1) bits = some j := by
  obtain ⟨m, hm⟩ : ∃ m, m = nodes.length - 1 - j := ⟨_, rfl⟩
  induction m using Nat.strong_induction_on generalizing j with
  | _ m ih =>
    by_cases hroot : j + 1 = nodes.length
    · exact ⟨[], by rw [treeWalk_nil]; congr 1; omega⟩
    · obtain ⟨i, r, b, hr, hl, hc⟩ := h.parent_exists (j := j) (by omega)
      have hlt := h.child_lt hr hl b
      have hi := getElem?_lt hr
      obtain ⟨bits, hb⟩ := ih (nodes.length - 1 - i) (by omega) hi rfl
      exact ⟨bits ++ [b], treeWalk_snoc_eq_some.2 ⟨i, r, hb, hr, hl, hc⟩⟩

/-- The path from the root to a node is unique. -/
theorem TreeOk.path_unique (h : TreeOk f opt nodes nleaf) {j : Nat} {p q : Bits}
    (hp : treeWalk nodes (nodes.length - 1) p = some j) (hq : treeWalk nodes (nodes.length - 1) q = some j) :
    p = q := by
  have hpos := h.length_pos
  obtain ⟨n, hn⟩ : ∃ n, n = p.length := ⟨_, rfl⟩
  induction n generalizing j p q with
  | zero =>
    obtain rfl := List.length_eq_zero_iff.1 hn.symm
    rw [treeWalk_nil] at hp
    by_contra hne
    have := (h.walk_lt (by omega) hq).2 (fun he => hne he.symm)
    have := Option.some.inj hp
    omega
  | succ n ih =>
    rcases List.eq_nil_or_concat p with rfl | ⟨p', b, rfl⟩
    · simp at hn
    rw [List.concat_eq_append] at hp hn ⊢
    rcases List.eq_nil_or_concat q with rfl | ⟨q', b', rfl⟩
    · rw [treeWalk_nil] at hq
      have := (h.walk_lt (by omega) hp).2 (by simp)
      have := Option.some.inj hq
      omega
    rw [List.concat_eq_append] at hq ⊢
    obtain ⟨k, r, hk, hr, hl, hc⟩ := treeWalk_snoc_eq_some.1 hp
    obtain ⟨k', r', hk', hr', hl', hc'⟩ := treeWalk_snoc_eq_some.1 hq
    obtain ⟨rfl, rfl⟩ := h.parent_unique hr hl hr' hl' (BitVec.eq_of_toNat_eq (hc.trans hc'.symm))
    have hlen : n = p'.length := by simpa using hn
    rw [ih hk hk' hlen]

/-! ### CGEN's traversal (R120, R121) -/

/-- `visit` answers exactly the leaves beneath a node, each with its path. -/
theorem TreeOk.visit_spec (h : TreeOk f opt nodes nleaf) {fuel : Nat} {i : Idx} (path : Bits) (hi : i.toNat < fuel)
    (hlen : i.toNat < nodes.length) :
    ∃ l, visit nodes fuel i path = some l ∧
      ∀ x p, (x, p) ∈ l ↔ ∃ bits j, p = path ++ bits ∧ treeWalk nodes i.toNat bits = some j ∧ IsLeafOf nodes j x := by
  induction fuel generalizing i path with
  | zero => omega
  | succ fuel ih =>
    have hr := List.getElem?_eq_getElem hlen
    generalize nodes[i.toNat] = r at hr
    cases hl : r.leaf with
    | true =>
      obtain ⟨x, hx, hs⟩ := h.leafSym hr hl
      refine ⟨[(x, path)], by simp [visit, hr, hl, hs], fun y p => ?_⟩
      have hleaf : IsLeafOf nodes i.toNat x := ⟨r, hr, hl, hx⟩
      simp only [List.mem_singleton, Prod.mk.injEq]
      constructor
      · rintro ⟨rfl, rfl⟩; exact ⟨[], i.toNat, by simp, rfl, hleaf⟩
      · rintro ⟨bits, j, rfl, hw, hj⟩
        obtain rfl := treeWalk_from_leaf hleaf hw
        obtain rfl := Option.some.inj hw
        obtain ⟨r', hr', -, hs'⟩ := hj
        rw [hr] at hr'
        obtain rfl := Option.some.inj hr'
        exact ⟨setWidth_sym_inj (hs'.symm.trans hx), by simp⟩
    | false =>
      have hc := fun b => h.child_lt hr hl b
      obtain ⟨l, hl1, hl2⟩ := ih (path ++ [false]) (i := r.child false) (by have := hc false; omega)
        (by have := hc false; omega)
      obtain ⟨t, ht1, ht2⟩ := ih (path ++ [true]) (i := r.child true) (by have := hc true; omega)
        (by have := hc true; omega)
      have hl1' : visit nodes fuel r.left (path ++ [false]) = some l := hl1
      have ht1' : visit nodes fuel r.right (path ++ [true]) = some t := ht1
      refine ⟨l ++ t, by simp [visit, hr, hl, hl1', ht1'], fun x p => ?_⟩
      rw [List.mem_append, hl2, ht2]
      constructor
      · rintro (⟨bits, j, rfl, hw, hj⟩ | ⟨bits, j, rfl, hw, hj⟩)
        · exact ⟨false :: bits, j, by simp, treeWalk_cons_eq_some.2 ⟨r, hr, hl, hw⟩, hj⟩
        · exact ⟨true :: bits, j, by simp, treeWalk_cons_eq_some.2 ⟨r, hr, hl, hw⟩, hj⟩
      · rintro ⟨bits, j, rfl, hw, hj⟩
        cases bits with
        | nil =>
          obtain rfl := Option.some.inj hw
          exact absurd ⟨r, hr, hl⟩ (not_inner_of_leaf hj)
        | cons b bits =>
          obtain ⟨r', hr', -, hw⟩ := treeWalk_cons_eq_some.1 hw
          rw [hr] at hr'
          obtain rfl := Option.some.inj hr'
          cases b
          · exact .inl ⟨bits, j, by simp, hw, hj⟩
          · exact .inr ⟨bits, j, by simp, hw, hj⟩

/-- `leafCodes` answers exactly the codes of R121 and R122. -/
theorem TreeOk.leafCodes_spec (h : TreeOk f opt nodes nleaf) {root : Idx} (hroot : root.toNat + 1 = nodes.length) :
    ∃ l, leafCodes nodes root = some l ∧ ∀ x p, (x, p) ∈ l ↔ IsCodeOf nodes root.toNat x p := by
  have hlen : root.toNat < nodes.length := by omega
  have hr := List.getElem?_eq_getElem hlen
  generalize nodes[root.toNat] = r at hr
  cases hl : r.leaf with
  | true =>
    obtain ⟨x, hx, hs⟩ := h.leafSym hr hl
    have hleaf : IsLeafOf nodes root.toNat x := ⟨r, hr, hl, hx⟩
    refine ⟨[(x, degenerateCode)], by simp [leafCodes, hr, hl, hs], fun y p => ?_⟩
    simp only [List.mem_singleton, Prod.mk.injEq, IsCodeOf, degenerateCode]
    constructor
    · rintro ⟨rfl, rfl⟩; exact .inl ⟨hleaf, rfl⟩
    · rintro (⟨⟨r', hr', -, hs'⟩, rfl⟩ | ⟨hin, -⟩)
      · rw [hr] at hr'
        obtain rfl := Option.some.inj hr'
        exact ⟨setWidth_sym_inj (hs'.symm.trans hx), rfl⟩
      · exact absurd hin (not_inner_of_leaf hleaf)
  | false =>
    obtain ⟨l, hl1, hl2⟩ := h.visit_spec [] (fuel := nodes.length) (i := root) hlen hlen
    refine ⟨l, by simp [leafCodes, hr, hl, hl1], fun x p => ?_⟩
    rw [hl2]
    have hin : IsInner nodes root.toNat := ⟨r, hr, hl⟩
    constructor
    · rintro ⟨bits, j, rfl, hw, hj⟩; exact .inr ⟨hin, j, by simpa using hw, hj⟩
    · rintro (⟨hleaf, -⟩ | ⟨-, j, hw, hj⟩)
      · exact absurd hin (not_inner_of_leaf hleaf)
      · exact ⟨p, j, by simp, hw, hj⟩

end Tree

/-! ### The table (R120, R126) -/

/-- An entry of the table is the code of one of the pairs of its symbol, or empty where there is none. -/
theorem codeTable_spec (l : List (Sym × Bits)) (x : Sym) :
    (x, symGet (codeTable l) x) ∈ l ∨ ((∀ p, (x, p) ∉ l) ∧ symGet (codeTable l) x = []) := by
  unfold codeTable
  suffices hgen : ∀ (t : Vector Bits 128),
      (x, symGet (l.foldl (fun t p => symSet t p.1 p.2) t) x) ∈ l ∨
        ((∀ p, (x, p) ∉ l) ∧ symGet (l.foldl (fun t p => symSet t p.1 p.2) t) x = symGet t x) by
    simpa using hgen (Vector.replicate 128 [])
  induction l with
  | nil => intro t; exact .inr ⟨by simp, rfl⟩
  | cons a l ih =>
    intro t
    rw [List.foldl_cons]
    rcases ih (symSet t a.1 a.2) with hm | ⟨hn, he⟩
    · exact .inl (List.mem_cons_of_mem _ hm)
    · by_cases hax : a.1 = x
      · left
        rw [he, ← hax, symGet_symSet_same]
        exact List.mem_cons_self
      · right
        refine ⟨fun p hp => ?_, by rw [he, symGet_symSet_ne _ _ hax]⟩
        rcases List.mem_cons.1 hp with hpa | hpl
        · exact hax (congrArg Prod.fst hpa).symm
        · exact hn p hpl

section Tree
variable {f : Vector Weight 128} {opt : Bool} {nodes : List NodeRec} {nleaf : Nat}

/-- R121: a symbol has at most one code. -/
theorem TreeOk.code_unique (h : TreeOk f opt nodes nleaf) {root : Nat} (hroot : root + 1 = nodes.length) {x : Sym}
    {p q : Bits} (hp : IsCodeOf nodes root x p) (hq : IsCodeOf nodes root x q) : p = q := by
  have hr : root = nodes.length - 1 := by omega
  rcases hp with ⟨hlp, rfl⟩ | ⟨hip, i, hwi, hi⟩
  · rcases hq with ⟨-, rfl⟩ | ⟨hiq, -⟩
    · rfl
    · exact absurd hiq (not_inner_of_leaf hlp)
  · rcases hq with ⟨hlq, -⟩ | ⟨-, j, hwj, hj⟩
    · exact absurd hip (not_inner_of_leaf hlq)
    · obtain rfl := h.leaf_unique hi hj
      subst hr
      exact h.path_unique hwi hwj

/-- R121: every symbol with a leaf has a code. -/
theorem TreeOk.code_exists (h : TreeOk f opt nodes nleaf) {root : Nat} (hroot : root + 1 = nodes.length) {x : Sym}
    {i : Nat} (hi : IsLeafOf nodes i x) : ∃ p, IsCodeOf nodes root x p := by
  have hr : root = nodes.length - 1 := by omega
  have hlt : i < nodes.length := by
    obtain ⟨r, hr, -⟩ := hi; exact getElem?_lt hr
  rcases h.leaf_or_inner (show root < nodes.length by omega) with ⟨y, hy⟩ | hin
  · obtain ⟨bits, hb⟩ := h.reachable hlt
    rw [← hr] at hb
    obtain rfl := treeWalk_from_leaf hy hb
    obtain rfl := Option.some.inj hb
    exact ⟨[false], .inl ⟨hi, rfl⟩⟩
  · obtain ⟨bits, hb⟩ := h.reachable hlt
    rw [← hr] at hb
    exact ⟨bits, .inr ⟨hin, i, hb, hi⟩⟩

/-- A code leads to a leaf of its symbol, and has 1 to 127 bits (R24, R124). -/
theorem TreeOk.code_length (h : TreeOk f opt nodes nleaf) {root : Nat} (hroot : root + 1 = nodes.length) {x : Sym}
    {p : Bits} (hp : IsCodeOf nodes root x p) :
    (∃ i, IsLeafOf nodes i x) ∧ 1 ≤ p.length ∧ p.length ≤ 127 ∧ (2 ≤ nleaf → p.length ≤ nleaf - 1) := by
  have hn := h.nodeCount
  have hc := h.leafCount
  rcases hp with ⟨hl, rfl⟩ | ⟨hin, i, hw, hi⟩
  · exact ⟨⟨root, hl⟩, by simp, by simp, fun _ => by simp; omega⟩
  · have hlen := h.walk_length hw
    refine ⟨⟨i, hi⟩, ?_, by omega, fun _ => by omega⟩
    cases p with
    | nil =>
      obtain rfl := Option.some.inj hw
      exact absurd hin (not_inner_of_leaf hi)
    | cons b p => simp

/-- The table of the codes is in good order, and holds a symbol's code and no other (R120 to R122, R126). -/
theorem TreeOk.codeTable_spec (h : TreeOk f opt nodes nleaf) {root : Idx} (hroot : root.toNat + 1 = nodes.length) :
    ∃ l, leafCodes nodes root = some l ∧ CodesOk nodes root.toNat (codeTable l) ∧
      ∀ x bits, bits ≠ [] → (symGet (codeTable l) x = bits ↔ IsCodeOf nodes root.toNat x bits) := by
  obtain ⟨l, hl, hmem⟩ := h.leafCodes_spec hroot
  refine ⟨l, hl, ⟨fun x => ?_, fun x hx => ?_, fun x hx => ?_⟩, fun x bits hbits => ?_⟩
  · rcases Machine.codeTable_spec l x with hm | ⟨-, he⟩
    · exact (h.code_length hroot ((hmem _ _).1 hm)).2.2.1
    · rw [he]; simp
  · rcases Machine.codeTable_spec l x with hm | ⟨hn, -⟩
    · exact (hmem _ _).1 hm
    · obtain ⟨i, hi⟩ := hx
      obtain ⟨p, hp⟩ := h.code_exists hroot hi
      exact absurd ((hmem _ _).2 hp) (hn p)
  · rcases Machine.codeTable_spec l x with hm | ⟨-, he⟩
    · exact absurd (h.code_length hroot ((hmem _ _).1 hm)).1 hx
    · exact he
  · rcases Machine.codeTable_spec l x with hm | ⟨hn, he⟩
    · constructor
      · rintro rfl; exact (hmem _ _).1 hm
      · intro hc; exact h.code_unique hroot ((hmem _ _).1 hm) hc
    · constructor
      · rintro rfl; exact absurd he hbits
      · intro hc; exact absurd ((hmem _ _).2 hc) (hn bits)

end Tree

end Sys2Proof.Machine
end

