-- ==== Sys2Proof/Laws/Decode.lean ====
section
/-!
SUPPORT. The fields of a packed word, and when the decoder answers a command.
-/

namespace Sys2Proof

@[simp] theorem opField_packWord (op a : Byte) (d : BitVec 32) : opField (packWord op a d) = op := by
  unfold opField packWord
  ext i hi
  simp only [BitVec.getElem_extractLsb', BitVec.getLsbD_append]
  have h1 : ¬ (40 + i < 32) := by omega
  have h2 : ¬ (40 + i - 32 < 8) := by omega
  have h3 : 40 + i - 32 - 8 = i := by omega
  simp only [h1, h2, h3, if_false]
  exact BitVec.getLsbD_eq_getElem hi

@[simp] theorem aField_packWord (op a : Byte) (d : BitVec 32) : aField (packWord op a d) = a := by
  unfold aField packWord
  ext i hi
  simp only [BitVec.getElem_extractLsb', BitVec.getLsbD_append]
  have h1 : ¬ (32 + i < 32) := by omega
  have h3 : 32 + i - 32 = i := by omega
  simp only [h1, h3, hi, if_false, if_true]
  exact BitVec.getLsbD_eq_getElem hi

@[simp] theorem dField_packWord (op a : Byte) (d : BitVec 32) : dField (packWord op a d) = d := by
  unfold dField packWord
  ext i hi
  simp only [BitVec.getElem_extractLsb', BitVec.getLsbD_append, Nat.zero_add, hi, if_true]
  exact BitVec.getLsbD_eq_getElem hi

/-- A word is what its three fields say (R60). -/
theorem packWord_fields (w : CmdWord) : packWord (opField w) (aField w) (dField w) = w := by
  unfold opField aField dField packWord
  ext i hi
  simp only [BitVec.getElem_append, BitVec.getElem_extractLsb']
  split
  · simp [BitVec.getLsbD_eq_getElem hi]
  · split
    · rw [show 32 + (i - 32) = i by omega]; exact BitVec.getLsbD_eq_getElem hi
    · rw [show 40 + (i - 32 - 8) = i by omega]; exact BitVec.getLsbD_eq_getElem hi

theorem packWord_inj {op op' a a' : Byte} {d d' : BitVec 32} (h : packWord op a d = packWord op' a' d') :
    op = op' ∧ a = a' ∧ d = d' := by
  refine ⟨?_, ?_, ?_⟩
  · simpa using congrArg opField h
  · simpa using congrArg aField h
  · simpa using congrArg dField h

/-- The decoder answers `i` exactly where `i` is the word's candidate and its fields are in legal form. -/
theorem decode_ok_iff (w : CmdWord) (i : Instr) :
    decode w = .ok i ↔
      candidate (opField w) (aField w) (dField w) = some i ∧ wellFormed i (aField w) (dField w) = true := by
  unfold decode
  cases h : candidate (opField w) (aField w) (dField w) with
  | none => simp
  | some j =>
    dsimp only
    split
    · constructor
      · rintro h'; cases h'; exact ⟨rfl, ‹_›⟩
      · rintro ⟨h', _⟩; cases h'; rfl
    · rename_i hn
      constructor
      · intro h'; cases h'
      · rintro ⟨h', hw⟩; cases h'; exact absurd hw hn

/-- A candidate stands in its row of the opcode map. -/
theorem mem_opcodeRows_of_candidate {op a : Byte} {d : BitVec 32} {i : Instr} (h : candidate op a d = some i) :
    (op, i) ∈ opcodeRows a d := by
  obtain ⟨l, r, hl, -⟩ := List.lookup_eq_some_iff.1 h
  simp [hl]

/-- The candidate of an `op` value has that `op` value. -/
theorem candidate_opcode {op a : Byte} {d : BitVec 32} {i : Instr} (h : candidate op a d = some i) :
    i.opcode = op := by
  have hall : ∀ p ∈ opcodeRows a d, p.2.opcode = p.1 := by simp [opcodeRows, Instr.opcode]
  exact hall _ (mem_opcodeRows_of_candidate h)

/-- A command is the candidate of its own fields. -/
theorem candidate_self (i : Instr) : candidate i.opcode i.operandA i.operandD = some i := by
  cases i with
  | tbuild opt => cases opt <;> rfl
  | _ => rfl

end Sys2Proof
end

