-- ==== Sys2Proof/Laws/Encoder.lean ====
section
/-!
SUPPORT. What the packer does to a bit sequence: no bit is lost, reordered or invented, and at most seven are pending.
-/

namespace Sys2Proof.Machine

@[simp] theorem bits8_length (b : Byte) : (bits8 b).length = 8 := rfl

/-- R42: packing eight bits and expanding the byte gives the bits back. -/
theorem bits8_byteOf {bits : Bits} (h : bits.length = 8) : bits8 (byteOf bits) = bits := by
  obtain ⟨b7, b6, b5, b4, b3, b2, b1, b0, rfl⟩ : ∃ b7 b6 b5 b4 b3 b2 b1 b0, bits = [b7, b6, b5, b4, b3, b2, b1, b0] := by
    match bits, h with
    | [b7, b6, b5, b4, b3, b2, b1, b0], _ => exact ⟨b7, b6, b5, b4, b3, b2, b1, b0, rfl⟩
  revert b7 b6 b5 b4 b3 b2 b1 b0
  decide +kernel

/-- R42: expanding a byte and packing its bits gives the byte back. -/
theorem byteOf_bits8 : ∀ b : Byte, byteOf (bits8 b) = b := by decide +kernel

/-- The bits of the emitted bytes, in order. -/
theorem flatMap_bits8_length (bs : List Byte) : (bs.flatMap bits8).length = 8 * bs.length := by
  induction bs with
  | nil => rfl
  | cons b bs ih => simp [ih]; omega

/-- `push_bit` (R131): the bit goes behind the bits already held, which leave as whole bytes. -/
theorem pushBit_spec {p : Packer} (b : Bool) (h : p.pb.length ≤ 7) :
    (pushBit p b).pb.length = (p.pb.length + 1) % 8 ∧
      ∃ es, (pushBit p b).emitted = p.emitted ++ es ∧ es.flatMap bits8 ++ (pushBit p b).pb = p.pb ++ [b] := by
  unfold pushBit
  split
  · rename_i h8
    have h7 : p.pb.length = 7 := by simpa using h8
    refine ⟨by simp [h7], [byteOf (p.pb ++ [b])], rfl, ?_⟩
    simp [bits8_byteOf h8]
  · rename_i h8
    have h7 : p.pb.length ≠ 7 := by simpa using h8
    refine ⟨?_, [], by simp, by simp⟩
    simp; omega

/-- A whole code (R132, R135): the pending length modulo 8, and not a bit lost. -/
theorem pushBits_spec {p : Packer} (bits : Bits) (h : p.pb.length ≤ 7) :
    (pushBits p bits).pb.length = (p.pb.length + bits.length) % 8 ∧
      ∃ es, (pushBits p bits).emitted = p.emitted ++ es ∧
        es.flatMap bits8 ++ (pushBits p bits).pb = p.pb ++ bits := by
  induction bits generalizing p with
  | nil => exact ⟨by simp [pushBits]; omega, [], by simp [pushBits], by simp [pushBits]⟩
  | cons b bits ih =>
    obtain ⟨hl, es, he, hb⟩ := pushBit_spec b h
    obtain ⟨hl', es', he', hb'⟩ := ih (p := pushBit p b) (by omega)
    have hstep : pushBits p (b :: bits) = pushBits (pushBit p b) bits := rfl
    rw [hstep]
    refine ⟨by rw [hl', hl]; simp; omega, es ++ es', by rw [he', he]; simp, ?_⟩
    rw [List.flatMap_append, List.append_assoc, hb', ← List.append_assoc, hb]
    simp

/-- R134: zeros up to the next byte boundary, none at a boundary, and nothing is pending afterwards. -/
theorem padZeros_spec {fuel : Nat} {p : Packer} (h : p.pb.length ≤ 7) (hf : p.pb = [] ∨ 8 - p.pb.length ≤ fuel) :
    (padZeros fuel p).pb = [] ∧
      ∃ es, (padZeros fuel p).emitted = p.emitted ++ es ∧
        es.flatMap bits8 = p.pb ++ List.replicate ((8 - p.pb.length % 8) % 8) false := by
  induction fuel generalizing p with
  | zero =>
    have : p.pb = [] := by
      rcases hf with hf | hf
      · exact hf
      · omega
    exact ⟨this, [], by simp [padZeros], by simp [this]⟩
  | succ fuel ih =>
    unfold padZeros
    split
    · rename_i he
      exact ⟨he, [], by simp, by simp [he]⟩
    · rename_i hne
      have hpos : 0 < p.pb.length := List.length_pos_of_ne_nil hne
      have hf' : 8 - p.pb.length ≤ fuel + 1 := hf.resolve_left hne
      obtain ⟨hl, es, he, hb⟩ := pushBit_spec (p := p) false h
      obtain ⟨hnil, es', he', hb'⟩ := ih (p := pushBit p false) (by omega) (by
        by_cases h7 : p.pb.length = 7
        · left; apply List.eq_nil_of_length_eq_zero; rw [hl, h7]
        · right; omega)
      refine ⟨hnil, es ++ es', by rw [he', he]; simp, ?_⟩
      rw [List.flatMap_append, hb', ← List.append_assoc, hb, hl, List.append_assoc]
      congr 1
      rw [show ((8 - p.pb.length % 8) % 8) = ((8 - (p.pb.length + 1) % 8 % 8) % 8) + 1 by omega, List.replicate_succ]
      rfl

end Sys2Proof.Machine
end

