-- ==== Sys2Proof/Laws/Decoder.lean ====
section
/-!
SUPPORT. What DBYTE's loop does to a stream: in a tree with an inner root it emits the symbols whose codes the bits
spell, from wherever the cursor stands (R153, R29); in a degenerate tree every 0 is the lone symbol (R155).
-/

namespace Sys2Proof.Machine

section Tree
variable {f : Vector Weight 128} {opt : Bool} {nodes : List NodeRec} {nleaf : Nat}

/-- One bit at an inner node of a tree with an inner root. -/
theorem TreeOk.bitStep_inner (h : TreeOk f opt nodes nleaf) {root cur : Idx} {r : NodeRec}
    (hroot : IsInner nodes root.toNat) (hr : nodes[cur.toNat]? = some r) (hl : r.leaf = false) (b : Bool) :
    (∃ x, IsLeafOf nodes (r.child b).toNat x ∧ bitStep nodes root cur b = .symbol (x.setWidth 8) root) ∨
      (IsInner nodes (r.child b).toNat ∧ bitStep nodes root cur b = .inner (r.child b)) := by
  obtain ⟨rr, hrr, hrl⟩ := hroot
  have hlt := h.child_lt hr hl b
  have hcur := getElem?_lt hr
  have hc := List.getElem?_eq_getElem (show (r.child b).toNat < nodes.length by omega)
  generalize nodes[(r.child b).toNat] = c at hc
  have hstep : bitStep nodes root cur b = if c.leaf then .symbol c.sym root else .inner (r.child b) := by
    have hc' : nodes[(if b = true then r.right else r.left).toNat]? = some c := hc
    simp only [bitStep, hrr, hrl, hr, Bool.false_eq_true, if_false]
    rw [hc']
    rfl
  cases hcl : c.leaf with
  | true =>
    obtain ⟨x, hx, -⟩ := h.leafSym hc hcl
    exact .inl ⟨x, ⟨c, hc, hcl, hx⟩, by rw [hstep, hcl, hx]; rfl⟩
  | false => exact .inr ⟨⟨c, hc, hcl⟩, by rw [hstep, hcl]; rfl⟩

/-- Bits that end at an inner node emit nothing and leave the cursor there (R153). -/
theorem TreeOk.walkBits_inner (h : TreeOk f opt nodes nleaf) {root cur cur' : Idx} (hroot : IsInner nodes root.toNat)
    {bits : Bits} (hw : treeWalk nodes cur.toNat bits = some cur'.toNat) (hin : IsInner nodes cur'.toNat)
    (e : List Byte) : walkBits nodes root bits cur e = .more cur' e := by
  induction bits generalizing cur with
  | nil =>
    have : cur = cur' := BitVec.eq_of_toNat_eq (Option.some.inj hw)
    rw [this]; rfl
  | cons b bs ih =>
    obtain ⟨r, hr, hl, hw⟩ := treeWalk_cons_eq_some.1 hw
    rcases h.bitStep_inner hroot hr hl b with ⟨x, hx, -⟩ | ⟨-, hs⟩
    · obtain rfl := treeWalk_from_leaf hx hw
      rw [treeWalk_nil] at hw
      rw [Option.some.inj hw] at hx
      exact absurd hin (not_inner_of_leaf hx)
    · rw [walkBits, hs]
      exact ih hw

/-- Bits that end at a leaf emit its symbol and put the cursor back to the root, or end the decode (R153, R154). -/
theorem TreeOk.walkBits_leaf (h : TreeOk f opt nodes nleaf) {root cur : Idx} {j : Nat} {x : Sym}
    (hroot : IsInner nodes root.toNat) {bits : Bits} (hne : bits ≠ []) (hw : treeWalk nodes cur.toNat bits = some j)
    (hx : IsLeafOf nodes j x) (rest : Bits) (e : List Byte) :
    walkBits nodes root (bits ++ rest) cur e =
      if x = 0 then .done root e else walkBits nodes root rest root (e ++ [x.setWidth 8]) := by
  induction bits generalizing cur with
  | nil => exact absurd rfl hne
  | cons b bs ih =>
    obtain ⟨r, hr, hl, hw⟩ := treeWalk_cons_eq_some.1 hw
    rcases h.bitStep_inner hroot hr hl b with ⟨y, hy, hs⟩ | ⟨hin, hs⟩
    · obtain rfl := treeWalk_from_leaf hy hw
      rw [treeWalk_nil] at hw
      rw [← Option.some.inj hw] at hx
      have hxy : x = y := by
        obtain ⟨r1, h1, -, s1⟩ := hx
        obtain ⟨r2, h2, -, s2⟩ := hy
        rw [h1] at h2
        obtain rfl := Option.some.inj h2
        exact setWidth_sym_inj (s1.symm.trans s2)
      subst hxy
      rw [List.cons_append, List.nil_append, walkBits, hs]
      have h0 : x.setWidth 8 = (0 : Byte) ↔ x = 0 := by
        constructor
        · intro he; exact setWidth_sym_inj (he.trans rfl)
        · rintro rfl; rfl
      by_cases hx0 : x = 0
      · simp [hx0]
      · have hx0' : ¬ (x.setWidth 8 = (0 : Byte)) := fun he => hx0 (h0.1 he)
        simp only [if_neg hx0, if_neg hx0']
    · have hbs : bs ≠ [] := by
        rintro rfl
        rw [treeWalk_nil] at hw
        rw [Option.some.inj hw] at hin
        exact absurd hin (not_inner_of_leaf hx)
      rw [List.cons_append, walkBits, hs]
      exact ih hbs hw

/-- A code at the front of the bits the decoder still holds: its part not yet consumed is not empty. -/
theorem TreeOk.split_code (_h : TreeOk f opt nodes nleaf) {root : Nat} {cur j : Nat} {x : Sym} {p c B R : Bits}
    (hp : treeWalk nodes root p = some cur) (hcur : IsInner nodes cur) (hc : treeWalk nodes root c = some j)
    (hj : IsLeafOf nodes j x) (he : p ++ B = c ++ R) :
    ∃ q, q ≠ [] ∧ c = p ++ q ∧ B = q ++ R ∧ treeWalk nodes cur q = some j := by
  rcases List.append_eq_append_iff.1 he with ⟨q, rfl, rfl⟩ | ⟨q, rfl, rfl⟩
  · rw [treeWalk_append, hp] at hc
    refine ⟨q, ?_, rfl, rfl, hc⟩
    rintro rfl
    obtain rfl := Option.some.inj hc
    exact absurd hcur (not_inner_of_leaf hj)
  · rw [treeWalk_append, hc] at hp
    obtain rfl := treeWalk_from_leaf hj hp
    obtain rfl := Option.some.inj hp
    exact absurd hcur (not_inner_of_leaf hj)

/-- The decoder on a stream of codes (R29, R153): with the path `p` to the cursor still held, the bits `B` emit exactly
the symbols whose codes `p ++ B` spells, and leave the rest held. -/
theorem TreeOk.walkBits_more (h : TreeOk f opt nodes nleaf) {root : Idx} (hroot : IsInner nodes root.toNat)
    {code : Sym → Bits} {cur cur' : Idx} (syms : List Sym) {p B rest : Bits} {e : List Byte}
    (hcode : ∀ x ∈ syms, IsCodeOf nodes root.toNat x (code x)) (hsent : ∀ x ∈ syms, x ≠ 0)
    (hp : treeWalk nodes root.toNat p = some cur.toNat) (hcur : IsInner nodes cur.toNat)
    (he : p ++ B = syms.flatMap code ++ rest) (hrest : treeWalk nodes root.toNat rest = some cur'.toNat)
    (hcur' : IsInner nodes cur'.toNat) :
    walkBits nodes root B cur e = .more cur' (e ++ syms.map (BitVec.setWidth 8)) := by
  induction syms generalizing p B cur e with
  | nil =>
    simp only [List.flatMap_nil, List.nil_append] at he
    rw [← he, treeWalk_append, hp] at hrest
    simpa using h.walkBits_inner hroot hrest hcur' e
  | cons x syms ih =>
    rcases hcode x (by simp) with ⟨hl, -⟩ | ⟨-, j, hj, hx⟩
    · exact absurd hroot (not_inner_of_leaf hl)
    rw [List.flatMap_cons, List.append_assoc] at he
    obtain ⟨q, hq, -, rfl, hw⟩ := h.split_code hp hcur hj hx he
    rw [h.walkBits_leaf hroot hq hw hx, if_neg (hsent x (by simp)),
      ih (p := []) (B := syms.flatMap code ++ rest) (cur := root) (fun y hy => hcode y (by simp [hy]))
        (fun y hy => hsent y (by simp [hy])) rfl hroot rfl]
    simp

/-- The same up to the sentinel (R154): it ends the decode, and what follows its code is not looked at (R157). -/
theorem TreeOk.walkBits_done (h : TreeOk f opt nodes nleaf) {root : Idx} (hroot : IsInner nodes root.toNat)
    {code : Sym → Bits} {cur : Idx} (syms : List Sym) {p B rest : Bits} {e : List Byte}
    (hcode : ∀ x ∈ syms, IsCodeOf nodes root.toNat x (code x)) (hsent : ∀ x ∈ syms, x ≠ 0)
    (hend : IsCodeOf nodes root.toNat 0 (code 0))
    (hp : treeWalk nodes root.toNat p = some cur.toNat) (hcur : IsInner nodes cur.toNat)
    (he : p ++ B = syms.flatMap code ++ (code 0 ++ rest)) :
    walkBits nodes root B cur e = .done root (e ++ syms.map (BitVec.setWidth 8)) := by
  induction syms generalizing p B cur e with
  | nil =>
    rcases hend with ⟨hl, -⟩ | ⟨-, j, hj, hx⟩
    · exact absurd hroot (not_inner_of_leaf hl)
    obtain ⟨q, hq, -, rfl, hw⟩ := h.split_code hp hcur hj hx he
    rw [h.walkBits_leaf hroot hq hw hx]
    simp
  | cons x syms ih =>
    rcases hcode x (by simp) with ⟨hl, -⟩ | ⟨-, j, hj, hx⟩
    · exact absurd hroot (not_inner_of_leaf hl)
    rw [List.flatMap_cons, List.append_assoc] at he
    obtain ⟨q, hq, -, rfl, hw⟩ := h.split_code hp hcur hj hx he
    rw [h.walkBits_leaf hroot hq hw hx, if_neg (hsent x (by simp)),
      ih (p := []) (B := syms.flatMap code ++ (code 0 ++ rest)) (cur := root) (fun y hy => hcode y (by simp [hy]))
        (fun y hy => hsent y (by simp [hy])) rfl hroot rfl]
    simp

/-- Whatever the bits, the walk through a tree in good order from an inner cursor ends at an inner cursor or at the
sentinel: no bit is illegal (R153), and at most one symbol is emitted per bit. -/
theorem TreeOk.walkBits_total (h : TreeOk f opt nodes nleaf) {root cur : Idx} (hroot : IsInner nodes root.toNat)
    (hcur : IsInner nodes cur.toNat) (bits : Bits) (e : List Byte) :
    ∃ syms : List Sym, syms.length ≤ bits.length ∧ (∀ x ∈ syms, x ≠ 0) ∧
      ((∃ cur', IsInner nodes cur'.toNat ∧
          walkBits nodes root bits cur e = .more cur' (e ++ syms.map (BitVec.setWidth 8))) ∨
        walkBits nodes root bits cur e = .done root (e ++ syms.map (BitVec.setWidth 8))) := by
  induction bits generalizing cur e with
  | nil => exact ⟨[], by simp, by simp, .inl ⟨cur, hcur, by simp [walkBits]⟩⟩
  | cons b bs ih =>
    obtain ⟨r, hr, hl⟩ := hcur
    rcases h.bitStep_inner hroot hr hl b with ⟨x, hx, hs⟩ | ⟨hin, hs⟩
    · by_cases hx0 : x = 0
      · refine ⟨[], by simp, by simp, .inr ?_⟩
        rw [walkBits, hs]; simp [hx0]
      · have hx0' : ¬ (x.setWidth 8 = (0 : Byte)) := fun he => hx0 (setWidth_sym_inj (he.trans rfl))
        obtain ⟨syms, hlen, hne, hcase⟩ := ih hroot (e ++ [x.setWidth 8])
        refine ⟨x :: syms, by simpa using hlen, by simp only [List.forall_mem_cons]; exact ⟨hx0, hne⟩, ?_⟩
        rw [walkBits, hs]
        simp only [if_neg hx0', List.map_cons]
        rw [show e ++ x.setWidth 8 :: syms.map (BitVec.setWidth 8) =
          e ++ [x.setWidth 8] ++ syms.map (BitVec.setWidth 8) by simp]
        exact hcase
    · obtain ⟨syms, hlen, hne, hcase⟩ := ih hin e
      refine ⟨syms, by simp; omega, hne, ?_⟩
      rw [walkBits, hs]
      exact hcase

end Tree

/-! ### The degenerate tree (R155) -/

section Degenerate
variable {nodes : List NodeRec} {root cur : Idx} {x : Sym}

theorem bitStep_lone (h : IsLeafOf nodes root.toNat x) (b : Bool) :
    bitStep nodes root cur b = if b then .bad else .symbol (x.setWidth 8) cur := by
  obtain ⟨r, hr, hl, hs⟩ := h
  simp [bitStep, hr, hl, hs]

/-- Zeros emit the lone symbol, if it is not the sentinel. -/
theorem walkBits_lone_zeros (h : IsLeafOf nodes root.toNat x) (hx : x ≠ 0) (k : Nat) (rest : Bits) (e : List Byte) :
    walkBits nodes root (List.replicate k false ++ rest) cur e =
      walkBits nodes root rest cur (e ++ List.replicate k (x.setWidth 8)) := by
  have hx' : ¬ (x.setWidth 8 = (0 : Byte)) := fun he => hx (setWidth_sym_inj (he.trans rfl))
  induction k generalizing e with
  | zero => simp
  | succ k ih =>
    rw [List.replicate_succ, List.cons_append, walkBits, bitStep_lone h]
    simp only [Bool.false_eq_true, if_false, if_neg hx']
    rw [ih, List.replicate_succ]
    simp

/-- A one is no code. -/
theorem walkBits_lone_one (h : IsLeafOf nodes root.toNat x) (rest : Bits) (e : List Byte) :
    walkBits nodes root (true :: rest) cur e = .badCode e := by
  rw [walkBits, bitStep_lone h]; rfl

/-- The lone sentinel ends the decode at the first zero. -/
theorem walkBits_lone_sentinel (h : IsLeafOf nodes root.toNat 0) (rest : Bits) (e : List Byte) :
    walkBits nodes root (false :: rest) cur e = .done cur e := by
  rw [walkBits, bitStep_lone h]; rfl

end Degenerate

/-! ### The loop over parts of a stream -/

/-- The loop over bits in two parts: the second part is walked where the first ends at a cursor, and not at all where
the first ends the command. -/
theorem walkBits_append (nodes : List NodeRec) (root : Idx) (B B' : Bits) (cur : Idx) (e : List Byte) :
    walkBits nodes root (B ++ B') cur e =
      match walkBits nodes root B cur e with
      | .more cur' e' => walkBits nodes root B' cur' e'
      | .done cur' e' => .done cur' e'
      | .badCode e' => .badCode e'
      | .corrupt => .corrupt := by
  induction B generalizing cur e with
  | nil => rfl
  | cons b B ih =>
    simp only [List.cons_append, walkBits]
    cases bitStep nodes root cur b with
    | inner c => exact ih c e
    | symbol x c =>
      dsimp only
      split
      · rfl
      · exact ih c _
    | bad => rfl
    | corrupt => rfl

/-- What was emitted before the loop only stands in front. -/
theorem walkBits_emitted (nodes : List NodeRec) (root : Idx) (B : Bits) (cur : Idx) (e e' : List Byte) :
    walkBits nodes root B cur (e ++ e') =
      match walkBits nodes root B cur e' with
      | .more c es => .more c (e ++ es)
      | .done c es => .done c (e ++ es)
      | .badCode es => .badCode (e ++ es)
      | .corrupt => .corrupt := by
  induction B generalizing cur e' with
  | nil => rfl
  | cons b B ih =>
    simp only [walkBits]
    cases bitStep nodes root cur b with
    | inner c => exact ih c e'
    | symbol x c =>
      dsimp only
      split
      · rfl
      · rw [List.append_assoc]; exact ih c _
    | bad => rfl
    | corrupt => rfl

/-- At most one symbol is emitted per bit. -/
theorem walkBits_emitted_length {nodes : List NodeRec} {root cur c : Idx} {B : Bits} {e e' : List Byte}
    (h : walkBits nodes root B cur e = .more c e' ∨ walkBits nodes root B cur e = .done c e') :
    e'.length ≤ e.length + B.length := by
  induction B generalizing cur e with
  | nil =>
    simp only [walkBits, WalkEnd.more.injEq, reduceCtorEq, or_false] at h
    simp [h.2]
  | cons b B ih =>
    simp only [walkBits] at h
    cases hs : bitStep nodes root cur b with
    | inner c' =>
      rw [hs] at h
      have := ih h
      simp only [List.length_cons]; omega
    | symbol x c' =>
      rw [hs] at h
      dsimp only at h
      split at h
      · simp only [reduceCtorEq, WalkEnd.done.injEq, false_or] at h
        rw [← h.2]; simp
      · have := ih h
        simp only [List.length_append, List.length_cons, List.length_nil] at this ⊢; omega
    | bad => simp [hs] at h
    | corrupt => simp [hs] at h

/-- The response data of DBYTE as a number: twice the count, plus `done` (R66). -/
theorem dbyteData_eq {count : Nat} (h : count ≤ 8) (done : Bool) :
    dbyteData count done = BitVec.ofNat 136 (2 * count + done.toNat) := by
  have hall : ∀ n ≤ 8, ∀ b, dbyteData n b = BitVec.ofNat 136 (2 * n + b.toNat) := by decide +kernel
  exact hall _ h done

/-- `done` is bit 0 of the response data of DBYTE (R66). -/
theorem dbyteData_done (count : Nat) (done : Bool) : (dbyteData count done).getLsbD 0 = done := by
  unfold dbyteData
  rw [BitVec.getLsbD_setWidth, BitVec.getLsbD_append]
  simp

end Sys2Proof.Machine
end

