-- ==== Sys2Proof/Laws/Exec.lean ====
section
/-!
SUPPORT. What a command can do, said once: it is refused, it faults, or it has its own effect. Every claim about a next
state starts from `exec_next_cases`.
-/

namespace Sys2Proof.Machine

/-- A command's own effect: from `s` it completes in `t`, with the conditions it completes under. -/
def Effect (i : Instr) (s t : State) : Prop :=
  match i with
  | .wclr => t = { s with
      w := some (Vector.replicate 128 0), n := none, c := none
      topt := false, nleaf := 0, nnode := 0, root := Config.nil, pb := [], dcur := Config.nil
      phase := .wOpen }.ok 0
  | .wcnt a => ∃ f, s.w = some f ∧ symGet f (maskedSym a) ≠ 0xFFFFFFFF ∧
      t = { s with w := some (symSet f (maskedSym a) (symGet f (maskedSym a) + 1)) }.ok 0
  | .wend => ∃ f, s.w = some f ∧ symGet f 0 ≠ 0xFFFFFFFF ∧
      t = { s with w := some (symSet f 0 (symGet f 0 + 1)), phase := .wReady }.ok 0
  | .wld a d => ∃ f x, s.w = some f ∧ symIndex a = some x ∧ t = { s with w := some (symSet f x d) }.ok 0
  | .wseal => t = { s with phase := .wReady }.ok 0
  | .wrd a => ∃ f x, s.w = some f ∧ symIndex a = some x ∧ t = s.ok ((symGet f x).setWidth 136)
  | .tbuild opt => ∃ f, s.w = some f ∧ allZero f = false ∧
      t = { s with
        n := some (buildTree f opt)
        nleaf := BitVec.ofNat 8 (seedLeaves f opt).length
        nnode := BitVec.ofNat 8 (buildTree f opt).length
        root := BitVec.ofNat 8 ((buildTree f opt).length - 1)
        topt := opt
        phase := .tReady }.ok 0
  | .trd a => ∃ nodes r, s.n = some nodes ∧ ¬ s.nnode ≤ a ∧ nodes[a.toNat]? = some r ∧ t = s.ok r.packed
  | .cgen => ∃ nodes codes, s.n = some nodes ∧ leafCodes nodes s.root = some codes ∧
      t = { s with c := some (codeTable codes), phase := .cReady }.ok 0
  | .crd a => ∃ tab x, s.c = some tab ∧ symIndex a = some x ∧ t = s.ok (packedCode (symGet tab x))
  | .estart => t = { s with pb := [], phase := .enc }.ok 0
  | .esym a => ∃ tab, s.c = some tab ∧ symGet tab (maskedSym a) ≠ [] ∧
      t = s.packed (pushBits ⟨s.pb, []⟩ (symGet tab (maskedSym a))) s.phase
  | .eend => ∃ tab, s.c = some tab ∧ symGet tab 0 ≠ [] ∧
      t = s.packed (padZeros 7 (pushBits ⟨s.pb, []⟩ (symGet tab 0))) .encDone
  | .dstart => t = { s with dcur := s.root, phase := .dec }.ok 0
  | .dbyte a => ∃ nodes cur emitted, s.n = some nodes ∧
      ((walkBits nodes s.root (bits8 a) s.dcur [] = .more cur emitted ∧
          t = ({ s with dcur := cur }.emit emitted).ok (dbyteData emitted.length false)) ∨
        (walkBits nodes s.root (bits8 a) s.dcur [] = .done cur emitted ∧
          t = ({ s with dcur := cur, phase := .decDone }.emit emitted).ok (dbyteData emitted.length true)))
  | .dend => s.phase = .decDone ∧ t = s.ok 0
  | .stat => t = s.ok s.statusWord
  | .srst => t = s.resetRegisters.ok 0

/-- A legal command raises `f` in a phase other than `FAULT`, having emitted `es`: the conditions of 60_exceptions.md
R180 and R181, command by command (R181's "attempt to read a store that holds no value" among them). -/
def Raises (i : Instr) (s : State) (f : Cause) (es : List Byte) : Prop :=
  match i with
  | .wclr | .wseal | .estart | .dstart | .stat | .srst => False
  | .wcnt a => es = [] ∧ ((s.w = none ∧ f = .badPhase) ∨
      ∃ g, s.w = some g ∧ symGet g (maskedSym a) = 0xFFFFFFFF ∧ f = .weightOverflow)
  | .wend => es = [] ∧ ((s.w = none ∧ f = .badPhase) ∨ ∃ g, s.w = some g ∧ symGet g 0 = 0xFFFFFFFF ∧ f = .weightOverflow)
  | .wld a _ | .wrd a => es = [] ∧ ((s.w = none ∧ f = .badPhase) ∨ (s.w.isSome ∧ 127 < a.toNat ∧ f = .operandRange))
  | .tbuild _ => es = [] ∧ ((s.w = none ∧ f = .badPhase) ∨ ∃ g, s.w = some g ∧ allZero g = true ∧ f = .allZero)
  | .trd a => es = [] ∧ ((s.n = none ∧ f = .badPhase) ∨ (s.n.isSome ∧ s.nnode ≤ a ∧ f = .operandRange))
  | .cgen => es = [] ∧ s.n = none ∧ f = .badPhase
  | .crd a => es = [] ∧ ((s.c = none ∧ f = .badPhase) ∨ (s.c.isSome ∧ 127 < a.toNat ∧ f = .operandRange))
  | .esym a => es = [] ∧ ((s.c = none ∧ f = .badPhase) ∨
      ∃ tab, s.c = some tab ∧ symGet tab (maskedSym a) = [] ∧ f = .noCode)
  | .eend => es = [] ∧ ((s.c = none ∧ f = .badPhase) ∨ ∃ tab, s.c = some tab ∧ symGet tab 0 = [] ∧ f = .noCode)
  | .dbyte a => (es = [] ∧ s.n = none ∧ f = .badPhase) ∨
      ∃ nodes, s.n = some nodes ∧ walkBits nodes s.root (bits8 a) s.dcur [] = .badCode es ∧ f = .badCode
  | .dend => es = [] ∧ s.phase = .dec ∧ f = .truncated

@[simp] theorem State.emit_nil (s : State) : s.emit [] = s := by simp [State.emit]

/-- Only `BAD_CODE` follows output of the same command (R185). -/
theorem Raises.emitted {i : Instr} {s : State} {f : Cause} {es : List Byte} (h : Raises i s f es) :
    es = [] ∨ (f = .badCode ∧ ∃ a, i = .dbyte a) := by
  cases i with
  | dbyte a => rcases h with ⟨he, -⟩ | ⟨_, -, -, hf⟩; exacts [.inl he, .inr ⟨hf, a, rfl⟩]
  | wclr | wseal | estart | dstart | stat | srst => exact absurd h id
  | _ => exact .inl h.1

/-- No command raises `ILLEGAL_CMD`; only words that are no command do (R63). -/
theorem Raises.ne_illegalCmd {i : Instr} {s : State} {f : Cause} {es : List Byte} (h : Raises i s f es) :
    f ≠ .illegalCmd := by
  rintro rfl
  cases i <;> simp [Raises] at h

theorem raise_next {f : Cause} {i : Instr} {s t : State} (h : raise f i s = .next t) :
    t = (s.emit []).takeFault f i.opcode i.operandA := by
  simp only [raise, Host.Outcome.next.injEq] at h
  simp [h]

/-- Everything a command can answer with a next state: refused in `FAULT`; `BAD_PHASE` where it is not legal; a fault of
its own; its own effect. -/
theorem exec_next_cases {i : Instr} {s t : State} (h : exec i s = .next t) :
    (s.phase = .fault ∧ i ≠ .stat ∧ i ≠ .srst ∧ t = s.refuse) ∨
    (s.phase ≠ .fault ∧ legalIn i s.phase = false ∧ t = s.takeFault .badPhase i.opcode i.operandA) ∨
    (s.phase ≠ .fault ∧ legalIn i s.phase = true ∧ ∃ f es, Raises i s f es ∧
      t = (s.emit es).takeFault f i.opcode i.operandA) ∨
    (legalIn i s.phase = true ∧ Effect i s t) := by
  -- the shared shape of the sixteen guarded commands
  have key : ∀ {body : Result}, i ≠ .stat → i ≠ .srst → guarded i s body = .next t →
      (legalIn i s.phase = true → body = .next t →
        (∃ f es, Raises i s f es ∧ t = (s.emit es).takeFault f i.opcode i.operandA) ∨ Effect i s t) →
      (s.phase = .fault ∧ i ≠ .stat ∧ i ≠ .srst ∧ t = s.refuse) ∨
      (s.phase ≠ .fault ∧ legalIn i s.phase = false ∧ t = s.takeFault .badPhase i.opcode i.operandA) ∨
      (s.phase ≠ .fault ∧ legalIn i s.phase = true ∧ ∃ f es, Raises i s f es ∧
        t = (s.emit es).takeFault f i.opcode i.operandA) ∨
      (legalIn i s.phase = true ∧ Effect i s t) := by
    intro body h1 h2 hg hb
    rcases guarded_cases hg with ⟨hf, he⟩ | ⟨hf, hl, he⟩ | ⟨hf, hl, he⟩
    · exact .inl ⟨hf, h1, h2, by simpa using he⟩
    · exact .inr (.inl ⟨hf, hl, by simpa [raise] using he⟩)
    · rcases hb hl he.symm with hr | hr
      · exact .inr (.inr (.inl ⟨hf, hl, hr⟩))
      · exact .inr (.inr (.inr ⟨hl, hr⟩))
  cases i with
  | wclr =>
    refine key (by simp) (by simp) h fun _ hb => .inr ?_
    simp only [Host.Outcome.next.injEq] at hb
    exact hb.symm
  | wcnt a =>
    refine key (by simp) (by simp) h fun _ hb => ?_
    unfold withStore countOne at hb
    split at hb
    · exact .inl ⟨_, _, ⟨rfl, .inl ⟨‹_›, rfl⟩⟩, raise_next hb⟩
    · beta_reduce at hb
      split at hb
      · exact .inl ⟨_, _, ⟨rfl, .inr ⟨_, ‹_›, ‹_›, rfl⟩⟩, raise_next hb⟩
      · simp only [Host.Outcome.next.injEq] at hb
        exact .inr ⟨_, ‹_›, ‹_›, hb.symm⟩
  | wend =>
    refine key (by simp) (by simp) h fun _ hb => ?_
    unfold withStore countOne at hb
    split at hb
    · exact .inl ⟨_, _, ⟨rfl, .inl ⟨‹_›, rfl⟩⟩, raise_next hb⟩
    · beta_reduce at hb
      split at hb
      · exact .inl ⟨_, _, ⟨rfl, .inr ⟨_, ‹_›, ‹_›, rfl⟩⟩, raise_next hb⟩
      · simp only [Host.Outcome.next.injEq] at hb
        exact .inr ⟨_, ‹_›, ‹_›, hb.symm⟩
  | wld a d =>
    refine key (by simp) (by simp) h fun _ hb => ?_
    unfold withStore withSymIndex at hb
    split at hb
    · exact .inl ⟨_, _, ⟨rfl, .inl ⟨‹_›, rfl⟩⟩, raise_next hb⟩
    · beta_reduce at hb
      split at hb
      · exact .inl ⟨_, _, ⟨rfl, .inr ⟨Option.isSome_of_eq_some ‹_›, symIndex_eq_none.1 ‹_›, rfl⟩⟩, raise_next hb⟩
      · simp only [Host.Outcome.next.injEq] at hb
        exact .inr ⟨_, _, ‹_›, ‹_›, hb.symm⟩
  | wseal =>
    refine key (by simp) (by simp) h fun _ hb => .inr ?_
    simp only [Host.Outcome.next.injEq] at hb
    exact hb.symm
  | wrd a =>
    refine key (by simp) (by simp) h fun _ hb => ?_
    unfold withStore withSymIndex at hb
    split at hb
    · exact .inl ⟨_, _, ⟨rfl, .inl ⟨‹_›, rfl⟩⟩, raise_next hb⟩
    · beta_reduce at hb
      split at hb
      · exact .inl ⟨_, _, ⟨rfl, .inr ⟨Option.isSome_of_eq_some ‹_›, symIndex_eq_none.1 ‹_›, rfl⟩⟩, raise_next hb⟩
      · simp only [Host.Outcome.next.injEq] at hb
        exact .inr ⟨_, _, ‹_›, ‹_›, hb.symm⟩
  | tbuild opt =>
    refine key (by simp) (by simp) h fun _ hb => ?_
    unfold withStore at hb
    split at hb
    · exact .inl ⟨_, _, ⟨rfl, .inl ⟨‹_›, rfl⟩⟩, raise_next hb⟩
    · beta_reduce at hb
      split at hb
      · exact .inl ⟨_, _, ⟨rfl, .inr ⟨_, ‹_›, ‹_›, rfl⟩⟩, raise_next hb⟩
      · rename_i hz
        simp only [Host.Outcome.next.injEq] at hb
        exact .inr ⟨_, ‹_›, by simpa using hz, hb.symm⟩
  | trd a =>
    refine key (by simp) (by simp) h fun _ hb => ?_
    unfold withStore withNodeIndex at hb
    split at hb
    · exact .inl ⟨_, _, ⟨rfl, .inl ⟨‹_›, rfl⟩⟩, raise_next hb⟩
    · beta_reduce at hb
      split at hb
      · exact .inl ⟨_, _, ⟨rfl, .inr ⟨Option.isSome_of_eq_some ‹_›, ‹_›, rfl⟩⟩, raise_next hb⟩
      · split at hb
        · cases hb
        · simp only [Host.Outcome.next.injEq] at hb
          exact .inr ⟨_, _, ‹_›, ‹_›, ‹_›, hb.symm⟩
  | cgen =>
    refine key (by simp) (by simp) h fun _ hb => ?_
    unfold withStore at hb
    split at hb
    · exact .inl ⟨_, _, ⟨rfl, ‹_›, rfl⟩, raise_next hb⟩
    · beta_reduce at hb
      split at hb
      · cases hb
      · simp only [Host.Outcome.next.injEq] at hb
        exact .inr ⟨_, _, ‹_›, ‹_›, hb.symm⟩
  | crd a =>
    refine key (by simp) (by simp) h fun _ hb => ?_
    unfold withStore withSymIndex at hb
    split at hb
    · exact .inl ⟨_, _, ⟨rfl, .inl ⟨‹_›, rfl⟩⟩, raise_next hb⟩
    · beta_reduce at hb
      split at hb
      · exact .inl ⟨_, _, ⟨rfl, .inr ⟨Option.isSome_of_eq_some ‹_›, symIndex_eq_none.1 ‹_›, rfl⟩⟩, raise_next hb⟩
      · simp only [Host.Outcome.next.injEq] at hb
        exact .inr ⟨_, _, ‹_›, ‹_›, hb.symm⟩
  | estart =>
    refine key (by simp) (by simp) h fun _ hb => .inr ?_
    simp only [Host.Outcome.next.injEq] at hb
    exact hb.symm
  | esym a =>
    refine key (by simp) (by simp) h fun _ hb => ?_
    unfold withStore withCode at hb
    split at hb
    · exact .inl ⟨_, _, ⟨rfl, .inl ⟨‹_›, rfl⟩⟩, raise_next hb⟩
    · beta_reduce at hb
      split at hb
      · exact .inl ⟨_, _, ⟨rfl, .inr ⟨_, ‹_›, ‹_›, rfl⟩⟩, raise_next hb⟩
      · simp only [Host.Outcome.next.injEq] at hb
        exact .inr ⟨_, ‹_›, ‹_›, hb.symm⟩
  | eend =>
    refine key (by simp) (by simp) h fun _ hb => ?_
    unfold withStore withCode at hb
    split at hb
    · exact .inl ⟨_, _, ⟨rfl, .inl ⟨‹_›, rfl⟩⟩, raise_next hb⟩
    · beta_reduce at hb
      split at hb
      · exact .inl ⟨_, _, ⟨rfl, .inr ⟨_, ‹_›, ‹_›, rfl⟩⟩, raise_next hb⟩
      · simp only [Host.Outcome.next.injEq] at hb
        exact .inr ⟨_, ‹_›, ‹_›, hb.symm⟩
  | dstart =>
    refine key (by simp) (by simp) h fun _ hb => .inr ?_
    simp only [Host.Outcome.next.injEq] at hb
    exact hb.symm
  | dbyte a =>
    refine key (by simp) (by simp) h fun _ hb => ?_
    unfold withStore at hb
    split at hb
    · exact .inl ⟨_, _, .inl ⟨rfl, ‹_›, rfl⟩, raise_next hb⟩
    · beta_reduce at hb
      split at hb
      · simp only [Host.Outcome.next.injEq] at hb
        exact .inr ⟨_, _, _, ‹_›, .inl ⟨‹_›, hb.symm⟩⟩
      · simp only [Host.Outcome.next.injEq] at hb
        exact .inr ⟨_, _, _, ‹_›, .inr ⟨‹_›, hb.symm⟩⟩
      · simp only [raise, Host.Outcome.next.injEq] at hb
        exact .inl ⟨_, _, .inr ⟨_, ‹_›, ‹_›, rfl⟩, hb.symm⟩
      · cases hb
  | dend =>
    refine key (by simp) (by simp) h fun hl hb => ?_
    split at hb
    · exact .inl ⟨_, _, ⟨rfl, ‹_›, rfl⟩, raise_next hb⟩
    · rename_i hne
      simp only [Host.Outcome.next.injEq] at hb
      refine .inr ⟨?_, hb.symm⟩
      simp only [legalIn, List.mem_cons, List.not_mem_nil, or_false, decide_eq_true_eq] at hl
      exact hl.resolve_left hne
  | stat =>
    simp only [exec, execStat, Host.Outcome.next.injEq] at h
    exact .inr (.inr (.inr ⟨rfl, h.symm⟩))
  | srst =>
    simp only [exec, execSrst, Host.Outcome.next.injEq] at h
    exact .inr (.inr (.inr ⟨rfl, h.symm⟩))

/-- In `FAULT` a command other than STAT and SRST is refused (R184). -/
theorem exec_in_fault {i : Instr} {s : State} (h : s.phase = .fault) (h1 : i ≠ .stat) (h2 : i ≠ .srst) :
    exec i s = .next s.refuse := by
  cases i with
  | stat => exact absurd rfl h1
  | srst => exact absurd rfl h2
  | _ => exact guarded_of_fault h _

/-- A command that is not legal in the phase raises `BAD_PHASE` (R173). -/
theorem exec_illegal {i : Instr} {s : State} (hf : s.phase ≠ .fault) (hl : legalIn i s.phase = false) :
    exec i s = .next (s.takeFault .badPhase i.opcode i.operandA) := by
  cases i with
  | stat => simp [legalIn] at hl
  | srst => simp [legalIn] at hl
  | _ => exact guarded_of_illegal hf hl _

/-- The columns of R173 and the guard's test say the same. -/
theorem mem_legalOps {i : Instr} {p : Phase} : i.opcode ∈ legalOps p ↔ legalIn i p = true := by
  cases i <;> cases p <;> simp [Instr.opcode, legalOps, legalIn]

/-- Everything an accepted word can answer with a next state: an illegal word is refused or faults, a legal one is
executed (R68). -/
theorem acceptWord_next_cases {w : CmdWord} {s t : State} (h : acceptWord w s = .next t) :
    (∃ i, decode w = .ok i ∧ exec i s = .next t) ∨
    (∃ e, decode w = .error e ∧ s.phase = .fault ∧ t = s.refuse) ∨
    (∃ e, decode w = .error e ∧ s.phase ≠ .fault ∧ t = s.takeFault .illegalCmd (opField w) (aField w)) := by
  unfold acceptWord at h
  cases hd : decode w with
  | ok i => rw [hd] at h; exact .inl ⟨i, rfl, h⟩
  | error e =>
    rw [hd] at h
    simp only [illegalWord] at h
    split at h
    · simp only [Host.Outcome.next.injEq] at h
      exact .inr (.inl ⟨e, rfl, ‹_›, h.symm⟩)
    · simp only [Host.Outcome.next.injEq] at h
      exact .inr (.inr ⟨e, rfl, ‹_›, h.symm⟩)

/-- Everything a step can answer with a next state: without an event nothing changes, else what the event asks. -/
theorem step_next_cases {s t : State} (h : step s = .next t) :
    (s.inputs = [] ∧ t = s) ∨
    (∃ w rest, s.inputs = .command w :: rest ∧ acceptWord w { s with inputs := rest } = .next t) ∨
    (∃ rest, s.inputs = .reset :: rest ∧ t = { s with inputs := rest }.resetRegisters) ∨
    (∃ w k rest u, s.inputs = .resetDuring w k :: rest ∧ acceptWord w { s with inputs := rest } = .next u ∧
      t = ({ { s with inputs := rest } with out := u.out.take (s.out.length + k) } : State).resetRegisters) := by
  unfold step at h
  cases hin : s.inputs with
  | nil => rw [hin] at h; simp only [Host.Outcome.next.injEq] at h; exact .inl ⟨rfl, h.symm⟩
  | cons e rest =>
    rw [hin] at h
    dsimp only at h
    cases e with
    | command w => exact .inr (.inl ⟨w, rest, rfl, h⟩)
    | reset =>
      simp only [handle, Host.Outcome.next.injEq] at h
      exact .inr (.inr (.inl ⟨rest, rfl, h.symm⟩))
    | resetDuring w k =>
      simp only [handle, abandon] at h
      split at h
      · rename_i u hu
        simp only [Host.Outcome.next.injEq] at h
        exact .inr (.inr (.inr ⟨w, k, rest, u, rfl, hu, h.symm⟩))
      · cases h
      · cases h

end Sys2Proof.Machine
end

