-- ==== Sys2Proof/Laws/Flags.lean ====
section
/-!
SUPPORT. The bits of the packed words: a bit sequence left-aligned in a word, and how to read a field of a packed word.
-/

namespace Sys2Proof.Machine

/-- The number a bit sequence spells, bit by bit. -/
theorem bitsVal_testBit (l : Bits) (j : Nat) :
    (l.foldl (fun (acc : Nat) (b : Bool) => 2 * acc + b.toNat) 0).testBit j =
      if j < l.length then l.getD (l.length - 1 - j) false else false := by
  induction l using List.reverseRecOn generalizing j with
  | nil => simp
  | append_singleton l b ih =>
    rw [List.foldl_concat]
    cases j with
    | zero => cases b <;> simp [Nat.testBit_zero, Nat.add_mod]
    | succ j =>
      have hdiv : ∀ n : Nat, (2 * n + b.toNat) / 2 = n := fun n => by cases b <;> (simp; try omega)
      rw [Nat.testBit_succ, hdiv, ih]
      simp only [List.length_append, List.length_cons, List.length_nil]
      by_cases hj : j < l.length
      · rw [if_pos hj, if_pos (by omega), List.getD_eq_getElem?_getD, List.getD_eq_getElem?_getD,
          List.getElem?_append_left (by omega), show l.length + (0 + 1) - 1 - (j + 1) = l.length - 1 - j by omega]
      · rw [if_neg hj, if_neg (by omega)]

/-- Left-aligned: bit `k` of the sequence stands `k` places below the top, and the places after it are 0 (R19, R125). -/
theorem leftAligned_getLsbD {width : Nat} {bits : Bits} (h : bits.length ≤ width) {k : Nat} (hk : k < width) :
    (leftAligned width bits).getLsbD (width - 1 - k) = bits.getD k false := by
  unfold leftAligned
  rw [BitVec.getLsbD_ofNat, Nat.testBit_mul_two_pow, bitsVal_testBit]
  rw [decide_eq_true (show width - 1 - k < width by omega), Bool.true_and]
  by_cases hb : k < bits.length
  · rw [decide_eq_true (show width - bits.length ≤ width - 1 - k by omega), if_pos (by omega), Bool.true_and,
      show bits.length - 1 - (width - 1 - k - (width - bits.length)) = k by omega]
  · rw [decide_eq_false (show ¬ width - bits.length ≤ width - 1 - k by omega), Bool.false_and,
      List.getD_eq_getElem?_getD, List.getElem?_eq_none (Nat.le_of_not_lt hb)]
    rfl

/-- A field of an appended word that lies in the low part. -/
theorem extractLsb'_append_low {n m : Nat} (x : BitVec n) (y : BitVec m) {k l : Nat} (h : k + l ≤ m) :
    (x ++ y).extractLsb' k l = y.extractLsb' k l := by
  ext i hi
  simp only [BitVec.getElem_extractLsb', BitVec.getLsbD_append]
  rw [if_pos (by omega)]

/-- A field of an appended word that lies in the high part. -/
theorem extractLsb'_append_high {n m : Nat} (x : BitVec n) (y : BitVec m) {k l : Nat} (h : m ≤ k) :
    (x ++ y).extractLsb' k l = x.extractLsb' (k - m) l := by
  ext i hi
  simp only [BitVec.getElem_extractLsb', BitVec.getLsbD_append]
  rw [if_neg (by omega), show k + i - m = k - m + i by omega]

/-- A field of a zero-extended word that lies in the word. -/
theorem extractLsb'_setWidth_low {n m : Nat} (x : BitVec n) {k l : Nat} (h : k + l ≤ n) (hnm : n ≤ m) :
    (x.setWidth m).extractLsb' k l = x.extractLsb' k l := by
  ext i hi
  simp only [BitVec.getElem_extractLsb', BitVec.getLsbD_setWidth]
  rw [decide_eq_true (show k + i < m by omega), Bool.true_and]

/-- The whole of a word as a field. -/
theorem extractLsb'_whole {n : Nat} (x : BitVec n) : x.extractLsb' 0 n = x := by
  ext i hi
  simp

end Sys2Proof.Machine
end

