-- ==== Sys2Proof/Laws/PerInstr.lean ====
section
/-!
SUPPORT. Per-instruction families (LAWS.json).
-/

namespace Sys2Proof.Laws

/-- The family `LegalFields`: the fields of a command's own word are in legal form (R62), and carry its `op` value. -/
def LegalFields.Statement (i : Instr) : Prop :=
  wellFormed i i.operandA i.operandD = true ∧ opField (encode i) = i.opcode

namespace LegalFields

theorem wclr : Statement .wclr := ⟨rfl, opField_packWord ..⟩
theorem wcnt (a : Byte) : Statement (.wcnt a) := ⟨rfl, opField_packWord ..⟩
theorem wend : Statement .wend := ⟨rfl, opField_packWord ..⟩
theorem wld (a : Byte) (d : Weight) : Statement (.wld a d) := ⟨rfl, opField_packWord ..⟩
theorem wseal : Statement .wseal := ⟨rfl, opField_packWord ..⟩
theorem wrd (a : Byte) : Statement (.wrd a) := ⟨rfl, opField_packWord ..⟩
theorem tbuild (opt : Bool) : Statement (.tbuild opt) := ⟨by cases opt <;> rfl, opField_packWord ..⟩
theorem trd (a : Byte) : Statement (.trd a) := ⟨rfl, opField_packWord ..⟩
theorem cgen : Statement .cgen := ⟨rfl, opField_packWord ..⟩
theorem crd (a : Byte) : Statement (.crd a) := ⟨rfl, opField_packWord ..⟩
theorem estart : Statement .estart := ⟨rfl, opField_packWord ..⟩
theorem esym (a : Byte) : Statement (.esym a) := ⟨rfl, opField_packWord ..⟩
theorem eend : Statement .eend := ⟨rfl, opField_packWord ..⟩
theorem dstart : Statement .dstart := ⟨rfl, opField_packWord ..⟩
theorem dbyte (a : Byte) : Statement (.dbyte a) := ⟨rfl, opField_packWord ..⟩
theorem dend : Statement .dend := ⟨rfl, opField_packWord ..⟩
theorem stat : Statement .stat := ⟨rfl, opField_packWord ..⟩
theorem srst : Statement .srst := ⟨rfl, opField_packWord ..⟩

end LegalFields

end Sys2Proof.Laws
end

