-- ==== Sys2Proof/Laws/Programs.lean ====
section
/-!
SUPPORT. What the host's programs do: sequences one after the other, sequences in `FAULT`, and the stop of DECODE.
-/

namespace Sys2Proof.Machine

@[simp] theorem andThen_next (s : State) (k : State → Result) : andThen (.next s) k = k s := rfl

theorem andThen_eq_next {r : Result} {k : State → Result} {t : State} :
    andThen r k = .next t ↔ ∃ s, r = .next s ∧ k s = .next t := by
  cases r <;> simp [andThen]

theorem andThen_assoc (r : Result) (k l : State → Result) :
    andThen (andThen r k) l = andThen r fun s => andThen (k s) l := by
  cases r <;> rfl

/-- A sequence runs after another (R50). -/
theorem runInstrs_append (l m : List Instr) (s : State) :
    runInstrs (l ++ m) s = andThen (runInstrs l s) (runInstrs m) := by
  induction l generalizing s with
  | nil => rfl
  | cons i l ih =>
    simp only [List.cons_append, runInstrs, andThen_assoc]
    congr 1
    exact funext ih

/-- In `FAULT` a sequence without STAT and SRST is answered `REFUSED` command by command and changes nothing (R184). -/
theorem runInstrs_in_fault {l : List Instr} (h : ∀ i ∈ l, i ≠ .stat ∧ i ≠ .srst) {s : State} (hf : s.phase = .fault) :
    runInstrs l s = .next { s with
      rsps := s.rsps ++ List.replicate l.length ⟨.refused, s.fcause.setWidth 136⟩ } := by
  induction l generalizing s with
  | nil => simp [runInstrs]
  | cons i l ih =>
    obtain ⟨⟨h1, h2⟩, hl⟩ := List.forall_mem_cons.1 h
    rw [runInstrs, exec_in_fault hf h1 h2, andThen_next, ih hl (by exact hf)]
    simp [State.refuse, State.respond, List.replicate_succ]

/-- In `FAULT` no byte is taken: each is answered `REFUSED`, so none answers `done` (R184). -/
theorem feedBytes_in_fault (y : List Byte) {s : State} (hf : s.phase = .fault) :
    feedBytes y s = .next { s with
      rsps := s.rsps ++ List.replicate y.length ⟨.refused, s.fcause.setWidth 136⟩ } := by
  induction y generalizing s with
  | nil => simp [feedBytes]
  | cons b y ih =>
    have hd : s.refuse.answeredDone = false := by simp [State.answeredDone, State.refuse, State.respond]
    rw [feedBytes, exec_in_fault hf (by simp) (by simp), andThen_next, hd, if_neg (by simp), ih (by exact hf)]
    simp [State.refuse, State.respond, List.replicate_succ]

@[simp] theorem answeredDone_ok (s : State) (d : RspData) : (s.ok d).answeredDone = d.getLsbD 0 := by
  simp [State.answeredDone, State.ok, State.respond]

@[simp] theorem answeredDone_takeFault (s : State) (f : Cause) (op a : Byte) :
    (s.takeFault f op a).answeredDone = false := by
  simp [State.answeredDone, State.takeFault, State.respond]

end Sys2Proof.Machine
end

