-- ==== Sys2Proof/Tests/Slice0.lean ====
section
/-!
SUPPORT. The model's own tests: the checks of WellFormed, words written out from the spec's encodings, one or two steps
per command with results from 95_test_vectors.md (named V<n> in the comments), and for every statement with hypotheses a
state and operands that meet them all.
-/

namespace Sys2Proof.Tests

set_option Elab.async false

open Sys2Proof.Machine

/-! ### WellFormed: every check, with a term it refuses (R62) -/

theorem test_bare_refuses_a : wellFormed .wclr 1 0 = false := by decide
theorem test_bare_refuses_d : wellFormed .cgen 0 1 = false := by decide
theorem test_stat_refuses_d : wellFormed .stat 0 1 = false := by decide
theorem test_srst_refuses_a : wellFormed .srst 1 0 = false := by decide
theorem test_byte_refuses_d : wellFormed (.wcnt 0) 0 1 = false := by decide
theorem test_byte_refuses_top_bit_of_d : wellFormed (.dbyte 0) 0 0x80000000 = false := by decide
theorem test_flag_refuses_a : wellFormed (.tbuild true) 1 1 = false := by decide
theorem test_flag_refuses_d1 : wellFormed (.tbuild false) 0 2 = false := by decide
theorem test_flag_accepts_both_flags : wellFormed (.tbuild false) 0 0 = true ∧ wellFormed (.tbuild true) 0 1 = true := by
  decide
theorem test_byteWord_accepts_all : wellFormed (.wld 0xFF 0xFFFFFFFF) 0xFF 0xFFFFFFFF = true := by decide

/-! ### Words written out from R60 and R61: op in bits 47 to 40, a in 39 to 32, d in 31 to 0 -/

theorem test_word_wclr : decode 0b00010000_00000000_00000000000000000000000000000000 = .ok .wclr := by decide
theorem test_word_wcnt : decode 0b00010001_11110100_00000000000000000000000000000000 = .ok (.wcnt 0xF4) := by decide
theorem test_word_wend : decode 0b00010010_00000000_00000000000000000000000000000000 = .ok .wend := by decide
theorem test_word_wld : decode 0b00010011_01110100_00000000000000000000000000000011 = .ok (.wld 0x74 3) := by decide
theorem test_word_wseal : decode 0b00010100_00000000_00000000000000000000000000000000 = .ok .wseal := by decide
theorem test_word_wrd : decode 0b00010101_01101000_00000000000000000000000000000000 = .ok (.wrd 0x68) := by decide
theorem test_word_tbuild0 : decode 0b00100000_00000000_00000000000000000000000000000000 = .ok (.tbuild false) := by decide
theorem test_word_tbuild1 : decode 0b00100000_00000000_00000000000000000000000000000001 = .ok (.tbuild true) := by decide
theorem test_word_trd : decode 0b00100001_00000110_00000000000000000000000000000000 = .ok (.trd 6) := by decide
theorem test_word_cgen : decode 0b00110000_00000000_00000000000000000000000000000000 = .ok .cgen := by decide
theorem test_word_crd : decode 0b00110001_01000011_00000000000000000000000000000000 = .ok (.crd 0x43) := by decide
theorem test_word_estart : decode 0b01000000_00000000_00000000000000000000000000000000 = .ok .estart := by decide
theorem test_word_esym : decode 0b01000001_10000000_00000000000000000000000000000000 = .ok (.esym 0x80) := by decide
theorem test_word_eend : decode 0b01000010_00000000_00000000000000000000000000000000 = .ok .eend := by decide
theorem test_word_dstart : decode 0b01010000_00000000_00000000000000000000000000000000 = .ok .dstart := by decide
theorem test_word_dbyte : decode 0b01010001_01110000_00000000000000000000000000000000 = .ok (.dbyte 0x70) := by decide
theorem test_word_dend : decode 0b01010010_00000000_00000000000000000000000000000000 = .ok .dend := by decide
theorem test_word_stat : decode 0b01100000_00000000_00000000000000000000000000000000 = .ok .stat := by decide
theorem test_word_srst : decode 0b01100001_00000000_00000000000000000000000000000000 = .ok .srst := by decide

/-- V50: every row of its table. -/
theorem test_illegal_words :
    decode 0x000000000000 = .error .undefinedOp ∧ decode 0x160000000000 = .error .undefinedOp ∧
    decode 0x620000000000 = .error .undefinedOp ∧ decode 0xFF0000000000 = .error .undefinedOp ∧
    decode 0x100100000000 = .error .unusedFieldNonzero ∧ decode 0x110000000001 = .error .unusedFieldNonzero ∧
    decode 0x200000000002 = .error .unusedFieldNonzero ∧ decode 0x200100000001 = .error .unusedFieldNonzero ∧
    decode 0x300000000001 = .error .unusedFieldNonzero ∧ decode 0x600000000001 = .error .unusedFieldNonzero ∧
    decode 0x610100000000 = .error .unusedFieldNonzero := by decide

/-- R70's example word, decoded and encoded. -/
theorem test_table_word :
    decodeTableWord 48 0x137400000003 = some (.wld 0x74 3) ∧ encode (.wld 0x74 3) = 0x137400000003 := by decide

/-! ### Small states -/

/-- The table that gives the listed symbols the listed weights and the others 0. -/
def weights (l : List (Sym × Weight)) : Vector Weight 128 :=
  l.foldl (fun t p => symSet t p.1 p.2) (Vector.replicate 128 0)

/-- A leaf, and an internal node, as the vectors write them. -/
def leaf (sym : Byte) (weight : NodeWeight) : NodeRec := ⟨true, sym, weight, 0xFF, 0xFF⟩

def int (weight : NodeWeight) (left right : Idx) : NodeRec := ⟨false, 0xFF, weight, left, right⟩

/-- A state with weights only. -/
def counted (l : List (Sym × Weight)) (p : Phase) : State := { State.reset with phase := p, w := some (weights l) }

/-- V11: the weights of "th". -/
def thWeights : Vector Weight 128 := weights [(0, 1), (0x68, 1), (0x74, 1)]

/-- V11: the tree of "th". -/
def thNodes : List NodeRec := [leaf 0 1, leaf 0x68 1, leaf 0x74 1, int 2 0 1, int 3 2 3]

/-- V11: the codes of "th". -/
def thCodes : Vector Bits 128 := codeTable [(0x74, [false]), (0, [true, false]), (0x68, [true, true])]

/-- V11, V40: the call on "th" in each phase from `T_READY` on. -/
def thState (p : Phase) : State :=
  { State.reset with
    phase := p, w := some thWeights, n := some thNodes, c := if p = .tReady then none else some thCodes
    topt := true, nleaf := 3, nnode := 5, root := 4, dcur := if p = .dec ∨ p = .decDone then 4 else 0xFF }

/-- V13, V24: the call on one lone symbol. -/
def loneState (x : Sym) (weight : Weight) (p : Phase) : State :=
  { State.reset with
    phase := p, w := some (weights [(x, weight)]), n := some [leaf (x.setWidth 8) (weight.setWidth 39)]
    c := if p = .tReady then none else some (codeTable [(x, [false])]), topt := true, nleaf := 1, nnode := 1, root := 0
    dcur := if p = .dec ∨ p = .decDone then 0 else 0xFF }

/-- A command goes to a next state that answers yes. -/
def after (r : Result) (ok : State → Bool) : Bool :=
  match r with
  | .next t => ok t
  | .fault _ => false
  | .refused _ => false

/-- The last response. -/
def lastRsp (s : State) : Option (Status × RspData) := s.rsps.getLast?.map fun r => (r.status, r.data)

/-- The weights of the listed symbols. -/
def weightsAt (t : State) (l : List Sym) : Option (List Weight) := t.w.map fun f => l.map (symGet f)

/-- The codes of the listed symbols. -/
def codesAt (t : State) (l : List Sym) : Option (List Bits) := t.c.map fun tab => l.map (symGet tab)

/-- A command faults with this cause, and nothing is pushed, emitted or walked. -/
def faults (i : Instr) (s : State) (f : BitVec 4) : Bool :=
  after (exec i s) fun t =>
    t.phase = .fault && t.fcause = f && t.fop = i.opcode && t.farg = i.operandA &&
      t.rsps = s.rsps ++ [⟨.fault, f.setWidth 136⟩] && t.pb = s.pb && t.out = s.out && t.dcur = s.dcur

/-! ### One step, results from 95_test_vectors.md -/

/-- V9. -/
theorem test_wclr_restarts : after (exec .wclr (thState .encDone)) (fun t =>
    t.phase = .wOpen && weightsAt t [0, 0x74, 127] = some [0, 0, 0] && t.n = none && t.c = none && t.root = 0xFF && t.nnode = 0) := by
  decide +kernel

/-- V9. -/
theorem test_wclr_in_enc : faults .wclr (thState .enc) 2 := by decide +kernel

/-- V2: 0xF4 is counted at 0x74. -/
theorem test_wcnt_masks : after (exec (.wcnt 0xF4) (counted [(0x74, 1)] .wOpen)) (fun t =>
    weightsAt t [0, 0x73, 0x74, 0x75] = some [0, 0, 2, 0] && t.phase = .wOpen && lastRsp t = some (.ok, 0)) := by decide +kernel

/-- V5. -/
theorem test_wcnt_overflow : faults (.wcnt 0x41) (counted [(0x41, 0xFFFFFFFF)] .wOpen) 4 := by decide +kernel

/-- V1, V3. -/
theorem test_wend_adds_the_sentinel : after (exec .wend (counted [(0x74, 1)] .wOpen)) (fun t =>
    weightsAt t [0, 1, 0x74] = some [1, 0, 1] && t.phase = .wReady) := by decide +kernel

/-- V5: `W_READY` is not entered. -/
theorem test_wend_overflow : faults .wend (counted [(0, 0xFFFFFFFF)] .wOpen) 4 := by decide +kernel

/-- V4: a second load overwrites. -/
theorem test_wld_overwrites : after (exec (.wld 0x41 9) (counted [(0x41, 5)] .wOpen)) (fun t =>
    weightsAt t [0x40, 0x41, 0x42] = some [0, 9, 0] && t.phase = .wOpen) := by decide +kernel

/-- V7: the first index out of range. -/
theorem test_wld_range : faults (.wld 128 1) (counted [] .wOpen) 3 := by decide +kernel

/-- V4: nothing is added. -/
theorem test_wseal_adds_nothing : after (exec .wseal (counted [(0x41, 5)] .wOpen)) (fun t =>
    weightsAt t [0, 0x41] = some [0, 5] && t.phase = .wReady) := by decide +kernel

/-- V23: the table may be empty here, and TBUILD refuses it. -/
theorem test_wseal_out_of_phase : faults .wseal (counted [] .wReady) 2 := by decide +kernel

/-- V4. -/
theorem test_wrd : after (exec (.wrd 0x41) (counted [(0x41, 5)] .wReady)) (fun t => lastRsp t = some (.ok, 5)) := by
  decide +kernel

/-- V2: an index is not masked. -/
theorem test_wrd_range : faults (.wrd 0xF4) (counted [(0x74, 2)] .wReady) 3 := by decide +kernel

/-- V11: the tree of "th". -/
theorem test_tbuild_th : after (exec (.tbuild true) (counted [(0, 1), (0x68, 1), (0x74, 1)] .wReady)) (fun t =>
    t.n = some thNodes && t.nleaf = 3 && t.nnode = 5 && t.root = 4 && t.topt && t.phase = .tReady) := by decide +kernel

/-- V20: the leaf of lower index goes before the internal node of the same weight. -/
theorem test_tbuild_tie :
    after (exec (.tbuild true) (counted [(0, 1), (65, 5), (66, 2), (67, 1)] .wReady)) (fun t =>
      t.n = some [leaf 0 1, leaf 65 5, leaf 66 2, leaf 67 1, int 2 0 3, int 4 2 4, int 9 5 1]) := by decide +kernel

/-- V11: `N[3]`. -/
theorem test_trd : after (exec (.trd 3) (thState .tReady)) (fun t => lastRsp t = some (.ok, 0x7F80800000000002)) := by
  decide +kernel

/-- R110: the first index that is no node. -/
theorem test_trd_range : faults (.trd 5) (thState .decDone) 3 := by decide +kernel

/-- V11: the codes of "th". -/
theorem test_cgen_th : after (exec .cgen (thState .tReady)) (fun t =>
    codesAt t [0, 0x61, 0x68, 0x74] = some [[true, false], [], [true, true], [false]] && t.phase = .cReady) := by
  decide +kernel

/-- V24: the code of a lone symbol. -/
theorem test_cgen_lone : after (exec .cgen (loneState 0x41 7 .tReady)) (fun t =>
    codesAt t [0, 0x41] = some [[], [false]]) := by
  decide +kernel

/-- V11: `C[0]` = `10`. -/
theorem test_crd : after (exec (.crd 0) (thState .cReady)) (fun t =>
    lastRsp t = some (.ok, 0x280000000000000000000000000000000)) := by decide +kernel

/-- R125: the first index out of range. -/
theorem test_crd_range : faults (.crd 128) (thState .enc) 3 := by decide +kernel

/-- R130: what was pending is dropped. -/
theorem test_estart : after (exec .estart { thState .cReady with pb := [true] }) (fun t => t.pb = [] && t.phase = .enc) := by
  decide +kernel

/-- V35. -/
theorem test_estart_without_codes : faults .estart (thState .tReady) 2 := by decide +kernel

/-- V30's second `ESYM 'B'`: a byte completed in mid-code. -/
theorem test_esym_completes_a_byte :
    after (exec (.esym 0xC2) { thState .enc with
      pb := [true, true, true, true, true, false, false], c := some (codeTable [(0x42, [false, false])]) }) (fun t =>
        t.pb = [false] && t.out = [0xF8] && lastRsp t = some (.ok, 1) && t.phase = .enc) := by decide +kernel

/-- V32: nothing is pushed. -/
theorem test_esym_no_code : faults (.esym 0x61) { thState .enc with pb := [false] } 6 := by decide +kernel

/-- V11: `011` pending, `10` and three zeros. -/
theorem test_eend_pads : after (exec .eend { thState .enc with pb := [false, true, true] }) (fun t =>
    t.pb = [] && t.out = [0x70] && lastRsp t = some (.ok, 1) && t.phase = .encDone) := by decide +kernel

/-- V31: no padding at a byte boundary. -/
theorem test_eend_no_padding :
    after (exec .eend { thState .enc with
      pb := [false, true, true, false, true, true], c := some (codeTable [(0, [false, false])]) }) (fun t =>
        t.pb = [] && t.out = [0x6C] && lastRsp t = some (.ok, 1)) := by decide +kernel

/-- V40. -/
theorem test_dstart : after (exec .dstart (thState .cReady)) (fun t => t.dcur = 4 && t.phase = .dec) := by decide +kernel

/-- V46. -/
theorem test_dstart_after_an_encode : faults .dstart (thState .encDone) 2 := by decide +kernel

/-- V40: "th", then the sentinel; the rest of the byte is not looked at. -/
theorem test_dbyte_th : after (exec (.dbyte 0x70) (thState .dec)) (fun t =>
    t.out = [0x74, 0x68] && t.dcur = 4 && t.phase = .decDone && lastRsp t = some (.ok, 5)) := by decide +kernel

/-- V44: `BAD_CODE` at the third bit, the two symbols before it stay. -/
theorem test_dbyte_bad_code : after (exec (.dbyte 0x20) (loneState 0x41 7 .dec)) (fun t =>
    t.out = [0x41, 0x41] && t.dcur = 0 && t.phase = .fault && t.fcause = 7 && t.fop = 0x51 && t.farg = 0x20 &&
      lastRsp t = some (.fault, 7)) := by decide +kernel

/-- V40. -/
theorem test_dend_done : after (exec .dend (thState .decDone)) (fun t =>
    t.phase = .decDone && lastRsp t = some (.ok, 0)) := by decide +kernel

/-- V42: in mid-code. -/
theorem test_dend_truncated : faults .dend { thState .dec with dcur := 3 } 8 := by decide +kernel

/-- R170: straight after reset. -/
theorem test_stat_reset : after (exec .stat State.reset) (fun t => lastRsp t = some (.ok, 0x7F801FE0000000000)) := by
  decide +kernel

/-- V32: after its fault, one bit pending. -/
theorem test_stat_fault :
    after (exec .stat { thState .enc with pb := [false], phase := .fault, fcause := 6, fop := 0x41, farg := 0x61 }) (fun t =>
      lastRsp t = some (.ok, 0x7F802080A0761416F)) := by decide +kernel

/-- V42: out of `FAULT`, with what was emitted. -/
theorem test_srst : after (exec .srst { thState .fault with fcause := 8, fop := 0x52, out := [0x74] }) (fun t =>
    t == { State.reset with out := [0x74], rsps := [⟨.ok, 0⟩] }) := by decide +kernel

/-! ### The port and the reset -/

/-- V51: `ILLEGAL_CMD` before `BAD_PHASE` before `OPERAND_RANGE`. -/
theorem test_priority :
    after (acceptWord 0x15C800000007 State.reset) (fun t => t.fcause = 1 && t.fop = 0x15 && t.farg = 0xC8) ∧
    after (acceptWord 0x13C800000005 State.reset) (fun t => t.fcause = 2) ∧
    after (acceptWord 0x13C800000005 (counted [] .wOpen)) (fun t => t.fcause = 3) := by decide +kernel

/-- V52: refused, the first fault kept, STAT with a nonzero field too. -/
theorem test_refused :
    after (acceptWord 0x600000000001 { State.reset with phase := .fault, fcause := 2, fop := 0x30 }) (fun t =>
      t == { State.reset with phase := .fault, fcause := 2, fop := 0x30, rsps := [⟨.refused, 2⟩] }) := by decide +kernel

/-- R212: a reset when one of the two bytes of V40's DBYTE has been taken. -/
theorem test_reset_during :
    after (step { thState .dec with inputs := [.resetDuring 0x517000000000 1] }) (fun t =>
      t == { State.reset with out := [0x74] }) := by decide +kernel

/-- The host's entry: the command placed runs next. -/
theorem test_withFetchWord :
    after (step (State.reset.withFetchWord 48 0x100000000000)) (fun t => t.phase = .wOpen && t.inputs = []) := by
  decide +kernel

/-! ### The small states are in good order -/

theorem test_th_tree : TreeOk thWeights true thNodes 3 := by
  have h := (buildTree_spec (f := thWeights) true (by decide +kernel)).1
  rwa [show buildTree thWeights true = thNodes by decide +kernel,
    show (seedLeaves thWeights true).length = 3 by decide +kernel] at h

theorem test_th_codes : CodesOk thNodes 4 thCodes := by
  obtain ⟨l, hl, hok, -⟩ := test_th_tree.codeTable_spec (root := 4) (by decide)
  have heq : leafCodes thNodes 4 = some [(0x74, [false]), (0, [true, false]), (0x68, [true, true])] := by decide +kernel
  rw [heq] at hl
  cases hl
  exact hok

theorem test_lone_tree : TreeOk (weights [(0x41, 7)]) true [leaf 0x41 7] 1 := by
  have h := (buildTree_spec (f := weights [(0x41, 7)]) true (by decide +kernel)).1
  rwa [show buildTree (weights [(0x41, 7)]) true = [leaf 0x41 7] by decide +kernel,
    show (seedLeaves (weights [(0x41, 7)]) true).length = 1 by decide +kernel] at h

/-- The state of the call on "th" meets the invariant in every phase in which a tree is held. -/
theorem test_th_state : ∀ p ∈ [Phase.tReady, .cReady, .enc, .encDone, .dec, .decDone], StateOk (thState p) := by
  intro p hp
  have htree : ∀ f nodes, (thState p).w = some f → (thState p).n = some nodes →
      TreeOk f (thState p).topt nodes (thState p).nleaf.toNat ∧ (thState p).nnode.toNat = nodes.length ∧
        (thState p).root.toNat + 1 = nodes.length := by
    intro f nodes hf hn
    cases hf; cases hn
    exact ⟨test_th_tree, rfl, rfl⟩
  have hcodes : ∀ nodes tab, (thState p).n = some nodes → (thState p).c = some tab →
      CodesOk nodes (thState p).root.toNat tab := by
    intro nodes tab hn hc
    cases hn
    rcases eq_or_ne p .tReady with h | h
    · simp [thState, h] at hc
    · simp only [thState, if_neg h, Option.some.injEq] at hc
      exact hc ▸ test_th_codes
  simp only [List.mem_cons, List.not_mem_nil, or_false] at hp
  rcases hp with rfl | rfl | rfl | rfl | rfl | rfl
  all_goals
    refine ⟨by decide +kernel, by decide +kernel, fun _ => by decide +kernel, fun _ => by decide +kernel,
      fun _ => by decide +kernel, fun _ => by decide +kernel, by decide +kernel, fun h => (by cases h), htree, hcodes,
      by decide +kernel, fun _ _ => rfl, fun h1 h2 _ => ?_, fun h nodes _ => ?_, fun h => ?_⟩
    · first | rfl | exact absurd rfl h1 | exact absurd rfl h2
    · first | exact .inl rfl | cases h
    · first | rfl | cases h

/-- A state in which every command but STAT and SRST is refused. -/
def faulted : State := { State.reset with phase := .fault, fcause := 2, fop := 0x30 }

/-! ### Witnesses: for every statement with hypotheses, a state and operands that meet them, one per clause -/

theorem test_witness_DecodedWordIsTheCommandsOwnWord : decode (0x137400000003 : CmdWord) = .ok (.wld 0x74 3) := by decide

/-- The masked operands: a WCNT and an ESYM that complete, and with the other bit 7. -/
theorem test_witness_UnusedFieldsMustBeZero :
    after (exec (.wcnt 0x7F) (counted [] .wOpen)) (fun t => t.phase != .fault) ∧
    after (exec (.wcnt 0xFF) (counted [] .wOpen)) (fun t => t.phase != .fault) ∧
    after (exec (.esym 0x80) (thState .enc)) (fun t => t.phase != .fault) ∧
    after (exec (.esym 0x00) (thState .enc)) (fun t => t.phase != .fault) := by decide +kernel

/-- An `op` that names nothing (the least and the greatest), and STAT and SRST with a nonzero field, in both phases. -/
theorem test_witness_IllegalWordsRaiseIllegalCmd :
    (∀ i : Instr, (0 : CmdWord) ≠ encode i) ∧ (∀ i : Instr, (0xFF0000000000 : CmdWord) ≠ encode i) ∧
    (0x00 : Byte) ∉ legalOps .wOpen ∧ ¬ ((0 : Byte) = 0 ∧ (1 : BitVec 32) = 0) ∧
    State.reset.phase ≠ .fault ∧ faulted.phase = .fault := by
  have key : ∀ (w : CmdWord) (e : DecodeError), decode w = .error e → ∀ i : Instr, w ≠ encode i := by
    rintro w e h i rfl
    have hok : decode (encode i) = .ok i := (decode_ok_iff _ i).2 ⟨by simp [encode, candidate_self], by
      cases i with
      | tbuild opt => cases opt <;> simp [encode, wellFormed, Instr.shape, Shape.fits, Instr.operandA, Instr.operandD]
      | _ => simp [encode, wellFormed, Instr.shape, Shape.fits, Instr.operandA, Instr.operandD]⟩
    rw [h] at hok
    cases hok
  exact ⟨key _ .undefinedOp (by decide), key _ .undefinedOp (by decide), by decide, by decide, by decide, by decide⟩

/-- A legal word, an illegal one, a reset during a command, and no event. -/
theorem test_witness_StepTakesTheNextEvent :
    decode (0x600000000000 : CmdWord) = .ok .stat ∧ State.reset.inputs = [] ∧
    ∀ e ∈ [HostEvent.command 0x600000000000, .command 0, .resetDuring 0 3],
      ({ State.reset with inputs := [e] } : State).inputs = e :: [] := by decide

theorem test_witness_ResetAndSrstGiveTheResetValues :
    after (step { thState .enc with inputs := [.reset] }) (fun t => t == State.reset) ∧
    after (exec .srst (thState .enc)) (fun _ => true) := by decide +kernel

theorem test_witness_HardwareResetCompletes :
    ({ thState .enc with inputs := [.reset, .command 0] } : State).inputs = .reset :: [.command 0] := by decide

/-- A command that emits two bytes. -/
theorem test_witness_ResetDuringACommandKeepsAPrefix :
    after (acceptWord 0x517000000000 { thState .dec with out := [0x01] }) (fun t => t.out = [0x01] ++ [0x74, 0x68]) := by
  decide +kernel

/-- A fault that emits nothing, and the one that follows output. -/
theorem test_witness_FaultEntrySavesCauseAndWord :
    after (acceptWord 0x300000000000 State.reset) (fun t => t.phase = .fault) ∧
    after (acceptWord 0x512000000000 (loneState 0x41 7 .dec)) (fun t => t.phase = .fault && t.out.length = 2) := by
  decide +kernel

theorem test_witness_FaultPhaseRefusesEverything :
    faulted.phase = .fault ∧ (0x600000000001 : CmdWord) ≠ packWord 0x60 0 0 ∧
      (0x600000000001 : CmdWord) ≠ packWord 0x61 0 0 := by decide

/-- The three events that leave `FAULT`. -/
theorem test_witness_OnlySrstOrResetLeavesFault :
    ∀ e ∈ [HostEvent.command 0x610000000000, .reset, .resetDuring 0x600000000000 0],
      after (step { faulted with inputs := [e] }) (fun t => t.phase != .fault) := by decide +kernel

/-- One state per step of the order R183. -/
theorem test_witness_FirstConditionInOrderIsReported :
    faulted.phase = .fault ∧ encode .wclr ≠ encode .stat ∧ encode .wclr ≠ encode .srst ∧
    (State.reset.phase ≠ .fault ∧ (Instr.wld 200 5).opcode ∉ legalOps State.reset.phase) ∧
    (StateOk (thState .cReady) ∧ (Instr.wrd 128).opcode ∈ legalOps .cReady ∧ IndexOutOfRange (.wrd 128) (thState .cReady)) ∧
    (StateOk (thState .cReady) ∧ (Instr.trd 5).opcode ∈ legalOps .cReady ∧ IndexOutOfRange (.trd 5) (thState .cReady)) ∧
    (StateOk (thState .dec) ∧ Instr.dend.opcode ∈ legalOps .dec ∧ ¬ IndexOutOfRange .dend (thState .dec) ∧
      faults .dend (thState .dec) 8) := by
  refine ⟨by decide, by decide, by decide, by decide, ⟨test_th_state _ (by decide), by decide, ?_⟩,
    ⟨test_th_state _ (by decide), by decide, ?_⟩, test_th_state _ (by decide), by decide, id, by decide +kernel⟩
  · show 127 < _; decide
  · show (thState .cReady).nnode ≤ 5; decide

/-- A dot, an "ok", a refusal, and the two commands of `FAULT`. -/
theorem test_witness_LegalityTable :
    (State.reset.phase ≠ .fault ∧ Instr.cgen.opcode ∉ legalOps State.reset.phase) ∧
    (StateOk (thState .encDone) ∧ Instr.wclr.opcode ∈ legalOps .encDone) ∧
    (faulted.phase = .fault ∧ Instr.wclr.opcode ∉ legalOps .fault ∧ Instr.stat.opcode ∈ legalOps .fault ∧
      Instr.srst.opcode ∈ legalOps .fault) :=
  ⟨by decide, ⟨test_th_state _ (by decide), by decide⟩, by decide⟩

/-- Every command completes with `OK` somewhere, in the phases of R174; and one faults. -/
theorem test_witness_PhaseTransitionTable :
    (∀ p ∈ [(Instr.wclr, thState .encDone, Phase.wOpen), (.wend, counted [] .wOpen, .wReady),
        (.wseal, counted [] .wOpen, .wReady), (.tbuild true, counted [(0, 1)] .wReady, .tReady),
        (.cgen, thState .tReady, .cReady), (.estart, thState .cReady, .enc), (.eend, thState .enc, .encDone),
        (.dstart, thState .cReady, .dec), (.dbyte 0, thState .dec, .dec), (.dbyte 0x70, thState .dec, .decDone),
        (.srst, thState .enc, .idle), (.dend, thState .decDone, .decDone), (.wcnt 0, counted [] .wOpen, .wOpen),
        (.wld 0 1, counted [] .wOpen, .wOpen), (.wrd 0, counted [] .wOpen, .wOpen), (.trd 0, thState .enc, .enc),
        (.crd 0, thState .dec, .dec), (.esym 0, thState .enc, .enc), (.stat, faulted, .fault)],
      after (exec p.1 p.2.1) fun t => t.phase = p.2.2 && (lastRsp t).map Prod.fst = some .ok) ∧
    faults .cgen State.reset 2 := by decide +kernel

/-- One word per status. -/
theorem test_witness_OneResponsePerCommand :
    after (acceptWord 0x600000000000 State.reset) (fun t => (lastRsp t).map Prod.fst = some .ok) ∧
    after (acceptWord 0 State.reset) (fun t => (lastRsp t).map Prod.fst = some .fault) ∧
    after (acceptWord 0 faulted) (fun t => (lastRsp t).map Prod.fst = some .refused) := by decide +kernel

theorem test_witness_EmittedBytesAreNeverRecalled :
    after (step { thState .dec with out := [1], inputs := [.resetDuring 0x517000000000 1] }) (fun t => t.out = [1, 0x74]) := by
  decide +kernel

/-- The four read commands complete, and the three that can fault do. -/
theorem test_witness_ReadCommandsHaveNoSideEffects :
    (∀ i ∈ [Instr.wrd 127, .trd 4, .crd 127, .stat], after (exec i (thState .cReady)) fun t => t.phase != .fault) ∧
    ∀ i ∈ [Instr.wrd 128, .trd 5, .crd 128], faults i (thState .cReady) 3 := by decide +kernel

/-- A command that writes `W`, `N`, `C`, `PB`, `DCUR`, `OUT` or the fault registers, one each. -/
theorem test_witness_OnlyTheNamedCommandsWriteAStore :
    after (exec (.wcnt 0) (counted [] .wOpen)) (fun t => weightsAt t [0] = some [1]) ∧
    after (exec (.tbuild true) (counted [(0, 1)] .wReady)) (fun t => t.n.isSome && t.root != 0xFF) ∧
    after (exec .cgen (thState .tReady)) (fun t => t.c.isSome) ∧
    after (exec (.esym 0) (thState .enc)) (fun t => t.pb != []) ∧
    after (exec (.dbyte 1) (thState .dec)) (fun t => t.dcur != 4 && t.out != []) ∧
    after (exec .cgen State.reset) (fun t => t.fcause != 0) := by decide +kernel

theorem test_witness_FaultPinFollowsThePhase :
    State.reset.faultO = false ∧ after (acceptWord 0 State.reset) (fun t => t.faultO) ∧
    faulted.faultO = true ∧ after (acceptWord 0x610000000000 faulted) (fun t => !t.faultO) ∧
    after (acceptWord 0 faulted) (fun t => t.faultO) ∧ after (handle .reset faulted) (fun t => !t.faultO) := by
  decide +kernel

/-- The phases of the completion statements, and for each a phase outside them that is not `FAULT`. -/
theorem test_witness_phases :
    (thState .encDone).phase ∈ [Phase.idle, .wOpen, .wReady, .tReady, .cReady, .encDone, .decDone] ∧
    (thState .enc).phase ∉ [Phase.idle, .wOpen, .wReady, .tReady, .cReady, .encDone, .decDone, .fault] ∧
    State.reset.phase ∉ [Phase.wOpen, .wReady, .tReady, .cReady, .enc, .encDone, .dec, .decDone, .fault] := by decide

/-- The last count that completes and the one that does not. -/
theorem test_witness_WcntCountsOneByte :
    symGet (weights [(0x41, 0xFFFFFFFE)]) ((0xC1 : Byte).extractLsb' 0 7) ≠ 0xFFFFFFFF ∧
    symGet (weights [(0x41, 0xFFFFFFFF)]) ((0xC1 : Byte).extractLsb' 0 7) = 0xFFFFFFFF := by decide +kernel

theorem test_witness_WendCountsTheSentinelOnce :
    symGet (weights [(0, 0xFFFFFFFE)]) 0 ≠ 0xFFFFFFFF ∧ symGet (weights [(0, 0xFFFFFFFF)]) 0 = 0xFFFFFFFF := by
  decide +kernel

theorem test_witness_CountsNeverWrap :
    after (exec (.wcnt 0x41) (counted [(0x41, 0xFFFFFFFE)] .wOpen)) (fun t => weightsAt t [0x41] = some [0xFFFFFFFF]) ∧
    after (exec (.wcnt 0x41) (counted [(0x41, 0xFFFFFFFF)] .wOpen)) (fun t => weightsAt t [0x41] = some [0xFFFFFFFF]) ∧
    after (exec .wend (counted [] .wOpen)) (fun t => weightsAt t [0] = some [1]) := by decide +kernel

/-- The last index in range and the first outside it (WLD, WRD, CRD). -/
theorem test_witness_symbol_index : (127 : Byte).toNat ≤ 127 ∧ 127 < (128 : Byte).toNat := by decide

theorem test_witness_HistCountsTheText : Phase.idle ∈ callStarts ∧ Phase.decDone ∈ callStarts ∧
    ([] : List Byte).length + 1 < 2 ^ 32 ∧ ([0x74, 0xF4, 0x00] : List Byte).length + 1 < 2 ^ 32 := by decide

theorem test_witness_TbuildBuildsTheMergedTree :
    (∃ x, symGet (weights [(127, 1)]) x ≠ 0) ∧ ∀ x, symGet (weights []) x = 0 :=
  ⟨⟨127, by decide +kernel⟩, by decide +kernel⟩

theorem test_witness_LoneSymbolGivesTheDegenerateTree :
    (symGet (weights [(0x41, 7)]) 0x41 ≠ 0 ∧ ∀ y, y ≠ 0x41 → symGet (weights [(0x41, 7)]) y = 0) ∧
    after (exec (.tbuild true) (counted [(0x41, 7)] .wReady)) (fun t => t.phase = .tReady && t.nleaf = 1) ∧
    after (exec (.tbuild true) (counted [(0, 1), (0x41, 7)] .wReady)) (fun t => t.phase = .tReady && t.nleaf = 2) := by
  decide +kernel

/-- Two states that differ in everything but the weights. -/
theorem test_witness_TreeAndCodesAreDeterministic :
    ∀ s ∈ [counted [(0, 1), (0x41, 1)] .wReady,
        { counted [(0, 1), (0x41, 1)] .wReady with out := [1], rsps := [⟨.ok, 0⟩], pb := [true], dcur := 7 }],
      s.phase = .wReady ∧ after (exec (.tbuild true) s) (fun t => t.phase = .tReady) ∧
        after (runInstrs [.tbuild true, .cgen] s) (fun t => t.phase = .cReady) := by decide +kernel

/-- The last node and the first index that is none. -/
theorem test_witness_TrdAnswersTheRecord :
    (thState .decDone).n = some thNodes ∧ (4 : Byte) < (thState .decDone).nnode ∧
    thNodes[(4 : Byte).toNat]? = some (int 3 2 3) ∧ (thState .decDone).nnode ≤ (5 : Byte) := by decide +kernel

theorem test_witness_CgenRecordsEveryPath :
    ((thState .tReady).phase = .tReady ∧ (thState .tReady).n = some thNodes ∧ TreeOk thWeights true thNodes 3 ∧
      (thState .tReady).root.toNat + 1 = thNodes.length) ∧
    ((loneState 0x41 7 .tReady).n = some [leaf 0x41 7] ∧ TreeOk (weights [(0x41, 7)]) true [leaf 0x41 7] 1 ∧
      (loneState 0x41 7 .tReady).root.toNat + 1 = [leaf 0x41 7].length) :=
  ⟨⟨rfl, rfl, test_th_tree, rfl⟩, rfl, test_lone_tree, rfl⟩

/-- CGEN on the tree of "th" answers, with codes for two symbols (and three leaves). -/
theorem test_witness_CodesArePrefixFree :
    after (exec .cgen (thState .tReady)) (fun t => codesAt t [0, 0x74] = some [[true, false], [false]]) ∧ symGet thCodes 0 ≠ [] ∧
    symGet thCodes 0x74 ≠ [] ∧ (0 : Sym) ≠ 0x74 ∧ 2 ≤ 3 := by decide +kernel

theorem test_witness_CrdAnswersTheCode :
    (thState .cReady).c.isSome ∧ (symGet thCodes ((0x68 : Byte).setWidth 7)).length ≤ 127 ∧
    (symGet thCodes ((127 : Byte).setWidth 7)).length ≤ 127 := by decide +kernel

/-- Seven bits pending, and a symbol without code. -/
theorem test_witness_EsymPacksOneCode :
    (thState .enc).c.isSome ∧ symGet thCodes ((0xF4 : Byte).extractLsb' 0 7) ≠ [] ∧
    (List.replicate 7 true).length ≤ 7 ∧ symGet thCodes ((0x61 : Byte).extractLsb' 0 7) = [] := by decide +kernel

theorem test_witness_EendPacksTheSentinelAndPads :
    symGet thCodes 0 ≠ [] ∧ symGet (codeTable [(0x41, [false])]) 0 = [] := by decide +kernel

theorem test_witness_EncodeEmitsEveryCodeBit :
    (thState .cReady).phase = .cReady ∧ (thState .cReady).c.isSome ∧
    (∀ b ∈ ([0x74, 0xE8] : List Byte), symGet thCodes (b.extractLsb' 0 7) ≠ []) ∧ symGet thCodes 0 ≠ [] := by
  decide +kernel

/-- With the bit `1` held (cursor at `N[3]`) the byte 0x80 spells "h" and seven "t"; the byte 0x70 of V40 spells "t",
"h", the sentinel and three bits that are not looked at. -/
theorem test_witness_DbyteDecodesTheHeldBits :
    (IsInner thNodes 4 ∧ IsInner thNodes 3 ∧ treeWalk thNodes 4 [true] = some 3 ∧ treeWalk thNodes 4 [] = some 4) ∧
    (∀ x ∈ ([0x74, 0x68, 0] : List Sym), IsCodeOf thNodes 4 x (symGet thCodes x)) ∧
    ([true] ++ bits8 0x80 = (([0x68, 0x74, 0x74, 0x74, 0x74, 0x74, 0x74, 0x74] : List Sym).flatMap (symGet thCodes)) ++ []) ∧
    ([] ++ bits8 0x70 = (([0x74, 0x68] : List Sym).flatMap (symGet thCodes)) ++ (symGet thCodes 0 ++ [false, false, false])) := by
  refine ⟨⟨⟨int 3 2 3, rfl, rfl⟩, ⟨int 2 0 1, rfl, rfl⟩, by decide +kernel, rfl⟩, ?_, by decide +kernel, by decide +kernel⟩
  have hin : IsInner thNodes 4 := ⟨int 3 2 3, rfl, rfl⟩
  intro x hx
  simp only [List.mem_cons, List.not_mem_nil, or_false] at hx
  rcases hx with rfl | rfl | rfl
  · exact .inr ⟨hin, 2, by decide +kernel, leaf 0x74 1, rfl, rfl, by decide⟩
  · exact .inr ⟨hin, 1, by decide +kernel, leaf 0x68 1, rfl, rfl, by decide⟩
  · exact .inr ⟨hin, 0, by decide +kernel, leaf 0 1, rfl, rfl, by decide⟩

theorem test_witness_DbyteCompletesOnEveryByte :
    (thState .dec).n = some thNodes ∧ TreeOk thWeights true thNodes 3 ∧ (thState .dec).root.toNat + 1 = thNodes.length ∧
    IsInner thNodes (thState .dec).root.toNat ∧ IsInner thNodes (thState .dec).dcur.toNat :=
  ⟨rfl, test_th_tree, rfl, ⟨int 3 2 3, rfl, rfl⟩, ⟨int 3 2 3, rfl, rfl⟩⟩

/-- The lone sentinel and a lone symbol; a 1 as the first, the third and the last bit. -/
theorem test_witness_DbyteInTheDegenerateTree :
    (IsLeafOf [leaf 0 1] 0 0 ∧ (0x7F : Byte).getLsbD 7 = false ∧ bits8 0x80 = List.replicate 0 false ++ true :: List.replicate 7 false) ∧
    (IsLeafOf [leaf 0x41 7] 0 0x41 ∧ bits8 0x20 = List.replicate 2 false ++ true :: List.replicate 5 false ∧
      bits8 0x01 = List.replicate 7 false ++ true :: []) :=
  ⟨⟨⟨_, rfl, rfl, rfl⟩, by decide, by decide⟩, ⟨_, rfl, rfl, rfl⟩, by decide, by decide⟩

theorem test_witness_StatPacksTheRegisters : ({ thState .enc with pb := List.replicate 7 true } : State).pb.length ≤ 7 := by
  decide

/-- A state of the invariant and a step from it, for each of the three events and for none. -/
theorem test_witness_StepKeepsTheInvariant :
    (∀ p ∈ [Phase.tReady, .cReady, .enc, .encDone, .dec, .decDone], StateOk (thState p)) ∧
    ∀ es ∈ [[], [HostEvent.command 0x600000000000], [.reset], [.resetDuring 0x600000000000 0]],
      after (step { thState .cReady with inputs := es }) (fun _ => true) :=
  ⟨test_th_state, by decide +kernel⟩

/-- A text with bit 7 set in one byte and symbol 0 inside, and one over 0x01 to 0x7F. -/
theorem test_witness_RoundTripOnOneTree :
    StateOk (thState .cReady) ∧ (thState .cReady).phase = .cReady ∧ (thState .cReady).c = some thCodes ∧
    (∀ b ∈ ([0x74, 0xE8, 0x80, 0x74] : List Byte), symGet thCodes (b.extractLsb' 0 7) ≠ []) ∧ symGet thCodes 0 ≠ [] ∧
    ∀ b ∈ ([0x74, 0x68] : List Byte), 1 ≤ b.toNat ∧ b.toNat ≤ 127 :=
  ⟨test_th_state _ (by decide), rfl, rfl, by decide +kernel, by decide +kernel, by decide⟩

/-- P3: the table {A:5, B:2, C:1, sentinel:1}, in another order. -/
def p3Table : WeightTable := [(0x43, 1), (0, 1), (0x41, 5), (0x42, 2)]

theorem test_table {tbl : WeightTable} (h : OnePairEach tbl) : TableOf tbl (weights tbl) :=
  ⟨h, fun _ hp => symGet_writes_of_mem h hp _, fun _ hx => (symGet_writes_of_not_mem hx _).trans (symGet_replicate _ _)⟩

theorem test_one_pair_each : ∀ tbl ∈ [[], p3Table, [(0x41, 1)]], OnePairEach tbl := by unfold OnePairEach; decide

theorem test_table_of_nothing : TableOf [] (weights []) ∧ ∀ y, symGet (weights []) y = 0 :=
  ⟨test_table (test_one_pair_each _ (by decide)), symGet_replicate _⟩

theorem test_table_of_p3 : TableOf p3Table (weights p3Table) ∧ ∃ y, symGet (weights p3Table) y ≠ 0 :=
  ⟨test_table (test_one_pair_each _ (by decide)), 0, by decide +kernel⟩

/-- A text of the least and the greatest byte, counted; "AB" with the table of P3 and each flag. -/
theorem test_witness_RoundTripOfWholeCalls :
    Phase.idle ∈ callStarts ∧ Phase.encDone ∈ callStarts ∧
    (∀ b ∈ ([0x01, 0x7F, 0x41, 0x42] : List Byte), 1 ≤ b.toNat ∧ b.toNat ≤ 127) ∧
    WeightsSuffice [0x01, 0x7F] true none ∧ ∀ opt, WeightsSuffice [0x41, 0x42] opt (some p3Table) :=
  ⟨by decide, by decide, by decide, by simp [WeightsSuffice], fun _ => ⟨weights p3Table, test_table_of_p3.1,
    test_table_of_p3.2, fun _ => ⟨by decide +kernel, by decide +kernel⟩⟩⟩

/-- P3's pairs in two orders; the empty table. -/
theorem test_witness_LoadwFillsTheTable :
    OnePairEach p3Table ∧ OnePairEach [] ∧ List.Perm ([(0, 1), (0x43, 1), (0x41, 5), (0x42, 2)] : WeightTable) p3Table :=
  ⟨test_one_pair_each _ (by decide), test_one_pair_each _ (by decide), by decide⟩

/-- The empty table; "D", which P3's table does not cover with `opt` = 1; a table without the sentinel; "D" with
`opt` = 0. -/
theorem test_witness_EncodeWithALoadedTable :
    (TableOf [] (weights []) ∧ ∀ y, symGet (weights []) y = 0) ∧
    ((TableOf p3Table (weights p3Table) ∧ ∃ y, symGet (weights p3Table) y ≠ 0) ∧
      ¬ CoversText (weights p3Table) true [0x44]) ∧
    (TableOf [(0x41, 1)] (weights [(0x41, 1)]) ∧ symGet (weights [(0x41, 1)]) 0x41 ≠ 0 ∧
      ¬ CoversText (weights [(0x41, 1)]) true []) ∧
    CoversText (weights p3Table) false [0x44] :=
  ⟨test_table_of_nothing, ⟨test_table_of_p3, fun h => (h.2 rfl).2 0x44 (by simp) (by decide +kernel)⟩,
    ⟨test_table (test_one_pair_each _ (by decide)), by decide +kernel, fun h => (h.2 rfl).1 (by decide +kernel)⟩,
    test_table_of_p3.2, by simp⟩

/-- The empty table and P3's. -/
theorem test_witness_DecodeStopsAtTheSentinelOrTheEnd :
    (TableOf [] (weights []) ∧ ∀ y, symGet (weights []) y = 0) ∧
    TableOf p3Table (weights p3Table) ∧ ∃ y, symGet (weights p3Table) y ≠ 0 :=
  ⟨test_table_of_nothing, test_table_of_p3⟩

/-! ### The pseudo-instructions (30_encoding.md R71 to R73) -/

/-- P2, steps 1 to 7, and P1, steps 2 to 9: the words the host sends. -/
theorem test_program_words :
    (loadwCmds [(0, 1), (0x68, 1), (0x74, 1)] ++ buildCmds true).map encode =
      [0x100000000000, 0x130000000001, 0x136800000001, 0x137400000001, 0x140000000000, 0x200000000001, 0x300000000000] ∧
    (encodeCmds [0x74] none true).map encode =
      [0x100000000000, 0x117400000000, 0x120000000000, 0x200000000001, 0x300000000000, 0x400000000000, 0x417400000000,
        0x420000000000] := by decide +kernel

/-- R73: after the `done` of 0x70 (V40) the next byte is not fed; the code of `BAD_CODE`, which is odd, is no `done`. -/
theorem test_feed_stops_at_done :
    after (feedBytes [0x70, 0xFF] (thState .dec)) (fun t => t.phase = .decDone && t.rsps.length = 1) ∧
    after (feedBytes [0xFF, 0] (loneState 0x41 7 .dec)) (fun t => t.phase = .fault && t.rsps.length = 2) := by
  decide +kernel

end Sys2Proof.Tests
end

section
/-!
PROOFS. No state of the invariant stops (O52). Every command is a nest of the shared operations `guarded`, `withStore`,
`withSymIndex`, `withNodeIndex`, `withCode` and `countOne`, so one rule per operation says when it completes. What is left
is TRD, CGEN and DBYTE, which stop on a corrupt tree only; the invariant says that the tree is in good order (R23).
-/

namespace Sys2Proof.Machine

/-- A step or a part of one gives a next state: no fault of the model's own, no refusal by name. -/
def Completes (r : Result) : Prop := ∃ t, r = .next t

/-! ### When the shared operations complete -/

@[simp] theorem completes_next (t : State) : Completes (.next t) := ⟨t, rfl⟩

@[simp] theorem completes_raise (f : Cause) (i : Instr) (s : State) : Completes (raise f i s) := completes_next _

/-- Only the body of a legal command, in a phase other than `FAULT`, is left to look at (R68). -/
theorem completes_guarded {i : Instr} {s : State} {body : Result}
    (h : s.phase ≠ .fault → legalIn i s.phase = true → Completes body) : Completes (guarded i s body) := by
  generalize hr : guarded i s body = r
  rcases guarded_cases hr with ⟨-, rfl⟩ | ⟨-, -, rfl⟩ | ⟨hf, hl, rfl⟩
  · exact completes_next _
  · exact completes_raise ..
  · exact h hf hl

theorem completes_withStore {α : Type} {i : Instr} {s : State} {store : Option α} {body : α → Result}
    (h : ∀ t, store = some t → Completes (body t)) : Completes (withStore i s store body) := by
  cases store with
  | none => exact completes_raise ..
  | some t => exact h t rfl

theorem completes_withSymIndex {i : Instr} {s : State} {a : Byte} {body : Sym → Result}
    (h : ∀ x, Completes (body x)) : Completes (withSymIndex i s a body) := by
  unfold withSymIndex
  split
  · exact completes_raise ..
  · exact h _

/-- R110: below `NNODE` every index names a record, where `NNODE` is the number of records. -/
theorem completes_withNodeIndex {i : Instr} {s : State} {nodes : List NodeRec} {a : Byte} {body : NodeRec → Result}
    (hn : s.nnode.toNat = nodes.length) (h : ∀ r, Completes (body r)) :
    Completes (withNodeIndex i s nodes a body) := by
  unfold withNodeIndex
  split
  · exact completes_raise ..
  · next hlt =>
    have ha : a.toNat < nodes.length := by rw [← hn]; exact Nat.lt_of_not_le hlt
    rw [List.getElem?_eq_getElem ha]
    exact h _

theorem completes_withCode {i : Instr} {s : State} {t : Vector Bits 128} {x : Sym} {body : Bits → Result}
    (h : ∀ bits, Completes (body bits)) : Completes (withCode i s t x body) := by
  unfold withCode
  split
  · exact completes_raise ..
  · exact h _

theorem completes_countOne (i : Instr) (s : State) (f : Vector Weight 128) (x : Sym) (p : Phase) :
    Completes (countOne i s f x p) := by
  unfold countOne
  split
  · exact completes_raise ..
  · exact completes_next _

/-! ### DBYTE's walk stays in the tree -/

/-- In a degenerate tree the walk reads the root alone (R155). -/
theorem walkBits_lone_ne_corrupt {nodes : List NodeRec} {root : Idx} {x : Sym} (h : IsLeafOf nodes root.toNat x)
    (bits : Bits) (cur : Idx) (e : List Byte) : walkBits nodes root bits cur e ≠ .corrupt := by
  induction bits generalizing e with
  | nil => simp [walkBits]
  | cons b bs ih =>
    cases b with
    | true => simp [walkBits_lone_one h]
    | false =>
      rw [walkBits, bitStep_lone h]
      simp only [Bool.false_eq_true, if_false]
      split
      · simp
      · exact ih _

/-- In a tree in good order no walk from the root or an inner cursor meets an index without a record. -/
theorem TreeOk.walkBits_ne_corrupt {f : Vector Weight 128} {opt : Bool} {nodes : List NodeRec} {nleaf : Nat}
    (h : TreeOk f opt nodes nleaf) {root cur : Idx} (hroot : root.toNat < nodes.length)
    (hcur : cur = root ∨ IsInner nodes cur.toNat) (bits : Bits) (e : List Byte) :
    walkBits nodes root bits cur e ≠ .corrupt := by
  rcases h.leaf_or_inner hroot with ⟨x, hx⟩ | hin
  · exact walkBits_lone_ne_corrupt hx bits cur e
  · have hcur : IsInner nodes cur.toNat := hcur.elim (fun he => he ▸ hin) id
    obtain ⟨_, -, -, ⟨_, -, hw⟩ | hw⟩ := h.walkBits_total hin hcur bits e <;> simp [hw]

/-! ### What the invariant gives the commands that read `N` -/

/-- The host's queue is no part of the invariant (log 1). -/
theorem StateOk.withInputs {s : State} (h : StateOk s) (es : List HostEvent) : StateOk { s with inputs := es } :=
  { h with }

/-- R17, R18, R23: a store `N` that holds a value holds a tree in good order, which `NNODE` and `ROOT` describe. -/
theorem StateOk.treeHeld {s : State} (h : StateOk s) {nodes : List NodeRec} (hn : s.n = some nodes) :
    ∃ f, TreeOk f s.topt nodes s.nleaf.toNat ∧ s.nnode.toNat = nodes.length ∧ s.root.toNat + 1 = nodes.length := by
  obtain ⟨f, hf⟩ := Option.isSome_iff_exists.1 (h.heldInOrder.2 (by simp [hn]))
  exact ⟨f, h.tree f nodes hf hn⟩

theorem StateOk.completes_trd {s : State} (h : StateOk s) (a : Byte) : Completes (execTrd a s) := by
  refine completes_guarded fun _ _ => completes_withStore fun nodes hn => ?_
  obtain ⟨f, -, hnnode, -⟩ := h.treeHeld hn
  exact completes_withNodeIndex hnnode fun _ => completes_next _

theorem StateOk.completes_cgen {s : State} (h : StateOk s) : Completes (execCgen s) := by
  refine completes_guarded fun _ _ => completes_withStore fun nodes hn => ?_
  obtain ⟨f, htree, -, hroot⟩ := h.treeHeld hn
  obtain ⟨codes, hcodes, -⟩ := htree.leafCodes_spec hroot
  simp [hcodes]

theorem StateOk.completes_dbyte {s : State} (h : StateOk s) (a : Byte) : Completes (execDbyte a s) := by
  refine completes_guarded fun _ hl => completes_withStore fun nodes hn => ?_
  obtain ⟨f, htree, -, hroot⟩ := h.treeHeld hn
  have hdec : s.phase = .dec := by simpa [legalIn] using hl
  have hwalk := htree.walkBits_ne_corrupt (by omega) (h.cursorDec hdec nodes hn) (bits8 a) []
  split
  · exact completes_next _
  · exact completes_next _
  · exact completes_raise ..
  · next hc => exact absurd hc hwalk

/-! ### Every command, every word, every event -/

theorem StateOk.completes_exec {s : State} (h : StateOk s) (i : Instr) : Completes (exec i s) := by
  cases i with
  | trd a => exact h.completes_trd a
  | cgen => exact h.completes_cgen
  | dbyte a => exact h.completes_dbyte a
  | stat | srst => exact completes_next _
  | wclr | wseal | estart | dstart => exact completes_guarded fun _ _ => completes_next _
  | wcnt | wend =>
    exact completes_guarded fun _ _ => completes_withStore fun f _ => completes_countOne _ _ f ..
  | wld | wrd | crd =>
    exact completes_guarded fun _ _ => completes_withStore fun _ _ => completes_withSymIndex fun _ => completes_next _
  | esym | eend =>
    exact completes_guarded fun _ _ => completes_withStore fun _ _ => completes_withCode fun _ => completes_next _
  | tbuild opt =>
    refine completes_guarded fun _ _ => completes_withStore fun f _ => ?_
    split
    · exact completes_raise ..
    · exact completes_next _
  | dend =>
    refine completes_guarded fun _ _ => ?_
    split
    · exact completes_raise ..
    · exact completes_next _

theorem StateOk.completes_acceptWord {s : State} (h : StateOk s) (w : CmdWord) : Completes (acceptWord w s) := by
  unfold acceptWord illegalWord
  split
  · exact h.completes_exec _
  · split <;> exact completes_next _

theorem StateOk.completes_handle {s : State} (h : StateOk s) (e : HostEvent) : Completes (handle e s) := by
  cases e with
  | command w => exact h.completes_acceptWord w
  | reset => exact completes_next _
  | resetDuring w k =>
    obtain ⟨t, ht⟩ := h.completes_acceptWord w
    simp [handle, abandon, ht]

/-- Settles O52: whatever event is next, `completes_handle` applies to the state with the event taken. -/
theorem stepNeverStops : Obligations.StepNeverStops := by
  intro s h
  change Completes (step s)
  unfold step
  split
  · exact completes_next _
  · exact (h.withInputs _).completes_handle _

end Sys2Proof.Machine
end

section
/-!
PROOFS. The invariant holds at reset (O50) and every step keeps it (O51). By `exec_next_cases` a command is refused,
faults, or has its own effect. The host's side of the state (`inputs`, `out`, `rsps`) is no part of the invariant; fault
entry keeps all it says of the stores. An effect does one of four things: it clears the call, writes `W` before there is
a tree, builds `N` or `C` by an operation whose result is known to be in good order, or moves `PB`, `DCUR` and `PHASE`
while the stores stay.
-/

namespace Sys2Proof.Machine

/-! ### The host's side, the cleared state, fault entry -/

/-- The invariant speaks of the registers alone, not of the host's queue and the two histories (logs 1, 2). -/
theorem StateOk.withHostSide {s : State} (h : StateOk s) (es : List HostEvent) (out : List Byte) (rsps : List Response) :
    StateOk { s with inputs := es, out := out, rsps := rsps } :=
  { h with }

theorem StateOk.emit {s : State} (h : StateOk s) (bs : List Byte) : StateOk (s.emit bs) := h.withHostSide ..

theorem StateOk.respond {s : State} (h : StateOk s) (st : Status) (d : RspData) : StateOk (s.respond st d) :=
  h.withHostSide ..

theorem StateOk.ok {s : State} (h : StateOk s) (d : RspData) : StateOk (s.ok d) := h.respond .ok d

/-- R30, R31, R80: every register at its reset value, and at most `W` defined, in a phase that says so. -/
theorem stateOk_cleared {w : Option (Vector Weight 128)} {p : Phase} (hp : p = .idle ∨ p = .wOpen)
    (hw : w.isSome = p.holdsW) : StateOk { State.reset with w := w, phase := p } := by
  rcases hp with rfl | rfl <;> exact
    { cause := by simp [State.reset]
      causeRange := by simp [State.reset]
      saved := fun _ => ⟨rfl, rfl⟩
      wHeld := fun _ => hw
      nHeld := fun _ => rfl
      cHeld := fun _ => rfl
      heldInOrder := ⟨nofun, nofun⟩
      noTree := fun _ => ⟨rfl, rfl, rfl, rfl⟩
      tree := nofun
      codes := nofun
      pending := Nat.zero_le _
      pendingInEncode := fun _ _ => rfl
      cursorNil := fun _ _ _ => rfl
      cursorDec := nofun
      cursorDone := nofun }

/-- Settles O50: the reset state is cleared and in `IDLE`. -/
theorem invariantHoldsAtReset : Obligations.InvariantHoldsAtReset := stateOk_cleared (w := none) (.inl rfl) rfl

theorem stateOk_resetRegisters (s : State) : StateOk s.resetRegisters := invariantHoldsAtReset.withHostSide ..

/-- R180: the eight cause codes are 1 to 8. -/
theorem Cause.code_range (f : Cause) : f.code ≠ 0 ∧ f.code.toNat ≤ 8 := by cases f <;> decide

/-- R186: fault entry leaves the stores, the tree registers and `PB` as they are. -/
theorem StateOk.takeFault {s : State} (h : StateOk s) (f : Cause) (op a : Byte) : StateOk (s.takeFault f op a) :=
  { h with
    cause := iff_of_true f.code_range.1 rfl
    causeRange := f.code_range.2
    saved := absurd rfl
    wHeld := absurd rfl
    nHeld := absurd rfl
    cHeld := absurd rfl
    pendingInEncode := fun _ => absurd rfl
    cursorNil := fun _ _ => absurd rfl
    cursorDec := nofun
    cursorDone := nofun }

/-! ### Commands that move `PB`, `DCUR` and `PHASE` -/

/-- R20: what `DCUR` may be in each phase. -/
def CursorLegal (s : State) (cur : Idx) : Phase → Prop
  | .dec => ∀ nodes, s.n = some nodes → cur = s.root ∨ IsInner nodes cur.toNat
  | .decDone => cur = s.root
  | .fault => True
  | .idle | .wOpen | .wReady | .tReady | .cReady | .enc | .encDone => cur = Config.nil

theorem StateOk.cursorLegal {s : State} (h : StateOk s) : CursorLegal s s.dcur s.phase := by
  cases hp : s.phase with
  | dec => exact h.cursorDec hp
  | decDone => exact h.cursorDone hp
  | fault => trivial
  | _ => exact h.cursorNil (by simp [hp]) (by simp [hp]) (by simp [hp])

/-- R14: outside `FAULT` no cause stands. -/
theorem StateOk.fcause_eq_zero {s : State} (h : StateOk s) (hs : s.phase ≠ .fault) : s.fcause = 0 :=
  not_not.1 (mt h.cause.1 hs)

/-- Neither phase is `FAULT`, and both define the same stores (R30). -/
abbrev SameStores (p q : Phase) : Prop :=
  p ≠ .fault ∧ q ≠ .fault ∧ p.holdsW = q.holdsW ∧ p.holdsN = q.holdsN ∧ p.holdsC = q.holdsC

/-- Between phases that define the same stores, with `PB` empty outside `ENC` and a legal cursor. -/
theorem StateOk.move {s : State} (h : StateOk s) {pb : Bits} {cur : Idx} {p : Phase} (hp : SameStores s.phase p)
    (hpb : pb = [] ∨ (p = .enc ∧ pb.length ≤ 7)) (hcur : CursorLegal s cur p) :
    StateOk { s with pb := pb, dcur := cur, phase := p } := by
  obtain ⟨hs, hp, hW, hN, hC⟩ := hp
  exact { h with
    cause := by simp [h.fcause_eq_zero hs, hp]
    saved := fun _ => h.saved hs
    wHeld := fun _ => (h.wHeld hs).trans hW
    nHeld := fun _ => (h.nHeld hs).trans hN
    cHeld := fun _ => (h.cHeld hs).trans hC
    pending := hpb.elim (fun hnil => by simp [hnil]) And.right
    pendingInEncode := fun hne _ => hpb.resolve_right fun henc => hne henc.1
    cursorNil := by cases p <;> simp_all [CursorLegal]
    cursorDec := by rintro rfl; exact hcur
    cursorDone := by rintro rfl; exact hcur }

/-! ### Commands that write a store -/

/-- R30: in `W_OPEN` only `W` is defined, so whatever is written there is a table like any other. -/
theorem StateOk.writeW {s : State} (h : StateOk s) (hs : s.phase = .wOpen) (g : Vector Weight 128) :
    StateOk { s with w := some g } := by
  have hn : s.n = none := by simpa [hs, Phase.holdsN] using h.nHeld
  exact { h with
    wHeld := fun _ => by simp [hs, Phase.holdsW]
    heldInOrder := ⟨h.heldInOrder.1, fun _ => rfl⟩
    tree := by simp [hn] }

/-- R84, R86: the table is closed, whether or not the sentinel has just been counted. -/
theorem StateOk.closeW {s : State} (h : StateOk s) (hs : s.phase = .wOpen) : StateOk { s with phase := .wReady } := by
  have hpb : s.pb = [] := by simpa [hs] using h.pendingInEncode
  have hcur : s.dcur = Config.nil := by simpa [hs] using h.cursorNil
  exact h.move (p := .wReady) (by rw [hs]; decide) (.inl hpb) hcur

/-- R17, R18, R107: TBUILD's registers describe a tree in good order; no code table is defined yet. -/
theorem StateOk.buildN {s : State} (h : StateOk s) (hs : s.phase = .wReady) {f : Vector Weight 128} (hw : s.w = some f)
    {opt : Bool} {nodes : List NodeRec} {nleaf : Nat} (htree : TreeOk f opt nodes nleaf) :
    StateOk { s with
      n := some nodes, nleaf := BitVec.ofNat 8 nleaf, nnode := BitVec.ofNat 8 nodes.length
      root := BitVec.ofNat 8 (nodes.length - 1), topt := opt, phase := .tReady } := by
  have hc : s.c = none := by simpa [hs, Phase.holdsC] using h.cHeld
  have hcount := htree.leafCount
  have hlen := htree.nodeCount
  have hleaf : (BitVec.ofNat 8 nleaf).toNat = nleaf := by rw [BitVec.toNat_ofNat]; omega
  have hnode : (BitVec.ofNat 8 nodes.length).toNat = nodes.length := by rw [BitVec.toNat_ofNat]; omega
  have hroot : (BitVec.ofNat 8 (nodes.length - 1)).toNat + 1 = nodes.length := by rw [BitVec.toNat_ofNat]; omega
  have hf : s.phase ≠ .fault := by simp [hs]
  exact { h with
    cause := by simp [h.fcause_eq_zero hf]
    saved := fun _ => h.saved hf
    wHeld := fun _ => by simp [hw, Phase.holdsW]
    nHeld := fun _ => rfl
    cHeld := fun _ => by simp [hc, Phase.holdsC]
    heldInOrder := by simp [hw]
    noTree := nofun
    tree := by
      rintro _ _ hw' ⟨⟩
      obtain rfl := Option.some.inj (hw.symm.trans hw')
      exact ⟨hleaf.symm ▸ htree, hnode, hroot⟩
    codes := by simp [hc]
    pendingInEncode := fun _ _ => h.pendingInEncode (by simp [hs]) hf
    cursorNil := fun _ _ _ => h.cursorNil (by simp [hs]) (by simp [hs]) hf
    cursorDec := nofun
    cursorDone := nofun }

/-- R24: CGEN's table is in good order for the tree that is held. -/
theorem StateOk.buildC {s : State} (h : StateOk s) (hs : s.phase = .tReady) {tab : Vector Bits 128}
    (htab : ∀ nodes, s.n = some nodes → CodesOk nodes s.root.toNat tab) :
    StateOk { s with c := some tab, phase := .cReady } := by
  have hf : s.phase ≠ .fault := by simp [hs]
  have hn : s.n.isSome = true := by simpa [hs, Phase.holdsN] using h.nHeld
  exact { h with
    cause := by simp [h.fcause_eq_zero hf]
    saved := fun _ => h.saved hf
    wHeld := fun _ => h.heldInOrder.2 hn
    nHeld := fun _ => hn
    cHeld := fun _ => rfl
    heldInOrder := ⟨fun _ => hn, h.heldInOrder.2⟩
    codes := by rintro nodes _ hn' ⟨⟩; exact htab nodes hn'
    pendingInEncode := fun _ _ => h.pendingInEncode (by simp [hs]) hf
    cursorNil := fun _ _ _ => h.cursorNil (by simp [hs]) (by simp [hs]) hf
    cursorDec := nofun
    cursorDone := nofun }

/-! ### Where DBYTE's loop leaves the cursor -/

/-- In a degenerate tree no bit moves the cursor (R155). -/
theorem walkBits_lone_cursor {nodes : List NodeRec} {root cur c : Idx} {x : Sym} (hx : IsLeafOf nodes root.toNat x)
    {bits : Bits} {e es : List Byte}
    (h : walkBits nodes root bits cur e = .more c es ∨ walkBits nodes root bits cur e = .done c es) : c = cur := by
  induction bits generalizing e with
  | nil =>
    simp only [walkBits, WalkEnd.more.injEq, reduceCtorEq, or_false] at h
    exact h.1.symm
  | cons b bs ih =>
    cases b with
    | true => simp [walkBits_lone_one hx] at h
    | false =>
      simp only [walkBits, bitStep_lone hx, Bool.false_eq_true, if_false] at h
      split at h
      · simp only [reduceCtorEq, WalkEnd.done.injEq, false_or] at h
        exact h.1.symm
      · exact ih h

/-- A tree whose root is a leaf has no inner node. -/
theorem TreeOk.not_inner_of_lone {f : Vector Weight 128} {opt : Bool} {nodes : List NodeRec} {nleaf root i : Nat}
    {x : Sym} (h : TreeOk f opt nodes nleaf) (hroot : root + 1 = nodes.length) (hx : IsLeafOf nodes root x) :
    ¬ IsInner nodes i := by
  rintro ⟨r, hr, hl⟩
  obtain ⟨r', hr', hl', -⟩ := hx
  have hlone := (h.leaf_iff hr').1 hl'
  have hinner := (h.inner_of_not_leaf hr hl).1
  have hlt := getElem?_lt hr
  omega

/-- R20, R153, R154: from the root or an inner node the loop ends at the root or an inner node, and at the root where it
meets the sentinel. -/
theorem TreeOk.walkBits_cursor {f : Vector Weight 128} {opt : Bool} {nodes : List NodeRec} {nleaf : Nat}
    (h : TreeOk f opt nodes nleaf) {root cur c : Idx} (hroot : root.toNat + 1 = nodes.length)
    (hcur : cur = root ∨ IsInner nodes cur.toNat) {bits : Bits} {e es : List Byte} :
    (walkBits nodes root bits cur e = .more c es → c = root ∨ IsInner nodes c.toNat) ∧
      (walkBits nodes root bits cur e = .done c es → c = root) := by
  rcases h.leaf_or_inner (show root.toNat < nodes.length by omega) with ⟨x, hx⟩ | hin
  · obtain rfl := hcur.resolve_right (h.not_inner_of_lone hroot hx)
    exact ⟨fun hw => .inl (walkBits_lone_cursor hx (.inl hw)), fun hw => walkBits_lone_cursor hx (.inr hw)⟩
  · have hcur : IsInner nodes cur.toNat := hcur.elim (· ▸ hin) id
    obtain ⟨_, -, -, ⟨c', hc', hw⟩ | hw⟩ := h.walkBits_total hin hcur bits e
    · rw [hw]
      exact ⟨by rintro ⟨⟩; exact .inr hc', nofun⟩
    · rw [hw]
      exact ⟨nofun, by rintro ⟨⟩; rfl⟩

/-! ### Effects, commands, words, steps -/

/-- R80: WCLR leaves the cleared state with `W` all zero. -/
theorem StateOk.wclr_keeps {s t : State} (h : StateOk s) (hs : s.phase ≠ .fault) (he : Effect .wclr s t) :
    StateOk t := by
  have hcleared := (stateOk_cleared (w := some (Vector.replicate 128 0)) (.inr rfl) rfl).withHostSide
    s.inputs s.out s.rsps
  obtain ⟨hop, harg⟩ := h.saved hs
  obtain rfl := he
  refine StateOk.ok ?_ 0
  rw [h.fcause_eq_zero hs, hop, harg]
  exact hcleared

theorem StateOk.tbuild_keeps {s t : State} (h : StateOk s) (hs : s.phase = .wReady) {opt : Bool}
    (he : Effect (.tbuild opt) s t) : StateOk t := by
  obtain ⟨f, hw, hz, rfl⟩ := he
  exact (h.buildN hs hw (buildTree_spec opt hz).1).ok 0

theorem StateOk.cgen_keeps {s t : State} (h : StateOk s) (hs : s.phase = .tReady) (he : Effect .cgen s t) :
    StateOk t := by
  obtain ⟨nodes, codes, hn, hcodes, rfl⟩ := he
  obtain ⟨f, htree, -, hroot⟩ := h.treeHeld hn
  obtain ⟨l, hl, hok, -⟩ := htree.codeTable_spec hroot
  obtain rfl := Option.some.inj (hl.symm.trans hcodes)
  refine (h.buildC hs fun nodes' hn' => ?_).ok 0
  obtain rfl := Option.some.inj (hn.symm.trans hn')
  exact hok

/-- R131: a whole code leaves at most 7 bits pending. -/
theorem StateOk.pushBits_pending {s : State} (h : StateOk s) (code : Bits) :
    (pushBits ⟨s.pb, []⟩ code).pb.length ≤ 7 := by
  have hlen := (pushBits_spec (p := ⟨s.pb, []⟩) code h.pending).1
  omega

theorem StateOk.esym_keeps {s t : State} (h : StateOk s) (hs : s.phase = .enc) {a : Byte}
    (he : Effect (.esym a) s t) : StateOk t := by
  obtain ⟨tab, -, -, rfl⟩ := he
  exact ((h.move (by rw [hs]; decide) (.inr ⟨hs, h.pushBits_pending _⟩) h.cursorLegal).emit _).ok _

/-- R134: after the padding nothing is pending. -/
theorem StateOk.eend_keeps {s t : State} (h : StateOk s) (hs : s.phase = .enc) (he : Effect .eend s t) :
    StateOk t := by
  obtain ⟨tab, -, -, rfl⟩ := he
  have hpush := h.pushBits_pending (symGet tab 0)
  have hpad : (padZeros 7 (pushBits ⟨s.pb, []⟩ (symGet tab 0))).pb = [] := by
    refine (padZeros_spec hpush ?_).1
    rw [← List.length_eq_zero_iff]
    omega
  have hcur : s.dcur = Config.nil := by simpa [hs] using h.cursorNil
  exact ((h.move (p := .encDone) (by rw [hs]; decide) (.inl hpad) hcur).emit _).ok _

theorem StateOk.dbyte_keeps {s t : State} (h : StateOk s) (hs : s.phase = .dec) {a : Byte}
    (he : Effect (.dbyte a) s t) : StateOk t := by
  obtain ⟨nodes, c, es, hn, hend⟩ := he
  obtain ⟨f, htree, -, hroot⟩ := h.treeHeld hn
  have hpb : s.pb = [] := by simpa [hs] using h.pendingInEncode
  obtain ⟨hmore, hdone⟩ := htree.walkBits_cursor (c := c) (bits := bits8 a) (e := []) (es := es) hroot
    (h.cursorDec hs nodes hn)
  rcases hend with ⟨hw, rfl⟩ | ⟨hw, rfl⟩
  · have hcur : CursorLegal s c s.phase := by simpa [hs, CursorLegal, hn] using hmore hw
    exact ((h.move (by rw [hs]; decide) (.inl hpb) hcur).emit es).ok _
  · exact ((h.move (p := .decDone) (by rw [hs]; decide) (.inl hpb) (hdone hw)).emit es).ok _

/-- A command that completes keeps the invariant. -/
theorem StateOk.effect_keeps {s t : State} (h : StateOk s) {i : Instr} (hl : legalIn i s.phase = true) (he : Effect i s t) :
    StateOk t := by
  cases i with
  | wclr =>
    have hs : s.phase ≠ .fault := by
      intro hs
      simp [hs, legalIn] at hl
    exact h.wclr_keeps hs he
  | wcnt =>
    have hs : s.phase = .wOpen := by simpa [legalIn] using hl
    obtain ⟨f, -, -, rfl⟩ := he
    exact (h.writeW hs _).ok 0
  | wend =>
    have hs : s.phase = .wOpen := by simpa [legalIn] using hl
    obtain ⟨f, -, -, rfl⟩ := he
    exact ((h.writeW hs _).closeW hs).ok 0
  | wld =>
    have hs : s.phase = .wOpen := by simpa [legalIn] using hl
    obtain ⟨f, x, -, -, rfl⟩ := he
    exact (h.writeW hs _).ok 0
  | wseal =>
    have hs : s.phase = .wOpen := by simpa [legalIn] using hl
    obtain rfl := he
    exact (h.closeW hs).ok 0
  | tbuild => exact h.tbuild_keeps (by simpa [legalIn] using hl) he
  | cgen => exact h.cgen_keeps (by simpa [legalIn] using hl) he
  | estart =>
    have hs : s.phase = .cReady := by simpa [legalIn] using hl
    have hcur : s.dcur = Config.nil := by simpa [hs] using h.cursorNil
    obtain rfl := he
    exact (h.move (p := .enc) (by rw [hs]; decide) (.inl rfl) hcur).ok 0
  | esym => exact h.esym_keeps (by simpa [legalIn] using hl) he
  | eend => exact h.eend_keeps (by simpa [legalIn] using hl) he
  | dstart =>
    have hs : s.phase = .cReady := by simpa [legalIn] using hl
    have hpb : s.pb = [] := by simpa [hs] using h.pendingInEncode
    obtain rfl := he
    exact (h.move (p := .dec) (by rw [hs]; decide) (.inl hpb) fun _ _ => .inl rfl).ok 0
  | dbyte => exact h.dbyte_keeps (by simpa [legalIn] using hl) he
  | wrd | crd =>
    obtain ⟨_, _, -, -, rfl⟩ := he
    exact h.ok _
  | trd =>
    obtain ⟨_, _, -, -, -, rfl⟩ := he
    exact h.ok _
  | dend =>
    obtain ⟨-, rfl⟩ := he
    exact h.ok 0
  | stat =>
    obtain rfl := he
    exact h.ok _
  | srst =>
    obtain rfl := he
    exact (stateOk_resetRegisters s).ok 0

theorem StateOk.exec_keeps {s t : State} (h : StateOk s) {i : Instr} (hx : exec i s = .next t) : StateOk t := by
  rcases exec_next_cases hx with ⟨-, -, -, rfl⟩ | ⟨-, -, rfl⟩ | ⟨-, -, f, es, -, rfl⟩ | ⟨hl, he⟩
  · exact h.respond ..
  · exact h.takeFault ..
  · exact (h.emit es).takeFault ..
  · exact h.effect_keeps hl he

theorem StateOk.acceptWord_keeps {s t : State} (h : StateOk s) {w : CmdWord} (hx : acceptWord w s = .next t) :
    StateOk t := by
  rcases acceptWord_next_cases hx with ⟨i, -, hi⟩ | ⟨_, -, -, rfl⟩ | ⟨_, -, -, rfl⟩
  · exact h.exec_keeps hi
  · exact h.respond ..
  · exact h.takeFault ..

/-- Settles O51: a word keeps the invariant, either reset gives the reset values, and without an event nothing changes. -/
theorem stepKeepsTheInvariant : Obligations.StepKeepsTheInvariant := by
  intro s t h hstep
  rcases step_next_cases hstep with ⟨-, rfl⟩ | ⟨w, rest, -, hw⟩ | ⟨rest, -, rfl⟩ | ⟨w, k, rest, u, -, -, rfl⟩
  · exact h
  · exact (h.withInputs rest).acceptWord_keeps hw
  · exact stateOk_resetRegisters _
  · exact stateOk_resetRegisters _

end Sys2Proof.Machine
end

section
/-!
PROOFS. The statements about single steps: the hardware reset and SRST (O9), the two histories (O19), the stores each
command writes (O21). All three are read off `exec_next_cases` and `step_next_cases`.
-/

namespace Sys2Proof.Machine

/-! ### Reset -/

theorem step_reset {s : State} {rest : List HostEvent} (h : s.inputs = .reset :: rest) :
    step s = .next { s with inputs := rest }.resetRegisters := by
  simp only [step, h, handle]

/-- Settles O9: both resets are `resetRegisters`, SRST with an answer. -/
theorem resetAndSrstGiveTheResetValues : Obligations.ResetAndSrstGiveTheResetValues := by
  refine ⟨fun s t rest hin h => ?_, fun s t h => ?_, State.reset, rfl, by decide⟩
  · rw [step_reset hin, Host.Outcome.next.injEq] at h
    exact h.symm
  · change Host.Outcome.next (s.resetRegisters.ok 0) = .next t at h
    rw [Host.Outcome.next.injEq] at h
    exact h.symm

/-! ### The histories only grow -/

/-- The bytes and the responses of `s` stand first in those of `t`. -/
def HistoriesGrow (s t : State) : Prop := s.out <+: t.out ∧ s.rsps <+: t.rsps

theorem HistoriesGrow.refl (s : State) : HistoriesGrow s s := ⟨List.prefix_rfl, List.prefix_rfl⟩

/-- Every command that completes emits some bytes, none or more, and delivers one `OK` (R64, R65). -/
theorem Effect.histories {i : Instr} {s t : State} (h : Effect i s t) :
    ∃ bs d, t.out = s.out ++ bs ∧ t.rsps = s.rsps ++ [⟨.ok, d⟩] := by
  cases i with
  | esym | eend =>
    obtain ⟨_, -, -, rfl⟩ := h
    exact ⟨_, _, rfl, rfl⟩
  | dbyte =>
    obtain ⟨_, _, _, -, ⟨-, rfl⟩ | ⟨-, rfl⟩⟩ := h <;> exact ⟨_, _, rfl, rfl⟩
  | wclr | wseal | estart | dstart | stat | srst =>
    obtain rfl := h
    exact ⟨[], _, by simp, rfl⟩
  | wcnt | wend | tbuild =>
    obtain ⟨_, -, -, rfl⟩ := h
    exact ⟨[], _, by simp, rfl⟩
  | wld | wrd | crd | cgen =>
    obtain ⟨_, _, -, -, rfl⟩ := h
    exact ⟨[], _, by simp, rfl⟩
  | trd =>
    obtain ⟨_, _, -, -, -, rfl⟩ := h
    exact ⟨[], _, by simp, rfl⟩
  | dend =>
    obtain ⟨-, rfl⟩ := h
    exact ⟨[], _, by simp, rfl⟩

theorem HistoriesGrow.refuse (s : State) : HistoriesGrow s s.refuse := ⟨List.prefix_rfl, List.prefix_append ..⟩

theorem HistoriesGrow.takeFault (s : State) (bs : List Byte) (f : Cause) (op a : Byte) :
    HistoriesGrow s ((s.emit bs).takeFault f op a) := ⟨List.prefix_append .., List.prefix_append ..⟩

theorem exec_histories {i : Instr} {s t : State} (h : exec i s = .next t) : HistoriesGrow s t := by
  rcases exec_next_cases h with ⟨-, -, -, rfl⟩ | ⟨-, -, rfl⟩ | ⟨-, -, f, es, -, rfl⟩ | ⟨-, he⟩
  · exact .refuse s
  · simpa using HistoriesGrow.takeFault s [] ..
  · exact .takeFault s es ..
  · obtain ⟨bs, d, hout, hrsps⟩ := he.histories
    exact ⟨hout ▸ List.prefix_append .., hrsps ▸ List.prefix_append ..⟩

theorem acceptWord_histories {w : CmdWord} {s t : State} (h : acceptWord w s = .next t) : HistoriesGrow s t := by
  rcases acceptWord_next_cases h with ⟨i, -, hi⟩ | ⟨_, -, -, rfl⟩ | ⟨_, -, -, rfl⟩
  · exact exec_histories hi
  · exact .refuse s
  · simpa using HistoriesGrow.takeFault s [] ..

/-- Settles O19: what a reset during a command cuts off is only what that command had yet to emit (R212, R213). -/
theorem emittedBytesAreNeverRecalled : Obligations.EmittedBytesAreNeverRecalled := by
  intro s t h
  rcases step_next_cases h with ⟨-, rfl⟩ | ⟨w, rest, -, hw⟩ | ⟨rest, -, rfl⟩ | ⟨w, k, rest, u, -, hw, rfl⟩
  · exact HistoriesGrow.refl _
  · exact acceptWord_histories (s := { s with inputs := rest }) hw
  · exact HistoriesGrow.refl _
  · obtain ⟨hout, -⟩ := acceptWord_histories hw
    exact ⟨List.prefix_take_iff.2 ⟨hout, Nat.le_add_right ..⟩, List.prefix_rfl⟩

/-! ### What each command writes (R10) -/

/-- Settles O21: a refusal writes no register, a fault the fault registers (and `OUT` by DBYTE alone, R185); an effect
names the fields it writes, so each clause is read off its equation. -/
theorem onlyTheNamedCommandsWriteAStore : Obligations.OnlyTheNamedCommandsWriteAStore := by
  intro i s t h
  rcases exec_next_cases h with ⟨-, -, -, rfl⟩ | ⟨hf, -, rfl⟩ | ⟨hf, -, f, es, hr, rfl⟩ | ⟨-, he⟩
  · simp
  · simp [hf]
  · rcases hr.emitted with rfl | ⟨-, a, rfl⟩
    · simp [hf]
    · simp [hf, Instr.opcode]
  · cases i with
    | wclr | wseal | estart | dstart | stat | srst =>
      obtain rfl := he
      simp [Instr.opcode]
    | wcnt | wend | tbuild | esym | eend =>
      obtain ⟨_, -, -, rfl⟩ := he
      simp [Instr.opcode]
    | wld | wrd | crd | cgen =>
      obtain ⟨_, _, -, -, rfl⟩ := he
      simp [Instr.opcode]
    | trd =>
      obtain ⟨_, _, -, -, -, rfl⟩ := he
      simp
    | dbyte =>
      obtain ⟨_, _, _, -, ⟨-, rfl⟩ | ⟨-, rfl⟩⟩ := he <;> simp [Instr.opcode]
    | dend =>
      obtain ⟨-, rfl⟩ := he
      simp

end Sys2Proof.Machine
end

section
/-!
PROOFS. The read commands WRD, TRD, CRD and STAT (O20). By `exec_next_cases` the three ways they end write, beside the
response, nothing (a refusal, an answer) or the fault registers and `PHASE` (a fault, which STAT never takes).
-/

namespace Sys2Proof.Machine

/-- R47: the effect of a read command is its answer alone. -/
theorem Effect.ok_of_read {i : Instr} {s t : State}
    (hi : (∃ a, i = .wrd a ∨ i = .trd a ∨ i = .crd a) ∨ i = .stat) (h : Effect i s t) : ∃ d, t = s.ok d := by
  rcases hi with ⟨a, rfl | rfl | rfl⟩ | rfl
  · obtain ⟨f, x, -, -, ht⟩ := h
    exact ⟨_, ht⟩
  · obtain ⟨nodes, r, -, -, -, ht⟩ := h
    exact ⟨_, ht⟩
  · obtain ⟨tab, x, -, -, ht⟩ := h
    exact ⟨_, ht⟩
  · exact ⟨_, h⟩

/-- Settles O20: a refusal and an answer deliver a response only. A fault is none of STAT's, and it has emitted nothing,
since only DBYTE emits before it faults (R185). -/
theorem readCommandsHaveNoSideEffects : Obligations.ReadCommandsHaveNoSideEffects := by
  intro i s t hi h
  rcases exec_next_cases h with ⟨-, -, -, rfl⟩ | ⟨hf, hl, rfl⟩ | ⟨hf, -, f, es, hr, rfl⟩ | ⟨-, he⟩
  · exact .inl rfl
  · have hstat : i ≠ .stat := by
      rintro rfl
      simp [legalIn] at hl
    exact .inr ⟨hstat, hf, rfl⟩
  · have hstat : i ≠ .stat := by
      rintro rfl
      exact hr
    rcases hr.emitted with rfl | ⟨-, a, rfl⟩
    · exact .inr ⟨hstat, hf, by rw [State.emit_nil]; rfl⟩
    · simp at hi
  · obtain ⟨d, rfl⟩ := he.ok_of_read hi
    exact .inl rfl

end Sys2Proof.Machine
end

section
/-!
PROOFS. The words of the commands (O2 to O6) and the one response to each word (O18). Decoder and encoder are two readings
of one table: a word decodes to `i` exactly where it is the word of `i` (`decode_eq_ok_iff`), so the illegal words are those
the decoder rejects, and what it rejects is read off the table's rows.
-/

namespace Sys2Proof.Machine

/-! ### Decoder and encoder -/

/-- R62: TBUILD's `d` is its flag, where the other 31 bits are 0. -/
theorem flag_eq_of_high_bits_zero {d : BitVec 32} (h : d.extractLsb' 1 31 = 0) :
    (if d.getLsbD 0 then 1 else 0) = d := by
  have hhalf : (d.extractLsb' 1 31).toNat = 0 := by rw [h]; rfl
  rw [BitVec.extractLsb'_toNat, Nat.shiftRight_eq_div_pow, pow_one] at hhalf
  rcases (show d.toNat = 0 ∨ d.toNat = 1 by omega) with hd | hd
  · rw [BitVec.eq_of_toNat_eq (y := 0#32) hd]; rfl
  · rw [BitVec.eq_of_toNat_eq (y := 1#32) hd]; rfl

/-- R61, R62: a row's command has the two fields for operands, where they are in legal form. -/
theorem operands_of_mem_opcodeRows {op a : Byte} {d : BitVec 32} {i : Instr} (h : (op, i) ∈ opcodeRows a d)
    (hw : wellFormed i a d = true) : i.operandA = a ∧ i.operandD = d := by
  have hall : ∀ p ∈ opcodeRows a d, wellFormed p.2 a d = true → p.2.operandA = a ∧ p.2.operandD = d := by
    have hflag : d.extractLsb' 1 31 = 0 → (if d.getLsbD 0 then 1 else 0) = d := flag_eq_of_high_bits_zero
    simp_all [opcodeRows, wellFormed, Instr.shape, Shape.fits, Instr.operandA, Instr.operandD]
  exact hall _ h hw

/-- R60, R61: a command's word decodes to the command. -/
theorem decode_encode (i : Instr) : decode (encode i) = .ok i := by
  have hwf : wellFormed i i.operandA i.operandD = true := by
    cases i with
    | tbuild opt => cases opt <;> rfl
    | _ => rfl
  rw [decode_ok_iff, encode, opField_packWord, aField_packWord, dField_packWord]
  exact ⟨candidate_self i, hwf⟩

/-- Settles O2: a word is what its fields say, and they are those of the command it decodes to. -/
theorem decodedWordIsTheCommandsOwnWord : Obligations.DecodedWordIsTheCommandsOwnWord := by
  intro w i h
  obtain ⟨hc, hw⟩ := (decode_ok_iff w i).1 h
  obtain ⟨ha, hd⟩ := operands_of_mem_opcodeRows (mem_opcodeRows_of_candidate hc) hw
  rw [encode, candidate_opcode hc, ha, hd, packWord_fields]

/-- R68: the word of a command is the only one that decodes to it. -/
theorem decode_eq_ok_iff (w : CmdWord) (i : Instr) : decode w = .ok i ↔ w = encode i :=
  ⟨fun h => (decodedWordIsTheCommandsOwnWord w i h).symm, fun h => h ▸ decode_encode i⟩

/-- Settles O3: the number by the widths of the fields, the fields as the decoder reads them. -/
theorem commandWordLayout : Obligations.CommandWordLayout := by
  intro i
  refine ⟨?_, opField_packWord .., aField_packWord .., dField_packWord ..⟩
  rw [encode, packWord, BitVec.toNat_append, ← Nat.shiftLeft_add_eq_or_of_lt i.operandD.isLt, BitVec.toNat_append,
    ← Nat.shiftLeft_add_eq_or_of_lt i.operandA.isLt, Nat.shiftLeft_eq, Nat.shiftLeft_eq]
  omega

/-- Settles O6: the words are given, so the decoder is run on each. -/
theorem wordsWrittenOutFromTheSpecDecode : Obligations.WordsWrittenOutFromTheSpecDecode := by
  unfold Obligations.WordsWrittenOutFromTheSpecDecode
  decide

/-! ### Illegal words (R62, R63) -/

theorem illegalWord_iff_decode (w : CmdWord) : IllegalWord w ↔ ∃ e, decode w = .error e := by
  cases hd : decode w with
  | ok i => simpa [IllegalWord] using ⟨i, (decode_eq_ok_iff w i).1 hd⟩
  | error e => simp [IllegalWord, ← decode_eq_ok_iff, hd]

/-- R63: an `op` value that names no command is none of the 18. -/
theorem candidate_eq_none_iff (op a : Byte) (d : BitVec 32) : candidate op a d = none ↔ op ∉ definedOps := by
  simp [candidate, opcodeRows, definedOps, List.lookup_eq_none_iff]

/-- R62: the named command admits the two fields unless one it does not use is nonzero. -/
theorem wellFormed_candidate_iff {op a : Byte} {d : BitVec 32} {i : Instr} (h : candidate op a d = some i) :
    wellFormed i a d = false ↔ UnusedFieldNonzero op a d := by
  have hall : ∀ p ∈ opcodeRows a d, (wellFormed p.2 a d = false ↔ UnusedFieldNonzero p.1 a d) := by
    simp [opcodeRows, wellFormed, Instr.shape, Shape.fits, UnusedFieldNonzero]
  exact hall _ (mem_opcodeRows_of_candidate h)

/-- R63: the illegal words by their fields. -/
theorem illegalWord_packWord_iff (op a : Byte) (d : BitVec 32) :
    IllegalWord (packWord op a d) ↔ op ∉ definedOps ∨ UnusedFieldNonzero op a d := by
  rw [illegalWord_iff_decode, decode, opField_packWord, aField_packWord, dField_packWord]
  cases hc : candidate op a d with
  | none => simp [(candidate_eq_none_iff op a d).1 hc]
  | some i =>
    have hdef : op ∈ definedOps := by
      by_contra hn
      simp [(candidate_eq_none_iff op a d).2 hn] at hc
    rw [← wellFormed_candidate_iff hc]
    cases hw : wellFormed i a d <;> simp [hdef, hw]

theorem acceptWord_of_illegal {w : CmdWord} (h : IllegalWord w) (s : State) : acceptWord w s = illegalWord w s := by
  obtain ⟨e, he⟩ := (illegalWord_iff_decode w).1 h
  simp [acceptWord, he]

/-- Settles O5: such a word is refused in `FAULT`, and raises `ILLEGAL_CMD` elsewhere. -/
theorem illegalWordsRaiseIllegalCmd : Obligations.IllegalWordsRaiseIllegalCmd := by
  refine ⟨illegalWord_packWord_iff, fun w s hw => ⟨fun hf => ?_, fun hf => ?_⟩⟩
  · rw [acceptWord_of_illegal hw, illegalWord, if_neg hf]; rfl
  · rw [acceptWord_of_illegal hw, illegalWord, if_pos hf]; rfl

/-! ### Completion -/

/-- A legal command does what its effect says: for effects, the converse of `exec_next_cases`. -/
theorem exec_of_effect {i : Instr} {s t : State} (hl : legalIn i s.phase = true) (he : Effect i s t) :
    exec i s = .next t := by
  have hbody (h1 : i ≠ .stat) (h2 : i ≠ .srst) (body : Result) : guarded i s body = body := by
    refine guarded_of_legal (fun hf => ?_) hl body
    rw [hf, legalIn_fault] at hl
    exact hl.elim h1 h2
  cases i with
  | stat | srst => exact congrArg Host.Outcome.next (Eq.symm he)
  | wclr | wseal | estart | dstart =>
    obtain rfl := he
    exact hbody nofun nofun _
  | wcnt | wend =>
    obtain ⟨f, hw, hmax, rfl⟩ := he
    exact (hbody nofun nofun _).trans (by rw [hw, withStore_some, countOne, if_neg hmax])
  | wld | wrd | crd =>
    obtain ⟨f, x, hw, hx, rfl⟩ := he
    exact (hbody nofun nofun _).trans (by rw [hw, withStore_some, withSymIndex, hx])
  | tbuild =>
    obtain ⟨f, hw, hz, rfl⟩ := he
    exact (hbody nofun nofun _).trans (by rw [hw, withStore_some, hz]; rfl)
  | trd =>
    obtain ⟨nodes, r, hn, ha, hr, rfl⟩ := he
    exact (hbody nofun nofun _).trans (by rw [hn, withStore_some, withNodeIndex, if_neg ha, hr])
  | cgen =>
    obtain ⟨nodes, codes, hn, hcodes, rfl⟩ := he
    exact (hbody nofun nofun _).trans (by rw [hn, withStore_some, hcodes])
  | esym | eend =>
    obtain ⟨tab, hc, hcode, rfl⟩ := he
    exact (hbody nofun nofun _).trans (by rw [hc, withStore_some, withCode, if_neg hcode])
  | dbyte =>
    obtain ⟨nodes, cur, es, hn, ⟨hw, rfl⟩ | ⟨hw, rfl⟩⟩ := he <;>
      exact (hbody nofun nofun _).trans (by rw [hn, withStore_some, hw])
  | dend =>
    obtain ⟨hp, rfl⟩ := he
    exact (hbody nofun nofun _).trans (if_neg (by rw [hp]; nofun))

/-- Where a command completes, one that is legal in the same phases and has the same effect gives the same state. -/
theorem exec_eq_of_same_effect {i j : Instr} {s t : State} (hl : legalIn i s.phase = legalIn j s.phase)
    (he : Effect i s t → Effect j s t) (h : exec i s = .next t) (ht : t.phase ≠ .fault) : exec j s = .next t := by
  rcases exec_next_cases h with ⟨hf, -, -, rfl⟩ | ⟨-, -, rfl⟩ | ⟨-, -, f, es, -, rfl⟩ | ⟨hi, hei⟩
  · exact absurd hf ht
  · exact absurd rfl ht
  · exact absurd rfl ht
  · exact exec_of_effect (hl ▸ hi) (he hei)

/-- R82, R137: `a[7]` of a source byte is ignored. -/
theorem maskedSym_flip (a : Byte) : maskedSym (a ^^^ 0x80) = maskedSym a := by
  revert a
  decide +kernel

/-- Settles O4: the clauses on illegal words are rows of `illegalWord_packWord_iff`; the effects of WCNT and ESYM see the
masked symbol only. -/
theorem unusedFieldsMustBeZero : Obligations.UnusedFieldsMustBeZero := by
  intro op a d
  simp only [illegalWord_packWord_iff]
  refine ⟨fun hop => ?_, fun hop => ?_, fun hop => ?_, fun hop => ?_, fun s t => ?_, fun s t => ?_⟩
  · simp only [List.mem_cons, List.not_mem_nil, or_false] at hop
    rcases hop with rfl | rfl | rfl | rfl | rfl | rfl | rfl | rfl | rfl | rfl <;>
      simp [definedOps, UnusedFieldNonzero]
  · simp only [List.mem_cons, List.not_mem_nil, or_false] at hop
    rcases hop with rfl | rfl | rfl | rfl | rfl | rfl <;> simp [definedOps, UnusedFieldNonzero]
  · subst hop; simp [definedOps, UnusedFieldNonzero]
  · subst hop; simp [definedOps, UnusedFieldNonzero]
  · exact exec_eq_of_same_effect rfl (by simp only [Effect, maskedSym_flip]; exact id)
  · exact exec_eq_of_same_effect rfl (by simp only [Effect, maskedSym_flip]; exact id)

/-! ### Responses (R64, R65) -/

/-- Settles O18: a refusal, a fault and an effect deliver one response each, of the status R65 names for it. -/
theorem oneResponsePerCommand : Obligations.OneResponsePerCommand := by
  refine ⟨⟨rfl, rfl, rfl⟩, fun w s t h => ?_⟩
  rcases acceptWord_next_cases h with ⟨i, hd, hi⟩ | ⟨_, -, hf, rfl⟩ | ⟨_, -, hf, rfl⟩
  · rcases exec_next_cases hi with ⟨hf, -, -, rfl⟩ | ⟨hf, -, rfl⟩ | ⟨hf, -, f, es, -, rfl⟩ | ⟨hl, he⟩
    · exact ⟨_, rfl, nofun, nofun, fun _ => ⟨hf, rfl, rfl⟩⟩
    · exact ⟨_, rfl, nofun, fun _ => ⟨hf, rfl, rfl⟩, nofun⟩
    · exact ⟨_, rfl, nofun, fun _ => ⟨hf, rfl, rfl⟩, nofun⟩
    · obtain ⟨_, d, -, hr⟩ := he.histories
      exact ⟨_, hr, fun _ => ⟨i, hd, mem_legalOps.2 hl⟩, nofun, nofun⟩
  · exact ⟨_, rfl, nofun, nofun, fun _ => ⟨hf, rfl, rfl⟩⟩
  · exact ⟨_, rfl, nofun, fun _ => ⟨hf, rfl, rfl⟩, nofun⟩

end Sys2Proof.Machine
end

section
/-!
PROOFS. LOADW (O55) and HIST: what the two ways to fill `W` leave. Both clear the call, write one entry a command and
close the table, so they pass through the states `withTable`, which differ in `PHASE`, in the table and in the number of
commands answered. A table is a table of one content of `W` only (`TableOf.unique`), which is therefore the one loaded.
-/

namespace Sys2Proof.Machine

/-- R80: a call of `s` in phase `p` with the table `f`, after `k` commands answered `OK`. -/
def State.withTable (s : State) (p : Phase) (f : Vector Weight 128) (k : Nat) : State :=
  { s with
    w := some f, n := none, c := none, topt := false, nleaf := 0, nnode := 0, root := Config.nil, pb := []
    dcur := Config.nil, phase := p, rsps := s.rsps ++ List.replicate k ⟨.ok, 0⟩ }

@[simp] theorem State.withTable_rsps (s : State) (p : Phase) (f : Vector Weight 128) (k : Nat) :
    (s.withTable p f k).rsps = s.rsps ++ List.replicate k ⟨.ok, 0⟩ := rfl

/-- One more command that writes the table or the phase and is answered `OK`. -/
theorem State.withTable_ok (s : State) (p q : Phase) (f g : Vector Weight 128) (k : Nat) :
    { s.withTable p f k with w := some g, phase := q }.ok 0 = s.withTable q g (k + 1) := by
  simp [State.withTable, State.ok, State.respond, List.replicate_succ']

/-! ### The commands that fill `W` -/

theorem exec_wclr_withTable {s : State} (hs : s.phase ∈ callStarts) :
    exec .wclr s = .next (s.withTable .wOpen (Vector.replicate 128 0) 1) :=
  exec_of_effect (decide_eq_true hs) rfl

theorem exec_wld_withTable (s : State) (f : Vector Weight 128) (k : Nat) (x : Sym) (v : Weight) :
    exec (.wld (x.setWidth 8) v) (s.withTable .wOpen f k) = .next (s.withTable .wOpen (symSet f x v) (k + 1)) :=
  exec_of_effect rfl ⟨f, x, rfl, symIndex_setWidth x, (s.withTable_ok ..).symm⟩

theorem exec_wseal_withTable (s : State) (f : Vector Weight 128) (k : Nat) :
    exec .wseal (s.withTable .wOpen f k) = .next (s.withTable .wReady f (k + 1)) :=
  exec_of_effect rfl (s.withTable_ok ..).symm

theorem exec_wcnt_withTable (s : State) {f : Vector Weight 128} (k : Nat) {b : Byte}
    (h : symGet f (maskedSym b) ≠ 0xFFFFFFFF) :
    exec (.wcnt b) (s.withTable .wOpen f k) =
      .next (s.withTable .wOpen (symSet f (maskedSym b) (symGet f (maskedSym b) + 1)) (k + 1)) :=
  exec_of_effect rfl ⟨f, rfl, h, (s.withTable_ok ..).symm⟩

theorem exec_wend_withTable (s : State) {f : Vector Weight 128} (k : Nat) (h : symGet f 0 ≠ 0xFFFFFFFF) :
    exec .wend (s.withTable .wOpen f k) = .next (s.withTable .wReady (symSet f 0 (symGet f 0 + 1)) (k + 1)) :=
  exec_of_effect rfl ⟨f, rfl, h, (s.withTable_ok ..).symm⟩

/-! ### Tables (R71) -/

/-- The content of `W` that the pairs of a table leave, written one after the other into zeros. -/
def tableWeights (tbl : WeightTable) : Vector Weight 128 :=
  tbl.foldl (fun f p => symSet f p.1 p.2) (Vector.replicate 128 0)

theorem tableOf_tableWeights {tbl : WeightTable} (h : OnePairEach tbl) : TableOf tbl (tableWeights tbl) :=
  ⟨h, fun _ hp => symGet_writes_of_mem h hp _,
    fun _ hx => (symGet_writes_of_not_mem hx _).trans (symGet_replicate _ _)⟩

theorem TableOf.unique {tbl : WeightTable} {f g : Vector Weight 128} (hf : TableOf tbl f) (hg : TableOf tbl g) :
    f = g := by
  refine symTable_ext fun x => ?_
  by_cases hx : x ∈ tbl.map Prod.fst
  · obtain ⟨p, hp, rfl⟩ := List.mem_map.1 hx
    rw [hf.listed p hp, hg.listed p hp]
  · rw [hf.unlisted x hx, hg.unlisted x hx]

theorem TableOf.perm {tbl tbl' : WeightTable} {f : Vector Weight 128} (h : TableOf tbl f) (hp : tbl'.Perm tbl) :
    TableOf tbl' f :=
  ⟨(hp.map Prod.fst).nodup_iff.2 h.onePair, fun p hm => h.listed p (hp.mem_iff.1 hm),
    fun x hx => h.unlisted x fun hm => hx ((hp.map Prod.fst).mem_iff.2 hm)⟩

/-! ### LOADW -/

theorem runInstrs_wlds (tbl : WeightTable) (s : State) (f : Vector Weight 128) (k : Nat) :
    runInstrs (tbl.map fun p => .wld (p.1.setWidth 8) p.2) (s.withTable .wOpen f k) =
      .next (s.withTable .wOpen (tbl.foldl (fun f p => symSet f p.1 p.2) f) (k + tbl.length)) := by
  induction tbl generalizing f k with
  | nil => rfl
  | cons p tbl ih =>
    rw [List.map_cons, runInstrs, exec_wld_withTable, andThen_next, ih, List.foldl_cons, List.length_cons,
      Nat.add_right_comm]
    rfl

/-- R71: LOADW leaves the weights of the table it is given. -/
theorem runInstrs_loadw {tbl : WeightTable} {f : Vector Weight 128} (h : TableOf tbl f) {s : State}
    (hs : s.phase ∈ callStarts) :
    runInstrs (loadwCmds tbl) s = .next (s.withTable .wReady f (tbl.length + 2)) := by
  rw [loadwCmds, runInstrs_append, runInstrs, exec_wclr_withTable hs, andThen_next, runInstrs_wlds, andThen_next,
    runInstrs, exec_wseal_withTable, Nat.add_comm 1]
  exact congrArg (fun g => Host.Outcome.next (s.withTable .wReady g _)) ((tableOf_tableWeights h.onePair).unique h)

/-- Settles O55: by `runInstrs_loadw`, since pairs in another order are a table of the same weights. -/
theorem loadwFillsTheTable : Obligations.LoadwFillsTheTable := by
  intro tbl s hs h
  have htbl := tableOf_tableWeights h
  refine ⟨⟨_, htbl, runInstrs_loadw htbl hs⟩, fun tbl' hp => ?_⟩
  rw [runInstrs_loadw htbl hs, runInstrs_loadw (htbl.perm hp) hs, hp.length_eq]

/-! ### HIST (R88) -/

/-- R83: an entry below the greatest value is not that value … -/
theorem ne_max_of_toNat_lt {v : Weight} (h : v.toNat < 2 ^ 32 - 1) : v ≠ 0xFFFFFFFF := by
  rintro rfl
  exact absurd h (by decide)

/-- … and counting it adds one as a number, and nothing to the other entries. -/
theorem toNat_symGet_count {f : Vector Weight 128} {x : Sym} (h : (symGet f x).toNat < 2 ^ 32 - 1) (y : Sym) :
    (symGet (symSet f x (symGet f x + 1)) y).toNat = (symGet f y).toNat + if x = y then 1 else 0 := by
  rw [symGet_symSet]
  split
  next hxy => rw [← hxy, BitVec.toNat_add]; exact Nat.mod_eq_of_lt (Nat.add_lt_of_lt_sub h)
  next => rfl

/-- R81, R83: a text too short for any entry to overflow is counted to its end. -/
theorem runInstrs_wcnts (x : List Byte) (s : State) {f : Vector Weight 128} (k : Nat)
    (h : ∀ y, (symGet f y).toNat + x.length < 2 ^ 32) :
    ∃ g, runInstrs (x.map .wcnt) (s.withTable .wOpen f k) = .next (s.withTable .wOpen g (k + x.length)) ∧
      ∀ y, (symGet g y).toNat = (symGet f y).toNat + x.countP fun b => maskedSym b == y := by
  induction x generalizing f k with
  | nil => exact ⟨f, rfl, fun y => rfl⟩
  | cons b x ih =>
    simp only [List.length_cons] at h
    have hb : (symGet f (maskedSym b)).toNat < 2 ^ 32 - 1 := by
      have := h (maskedSym b)
      omega
    have hset := toNat_symGet_count hb
    obtain ⟨g, hg, hcount⟩ := ih (f := symSet f (maskedSym b) (symGet f (maskedSym b) + 1)) (k + 1) fun y => by
      have := h y
      rw [hset]
      split <;> omega
    refine ⟨g, ?_, fun y => ?_⟩
    · rw [List.map_cons, runInstrs, exec_wcnt_withTable s k (ne_max_of_toNat_lt hb), andThen_next, hg,
        List.length_cons, Nat.add_right_comm]
      rfl
    · simp only [hcount, hset, List.countP_cons, beq_iff_eq]
      omega

/-- R84, R88: HIST counts every byte, and the sentinel once more. -/
theorem runInstrs_hist {x : List Byte} (hx : x.length + 1 < 2 ^ 32) {s : State} (hs : s.phase ∈ callStarts) :
    ∃ f, runInstrs (histCmds x) s = .next (s.withTable .wReady f (x.length + 2)) ∧
      ∀ y, (symGet f y).toNat = (x.countP fun b => maskedSym b == y) + if y = 0 then 1 else 0 := by
  obtain ⟨g, hg, hcount⟩ := runInstrs_wcnts x s (f := Vector.replicate 128 0) 1 fun y => by simp; omega
  replace hcount (y : Sym) : (symGet g y).toNat = x.countP fun b => maskedSym b == y := by simp [hcount]
  have hzero : (symGet g 0).toNat < 2 ^ 32 - 1 := by
    have := List.countP_le_length (p := fun b => maskedSym b == 0) (l := x)
    rw [hcount]
    omega
  refine ⟨symSet g 0 (symGet g 0 + 1), ?_, fun y => ?_⟩
  · rw [histCmds, runInstrs_append, runInstrs, exec_wclr_withTable hs, andThen_next, hg, andThen_next, runInstrs,
      exec_wend_withTable s _ (ne_max_of_toNat_lt hzero), Nat.add_comm 1]
    rfl
  · simp only [toNat_symGet_count hzero, hcount, eq_comm]

/-- The counts of a text cover it: each symbol of it, and the sentinel, has been counted. -/
theorem coversText_of_counts {f : Vector Weight 128} {x : List Byte} (opt : Bool)
    (h : ∀ y, (symGet f y).toNat = (x.countP fun b => maskedSym b == y) + if y = 0 then 1 else 0) :
    CoversText f opt x := by
  have hne {y : Sym} (hy : 0 < (symGet f y).toNat) : symGet f y ≠ 0 := by
    intro h0
    simp [h0] at hy
  have hsent : symGet f 0 ≠ 0 := hne (by rw [h]; simp)
  refine ⟨⟨0, hsent⟩, fun _ => ⟨hsent, fun b hb => hne ?_⟩⟩
  have hpos : 0 < x.countP fun c => maskedSym c == maskedSym b := List.countP_pos_iff.2 ⟨b, hb, by simp⟩
  exact Nat.lt_of_lt_of_le hpos ((h _).symm ▸ Nat.le_add_right ..)

/-- R72: a weight source that suffices leaves a closed table that covers the text. -/
theorem runInstrs_weights {x : List Byte} {opt : Bool} {src : Option WeightTable} (h : WeightsSuffice x opt src)
    {s : State} (hs : s.phase ∈ callStarts) :
    ∃ f k, runInstrs (weightCmds x src) s = .next (s.withTable .wReady f k) ∧ CoversText f opt x ∧
      ∀ tbl, src = some tbl → TableOf tbl f := by
  cases src with
  | none =>
    obtain ⟨f, hrun, hcount⟩ := runInstrs_hist h hs
    exact ⟨f, _, hrun, coversText_of_counts opt hcount, nofun⟩
  | some tbl =>
    obtain ⟨f, htbl, hcov⟩ := h
    exact ⟨f, _, runInstrs_loadw htbl hs, hcov, by rintro _ ⟨⟩; exact htbl⟩

end Sys2Proof.Machine
end

section
/-!
PROOFS. ENCODE with a loaded table (O56). TBUILD and CGEN give a tree and a code table that depend on the weights and the
flag alone (`exists_builtTree`); the packer then emits the codes bit by bit, or the first symbol without code raises
`NO_CODE`. Which symbols have a code is R101, read through `CodesOk`.
-/

namespace Sys2Proof.Machine

/-! ### The tree and its codes (R72) -/

/-- The state after TBUILD and CGEN, both answered `OK`. -/
def State.withTree (s : State) (opt : Bool) (nodes : List NodeRec) (nleaf : Nat) (root : Idx) (tab : Vector Bits 128) :
    State :=
  { s with
    n := some nodes, nleaf := BitVec.ofNat 8 nleaf, nnode := BitVec.ofNat 8 nodes.length, root := root, topt := opt
    c := some tab, phase := .cReady, rsps := s.rsps ++ [⟨.ok, 0⟩, ⟨.ok, 0⟩] }

@[simp] theorem State.withTree_rsps (s : State) (opt : Bool) (nodes : List NodeRec) (nleaf : Nat) (root : Idx)
    (tab : Vector Bits 128) : (s.withTree opt nodes nleaf root tab).rsps = s.rsps ++ [⟨.ok, 0⟩, ⟨.ok, 0⟩] := rfl

theorem allZero_eq_true_iff {f : Vector Weight 128} : allZero f = true ↔ ∀ x, symGet f x = 0 := by
  simp [allZero, mem_allSyms]

theorem allZero_eq_false_iff {f : Vector Weight 128} : allZero f = false ↔ ∃ x, symGet f x ≠ 0 := by
  rw [← Bool.not_eq_true, allZero_eq_true_iff, not_forall]

theorem exec_tbuild {s : State} {f : Vector Weight 128} (hs : s.phase = .wReady) (hw : s.w = some f)
    (hz : allZero f = false) (opt : Bool) :
    exec (.tbuild opt) s = .next ({ s with
      n := some (buildTree f opt)
      nleaf := BitVec.ofNat 8 (seedLeaves f opt).length
      nnode := BitVec.ofNat 8 (buildTree f opt).length
      root := BitVec.ofNat 8 ((buildTree f opt).length - 1)
      topt := opt
      phase := .tReady }.ok 0) :=
  exec_of_effect (by rw [hs]; rfl) ⟨f, hw, hz, rfl⟩

/-- R108: TBUILD of a table without weight. -/
theorem exec_tbuild_allZero {s : State} {f : Vector Weight 128} (hs : s.phase = .wReady) (hw : s.w = some f)
    (hz : ∀ x, symGet f x = 0) (opt : Bool) : exec (.tbuild opt) s = .next (s.takeFault .allZero 0x20 0) :=
  (guarded_of_legal (by rw [hs]; nofun) (by rw [hs]; rfl) _).trans
    (by rw [hw, withStore_some, if_pos (allZero_eq_true_iff.2 hz)]; rfl)

theorem exec_cgen {s : State} {nodes : List NodeRec} {codes : List (Sym × Bits)} (hs : s.phase = .tReady)
    (hn : s.n = some nodes) (hcodes : leafCodes nodes s.root = some codes) :
    exec .cgen s = .next ({ s with c := some (codeTable codes), phase := .cReady }.ok 0) :=
  exec_of_effect (by rw [hs]; rfl) ⟨nodes, codes, hn, hcodes, rfl⟩

/-- R100, R120: a table with a weight has a tree in good order and codes in good order for it, and these are what TBUILD
and CGEN build in every state that holds the table (R109). -/
theorem exists_builtTree {f : Vector Weight 128} (opt : Bool) (h : ∃ x, symGet f x ≠ 0) :
    ∃ nodes nleaf root tab, TreeOk f opt nodes nleaf ∧ root.toNat + 1 = nodes.length ∧ CodesOk nodes root.toNat tab ∧
      ∀ s : State, s.phase = .wReady → s.w = some f →
        runInstrs (buildCmds opt) s = .next (s.withTree opt nodes nleaf root tab) := by
  have hz := allZero_eq_false_iff.2 h
  have htree := (buildTree_spec opt hz).1
  have hcount := htree.leafCount
  have hlen := htree.nodeCount
  have hroot : (BitVec.ofNat 8 ((buildTree f opt).length - 1)).toNat + 1 = (buildTree f opt).length := by
    rw [BitVec.toNat_ofNat]
    omega
  obtain ⟨codes, hcodes, hok, -⟩ := htree.codeTable_spec hroot
  refine ⟨_, _, _, _, htree, hroot, hok, fun s hs hw => ?_⟩
  rw [buildCmds, runInstrs, exec_tbuild hs hw hz, andThen_next, runInstrs, exec_cgen rfl rfl hcodes]
  simp [runInstrs, State.withTree, State.ok, State.respond]

/-- R101, R120: exactly the admitted symbols have a code. -/
theorem TreeOk.code_ne_nil_iff {f : Vector Weight 128} {opt : Bool} {nodes : List NodeRec} {nleaf root : Nat}
    {tab : Vector Bits 128} (h : TreeOk f opt nodes nleaf) (hroot : root + 1 = nodes.length)
    (hc : CodesOk nodes root tab) (x : Sym) : symGet tab x ≠ [] ↔ opt = false ∨ symGet f x ≠ 0 := by
  rw [← h.admission x]
  constructor
  · intro hne
    obtain ⟨i, r, hr, hl, hx⟩ := not_not.1 (mt (hc.uncoded x) hne)
    exact ⟨i, (h.leaf_iff hr).1 hl, r, hr, hl, hx⟩
  · rintro ⟨i, -, hi⟩ hnil
    have hlen := (h.code_length hroot (hc.coded x ⟨i, hi⟩)).2.1
    simp [hnil] at hlen

/-- R101, R136: a table with a weight covers a text exactly where each of its symbols, and the sentinel, has a code. -/
theorem TreeOk.coversText_iff {f : Vector Weight 128} {opt : Bool} {nodes : List NodeRec} {nleaf root : Nat}
    {tab : Vector Bits 128} (h : TreeOk f opt nodes nleaf) (hroot : root + 1 = nodes.length)
    (hc : CodesOk nodes root tab) (hf : ∃ y, symGet f y ≠ 0) (x : List Byte) :
    CoversText f opt x ↔ symGet tab 0 ≠ [] ∧ ∀ b ∈ x, symGet tab (maskedSym b) ≠ [] := by
  simp only [h.code_ne_nil_iff hroot hc]
  cases opt with
  | false => simpa [CoversText] using hf
  | true =>
    exact ⟨fun hcov => by simpa [maskedSym] using hcov.2 rfl,
      fun hall => ⟨hf, fun _ => by simpa [maskedSym] using hall⟩⟩

/-! ### The packer on a text whose symbols have codes (R132 to R135) -/

theorem exec_estart {s : State} (hs : s.phase = .cReady) :
    exec .estart s = .next ({ s with pb := [], phase := .enc }.ok 0) :=
  exec_of_effect (by rw [hs]; rfl) rfl

theorem exec_esym {s : State} {tab : Vector Bits 128} {b : Byte} (hs : s.phase = .enc) (hc : s.c = some tab)
    (hb : symGet tab (maskedSym b) ≠ []) :
    exec (.esym b) s = .next (s.packed (pushBits ⟨s.pb, []⟩ (symGet tab (maskedSym b))) .enc) :=
  exec_of_effect (by rw [hs]; rfl) ⟨tab, hc, hb, by rw [hs]⟩

theorem exec_eend {s : State} {tab : Vector Bits 128} (hs : s.phase = .enc) (hc : s.c = some tab)
    (h0 : symGet tab 0 ≠ []) :
    exec .eend s = .next (s.packed (padZeros 7 (pushBits ⟨s.pb, []⟩ (symGet tab 0))) .encDone) :=
  exec_of_effect (by rw [hs]; rfl) ⟨tab, hc, h0, rfl⟩

/-- R132, R135: the codes of the text go behind the bits already pending, which leave as whole bytes. -/
theorem runInstrs_esyms {x : List Byte} {s : State} {tab : Vector Bits 128} (hs : s.phase = .enc) (hc : s.c = some tab)
    (hpb : s.pb.length ≤ 7) (hx : ∀ b ∈ x, symGet tab (maskedSym b) ≠ []) :
    ∃ ys pb rsps, pb.length ≤ 7 ∧ ys.flatMap bits8 ++ pb = s.pb ++ x.flatMap (fun b => symGet tab (maskedSym b)) ∧
      runInstrs (x.map .esym) s = .next { s with pb := pb, out := s.out ++ ys, rsps := rsps } := by
  induction x generalizing s with
  | nil => exact ⟨[], s.pb, s.rsps, hpb, by simp, by simp [runInstrs]⟩
  | cons b x ih =>
    obtain ⟨hb, hx⟩ := List.forall_mem_cons.1 hx
    obtain ⟨hlen, es, hes, hbits⟩ := pushBits_spec (p := ⟨s.pb, []⟩) (symGet tab (maskedSym b)) hpb
    obtain ⟨ys, pb, rsps, hpb', hys, hrun⟩ := ih
      (s := s.packed (pushBits ⟨s.pb, []⟩ (symGet tab (maskedSym b))) .enc) rfl hc (by rw [State.packed_pb]; omega) hx
    refine ⟨es ++ ys, pb, rsps, hpb', ?_, ?_⟩
    · rw [List.flatMap_append, List.append_assoc, hys, State.packed_pb, ← List.append_assoc, hbits, List.flatMap_cons,
        List.append_assoc]
    · rw [List.map_cons, runInstrs, exec_esym hs hc hb, andThen_next, hrun]
      simp [State.packed, State.ok, State.respond, State.emit, hes, hs]

/-- R133, R134: the sentinel's code goes behind them, then fewer than 8 zeros. -/
theorem exec_eend_bits {s : State} {tab : Vector Bits 128} (hs : s.phase = .enc) (hc : s.c = some tab)
    (hpb : s.pb.length ≤ 7) (h0 : symGet tab 0 ≠ []) :
    ∃ ys k rsps, k < 8 ∧ ys.flatMap bits8 = s.pb ++ symGet tab 0 ++ List.replicate k false ∧
      exec .eend s = .next { s with pb := [], phase := .encDone, out := s.out ++ ys, rsps := rsps } := by
  have hend := exec_eend hs hc h0
  obtain ⟨hlen, es, hes, hbits⟩ := pushBits_spec (p := ⟨s.pb, []⟩) (symGet tab 0) hpb
  generalize pushBits ⟨s.pb, []⟩ (symGet tab 0) = p at hend hlen hes hbits
  obtain ⟨hnil, es', hes', hbits'⟩ := padZeros_spec (fuel := 7) (p := p) (by omega)
    (by rw [← List.length_eq_zero_iff]; omega)
  refine ⟨es ++ es', (8 - p.pb.length % 8) % 8, s.rsps ++ [⟨.ok, BitVec.ofNat 136 (es ++ es').length⟩],
    Nat.mod_lt _ (by decide), ?_, ?_⟩
  · rw [List.flatMap_append, hbits', ← List.append_assoc, hbits]
  · rw [hend, State.packed, hnil, hes', hes]
    rfl

/-- R72, R135: an encode of a text whose symbols have codes, and the sentinel one, emits them all. -/
theorem runInstrs_pack {x : List Byte} {s : State} {tab : Vector Bits 128} (hs : s.phase = .cReady) (hc : s.c = some tab)
    (hx : ∀ b ∈ x, symGet tab (maskedSym b) ≠ []) (h0 : symGet tab 0 ≠ []) :
    ∃ ys k rsps, k < 8 ∧
      ys.flatMap bits8 = x.flatMap (fun b => symGet tab (maskedSym b)) ++ symGet tab 0 ++ List.replicate k false ∧
      runInstrs (packCmds x) s = .next { s with pb := [], phase := .encDone, out := s.out ++ ys, rsps := rsps } := by
  obtain ⟨ys, pb, rsps, hpb, hys, hrun⟩ := runInstrs_esyms (s := { s with pb := [], phase := .enc }.ok 0) rfl hc
    (Nat.zero_le _) hx
  obtain ⟨ys', k, rsps', hk, hys', hend⟩ := exec_eend_bits
    (s := { { s with pb := [], phase := .enc }.ok 0 with pb := pb, out := s.out ++ ys, rsps := rsps }) rfl hc hpb h0
  refine ⟨ys ++ ys', k, rsps', hk, ?_, ?_⟩
  · rw [List.flatMap_append, hys', ← List.append_assoc, ← List.append_assoc, hys]
    rfl
  · rw [packCmds, runInstrs_append, runInstrs, exec_estart hs, andThen_next, hrun, andThen_next, runInstrs,
      ← List.append_assoc]
    exact congrArg (andThen · _) hend

/-! ### Faults of an encode -/

theorem pack_ne_control (x : List Byte) : ∀ i ∈ packCmds x, i ≠ .stat ∧ i ≠ .srst := by
  simp only [packCmds, List.mem_append, List.mem_cons, List.mem_map, List.not_mem_nil, or_false]
  rintro _ ((rfl | ⟨b, -, rfl⟩) | rfl) <;> simp

theorem exec_esym_noCode {s : State} {tab : Vector Bits 128} {b : Byte} (hs : s.phase = .enc) (hc : s.c = some tab)
    (hb : symGet tab (maskedSym b) = []) : exec (.esym b) s = .next (s.takeFault .noCode 0x41 b) :=
  (guarded_of_legal (by rw [hs]; nofun) (by rw [hs]; rfl) _).trans
    (by rw [hc, withStore_some, withCode, if_pos hb]; rfl)

theorem exec_eend_noCode {s : State} {tab : Vector Bits 128} (hs : s.phase = .enc) (hc : s.c = some tab)
    (h0 : symGet tab 0 = []) : exec .eend s = .next (s.takeFault .noCode 0x42 0) :=
  (guarded_of_legal (by rw [hs]; nofun) (by rw [hs]; rfl) _).trans
    (by rw [hc, withStore_some, withCode, if_pos h0]; rfl)

/-- R136: the first symbol without code raises `NO_CODE`, be it one of the text or the sentinel. -/
theorem runInstrs_noCode {x : List Byte} {s : State} {tab : Vector Bits 128} (hs : s.phase = .enc) (hc : s.c = some tab)
    (h : ¬ (symGet tab 0 ≠ [] ∧ ∀ b ∈ x, symGet tab (maskedSym b) ≠ [])) :
    ∃ t, runInstrs (x.map .esym ++ [.eend]) s = .next t ∧ t.phase = .fault ∧ t.fcause = 6 ∧ t.fop ∈ [0x41, 0x42] := by
  induction x generalizing s with
  | nil =>
    have h0 : symGet tab 0 = [] := by simpa using h
    exact ⟨_, congrArg (andThen · _) (exec_eend_noCode hs hc h0), rfl, rfl, by simp⟩
  | cons b x ih =>
    rw [List.map_cons, List.cons_append, runInstrs]
    by_cases hb : symGet tab (maskedSym b) = []
    · have hrest : ∀ i ∈ x.map Instr.esym ++ [.eend], i ≠ .stat ∧ i ≠ .srst :=
        List.forall_mem_of_forall_mem_cons (pack_ne_control x)
      rw [exec_esym_noCode hs hc hb, andThen_next, runInstrs_in_fault hrest rfl]
      exact ⟨_, rfl, rfl, rfl, by simp⟩
    · rw [exec_esym hs hc hb, andThen_next]
      exact ih rfl hc fun hall => h ⟨hall.1, List.forall_mem_cons.2 ⟨hb, hall.2⟩⟩

/-- R108: without a weight TBUILD faults, and CGEN is refused. -/
theorem runInstrs_build_allZero {s : State} {f : Vector Weight 128} (hs : s.phase = .wReady) (hw : s.w = some f)
    (hz : ∀ x, symGet f x = 0) (opt : Bool) :
    ∃ rsps, runInstrs (buildCmds opt) s = .next { s.takeFault .allZero 0x20 0 with rsps := rsps } := by
  rw [buildCmds, runInstrs, exec_tbuild_allZero hs hw hz, andThen_next, runInstrs_in_fault (by simp) rfl]
  exact ⟨_, rfl⟩

/-! ### ENCODE -/

theorem runInstrs_encode {x : List Byte} {src : Option WeightTable} {s u : State} (opt : Bool)
    (h : runInstrs (weightCmds x src) s = .next u) :
    runInstrs (encodeCmds x src opt) s = andThen (runInstrs (buildCmds opt) u) (runInstrs (packCmds x)) := by
  rw [encodeCmds, List.append_assoc, runInstrs_append, h, andThen_next, runInstrs_append]

/-- Settles O56: TBUILD faults, or the tree is built and the packer faults or completes as the table covers the text. -/
theorem encodeWithALoadedTable : Obligations.EncodeWithALoadedTable := by
  intro tbl f x opt s hs htbl
  rw [runInstrs_encode opt (src := some tbl) (runInstrs_loadw htbl hs)]
  refine ⟨fun hz => ?_, fun hf hcov => ?_, fun hcov => ?_⟩
  · obtain ⟨rsps, hbuild⟩ := runInstrs_build_allZero (s := s.withTable .wReady f (tbl.length + 2)) rfl rfl hz opt
    rw [hbuild, andThen_next, runInstrs_in_fault (pack_ne_control x) rfl]
    exact ⟨_, rfl, rfl, rfl, rfl, rfl⟩
  · obtain ⟨nodes, nleaf, root, tab, htree, hroot, hcodes, hbuild⟩ := exists_builtTree opt hf
    rw [htree.coversText_iff hroot hcodes hf] at hcov
    rw [hbuild _ rfl rfl, andThen_next, packCmds, List.cons_append, runInstrs, exec_estart rfl, andThen_next]
    exact runInstrs_noCode rfl rfl hcov
  · obtain ⟨nodes, nleaf, root, tab, htree, hroot, hcodes, hbuild⟩ := exists_builtTree opt hcov.1
    obtain ⟨h0, hx⟩ := (htree.coversText_iff hroot hcodes hcov.1 x).1 hcov
    obtain ⟨ys, k, rsps, hk, hys, hrun⟩ := runInstrs_pack
      (s := (s.withTable .wReady f (tbl.length + 2)).withTree opt nodes nleaf root tab) rfl rfl hx h0
    rw [hbuild _ rfl rfl, andThen_next]
    exact ⟨_, nodes, tab, ys, hrun, rfl, rfl, rfl, rfl, hcodes, rfl, k, hk, hys⟩

end Sys2Proof.Machine
end

section
/-!
PROOFS. DECODE (O57) and the round trip of whole calls (O54). What DSTART, the bytes and DEND do is decided by DBYTE's loop
over all the bits of the stream at once (`unpackEnds`): it stops inside, at `done` or at a bit that is no code, or it does
not stop and DEND faults. So O57 asks how that loop can end in the tree of a table, and O54 that it meets the sentinel on
the bits an encode emits.
-/

namespace Sys2Proof.Machine

/-! ### The bytes of a stream -/

section DecodeByte
variable {t : State} {nodes : List NodeRec} {b : Byte} {c : Idx} {es : List Byte}

theorem exec_dbyte_more (ht : t.phase = .dec) (hn : t.n = some nodes)
    (hw : walkBits nodes t.root (bits8 b) t.dcur [] = .more c es) :
    exec (.dbyte b) t = .next (({ t with dcur := c }.emit es).ok (dbyteData es.length false)) :=
  exec_of_effect (by rw [ht]; rfl) ⟨nodes, c, es, hn, .inl ⟨hw, rfl⟩⟩

theorem exec_dbyte_done (ht : t.phase = .dec) (hn : t.n = some nodes)
    (hw : walkBits nodes t.root (bits8 b) t.dcur [] = .done c es) :
    exec (.dbyte b) t = .next (({ t with dcur := c, phase := .decDone }.emit es).ok (dbyteData es.length true)) :=
  exec_of_effect (by rw [ht]; rfl) ⟨nodes, c, es, hn, .inr ⟨hw, rfl⟩⟩

theorem exec_dbyte_badCode (ht : t.phase = .dec) (hn : t.n = some nodes)
    (hw : walkBits nodes t.root (bits8 b) t.dcur [] = .badCode es) :
    exec (.dbyte b) t = .next ((t.emit es).takeFault .badCode 0x51 b) :=
  (guarded_of_legal (by rw [ht]; nofun) (by rw [ht]; rfl) _).trans (by rw [hn, withStore_some, hw]; rfl)

end DecodeByte

/-- R73: a byte whose response has no `done` is followed by the next … -/
theorem feedBytes_cons_of_not_done {b : Byte} {t u : State} (h : exec (.dbyte b) t = .next u)
    (hd : u.answeredDone = false) (y : List Byte) : feedBytes (b :: y) t = feedBytes y u := by
  rw [feedBytes, h, andThen_next, hd, if_neg (by decide)]

/-- … and one with `done` by none. -/
theorem feedBytes_cons_of_done {b : Byte} {t u : State} (h : exec (.dbyte b) t = .next u)
    (hd : u.answeredDone = true) (y : List Byte) : feedBytes (b :: y) t = .next u := by
  rw [feedBytes, h, andThen_next, hd, if_pos rfl]

/-- What feeding the bytes `y` in `DEC` leaves, as DBYTE's loop over all their bits ends; `o` is what stood in `OUT`
before anything that loop has emitted. -/
def FeedEnds (o : List Byte) (y : List Byte) (t : State) : WalkEnd → Prop
  | .more _ _ => ∃ u, feedBytes y t = .next u ∧ u.phase = .dec ∧ u.rsps.length = t.rsps.length + y.length
  | .done _ es => ∃ u, (∀ zs, feedBytes (y ++ zs) t = .next u) ∧ u.phase = .decDone ∧ u.out = o ++ es
  | .badCode _ => ∃ u, feedBytes y t = .next u ∧ u.phase = .fault ∧ u.fcause = 7 ∧ u.fop = 0x51
  | .corrupt => True

theorem FeedEnds.cons {o y : List Byte} {b : Byte} {t u : State} {e : WalkEnd} (h : FeedEnds o y u e)
    (hfeed : ∀ y, feedBytes (b :: y) t = feedBytes y u) (hlen : u.rsps.length = t.rsps.length + 1) :
    FeedEnds o (b :: y) t e := by
  cases e with
  | more c es =>
    obtain ⟨v, hrun, hv, hrsps⟩ := h
    exact ⟨v, by rw [hfeed, hrun], hv, by rw [hrsps, hlen, List.length_cons]; omega⟩
  | done c es =>
    obtain ⟨v, hrun, hv⟩ := h
    exact ⟨v, fun zs => by rw [List.cons_append, hfeed, hrun], hv⟩
  | badCode es =>
    obtain ⟨v, hrun, hv⟩ := h
    exact ⟨v, by rw [hfeed, hrun], hv⟩
  | corrupt => trivial

/-- R73, R151: the bytes one after the other are one loop over their bits, which a `done` or a fault ends. -/
theorem feedEnds (y : List Byte) {t : State} {nodes : List NodeRec} {o e : List Byte} (ht : t.phase = .dec)
    (hn : t.n = some nodes) (ho : t.out = o ++ e) :
    FeedEnds o y t (walkBits nodes t.root (y.flatMap bits8) t.dcur e) := by
  induction y generalizing t e with
  | nil => exact ⟨t, rfl, ht, rfl⟩
  | cons b y ih =>
    have hemit := walkBits_emitted nodes t.root (bits8 b) t.dcur e []
    rw [List.append_nil] at hemit
    rw [List.flatMap_cons, walkBits_append, hemit]
    cases hw : walkBits nodes t.root (bits8 b) t.dcur [] with
    | more c es =>
      have hrest := ih (t := ({ t with dcur := c }.emit es).ok (dbyteData es.length false)) (e := e ++ es) ht hn
        (by simp [ho])
      have hd := (answeredDone_ok ({ t with dcur := c }.emit es) _).trans (dbyteData_done es.length false)
      exact hrest.cons (feedBytes_cons_of_not_done (exec_dbyte_more ht hn hw) hd) (by simp)
    | done c es =>
      have hd := (answeredDone_ok ({ t with dcur := c, phase := .decDone }.emit es) _).trans
        (dbyteData_done es.length true)
      exact ⟨_, fun zs => feedBytes_cons_of_done (exec_dbyte_done ht hn hw) hd (y ++ zs), rfl, by simp [ho]⟩
    | badCode es =>
      have hfeed := feedBytes_cons_of_not_done (exec_dbyte_badCode ht hn hw) (answeredDone_takeFault ..) y
      exact ⟨_, by rw [hfeed, feedBytes_in_fault y rfl], rfl, rfl, rfl⟩
    | corrupt => trivial

/-! ### DSTART, the bytes, DEND -/

theorem exec_dstart {s : State} (hs : s.phase = .cReady) :
    exec .dstart s = .next ({ s with dcur := s.root, phase := .dec }.ok 0) :=
  exec_of_effect (by rw [hs]; rfl) rfl

theorem exec_dend_done {s : State} (hs : s.phase = .decDone) : exec .dend s = .next (s.ok 0) :=
  exec_of_effect (by rw [hs]; rfl) ⟨hs, rfl⟩

theorem exec_dend_truncated {s : State} (hs : s.phase = .dec) : exec .dend s = .next (s.takeFault .truncated 0x52 0) :=
  (guarded_of_legal (by rw [hs]; nofun) (by rw [hs]; rfl) _).trans (if_pos hs)

/-- What unpacking `y` from `C_READY` leaves, as DBYTE's loop over all its bits from the root ends. -/
def UnpackEnds (y : List Byte) (s : State) : WalkEnd → Prop
  | .more _ _ => ∃ t, unpack y s = .next t ∧ t.phase = .fault ∧ t.fcause = 8 ∧ t.fop = 0x52 ∧
      t.rsps.length = s.rsps.length + y.length + 2
  | .done _ es => ∃ t, (∀ zs, unpack (y ++ zs) s = .next t) ∧ t.phase = .decDone ∧ t.out = s.out ++ es ∧
      t.rsps.getLast? = some ⟨.ok, 0⟩
  | .badCode _ => ∃ t, unpack y s = .next t ∧ t.phase = .fault ∧ t.fcause = 7 ∧ t.fop = 0x51
  | .corrupt => True

theorem unpackEnds (y : List Byte) {s : State} {nodes : List NodeRec} (hs : s.phase = .cReady) (hn : s.n = some nodes) :
    UnpackEnds y s (walkBits nodes s.root (y.flatMap bits8) s.root []) := by
  have hunpack (y : List Byte) {u v : State}
      (hfeed : feedBytes y ({ s with dcur := s.root, phase := .dec }.ok 0) = .next u) (hend : exec .dend u = .next v) :
      unpack y s = .next v := by
    rw [unpack, exec_dstart hs, andThen_next, hfeed, andThen_next, hend]
  have hends : FeedEnds s.out y _ (walkBits nodes s.root (y.flatMap bits8) s.root []) :=
    feedEnds y (t := { s with dcur := s.root, phase := .dec }.ok 0) rfl hn (List.append_nil _).symm
  cases hw : walkBits nodes s.root (y.flatMap bits8) s.root [] with
  | more c es =>
    obtain ⟨u, hrun, hu, hlen⟩ := hw ▸ hends
    refine ⟨_, hunpack y hrun (exec_dend_truncated hu), rfl, rfl, rfl, ?_⟩
    simp only [State.takeFault_rsps, hlen, List.length_append, State.ok_rsps, List.length_singleton]
    omega
  | done c es =>
    obtain ⟨u, hrun, hu, hout⟩ := hw ▸ hends
    exact ⟨_, fun zs => hunpack _ (hrun zs) (exec_dend_done hu), hu, hout, by simp⟩
  | badCode es =>
    obtain ⟨u, hrun, hu, hcause, hop⟩ := hw ▸ hends
    exact ⟨_, hunpack y hrun (exec_in_fault hu (by simp) (by simp)), hu, hcause, hop⟩
  | corrupt => trivial

/-! ### How the loop ends in the tree of a table -/

section Tree
variable {f : Vector Weight 128} {opt : Bool} {nodes : List NodeRec} {nleaf : Nat} (h : TreeOk f opt nodes nleaf)
include h

/-- R106: where the root is a leaf it is the only one. -/
theorem TreeOk.eq_of_lone {root i : Nat} {x z : Sym} (hroot : root + 1 = nodes.length) (hx : IsLeafOf nodes root x)
    (hz : IsLeafOf nodes i z) : z = x := by
  obtain ⟨r, hr, hl, hs⟩ := hx
  obtain ⟨r', hr', -, hs'⟩ := hz
  have hlone := (h.leaf_iff hr).1 hl
  have hcount := h.nodeCount
  have hi := getElem?_lt hr'
  obtain rfl : i = root := by omega
  obtain rfl := Option.some.inj (hr.symm.trans hr')
  exact setWidth_sym_inj (hs'.symm.trans hs)

/-- R106, R155: such a tree comes from `opt` = 1 and a lone symbol of nonzero weight. -/
theorem TreeOk.lone_symbol {root : Nat} {x : Sym} (hroot : root + 1 = nodes.length) (hx : IsLeafOf nodes root x) :
    opt = true ∧ ∀ z, z ≠ x → symGet f z = 0 := by
  have hlone (z : Sym) (hz : opt = false ∨ symGet f z ≠ 0) : z = x := by
    obtain ⟨i, -, hi⟩ := (h.admission z).2 hz
    exact h.eq_of_lone hroot hx hi
  cases opt with
  | true => exact ⟨rfl, fun z hz => not_not.1 fun hne => hz (hlone z (.inr hne))⟩
  | false => exact absurd ((hlone 0 (.inl rfl)).trans (hlone 1 (.inl rfl)).symm) (by decide)

/-- R153, R155: only there a bit can be no code. -/
theorem TreeOk.lone_of_badCode {root : Idx} (hroot : root.toNat + 1 = nodes.length) {bits : Bits} {es : List Byte}
    (hw : walkBits nodes root bits root [] = .badCode es) : ∃ x, IsLeafOf nodes root.toNat x := by
  refine (h.leaf_or_inner (show root.toNat < nodes.length by omega)).resolve_right fun hin => ?_
  obtain ⟨_, -, -, ⟨_, -, hw'⟩ | hw'⟩ := h.walkBits_total hin hin bits [] <;> simp [hw'] at hw

/-- R159: the loop turns the codes of a text without symbol 0, and the sentinel's, into the text and ends there. -/
theorem TreeOk.walkBits_codes {root : Idx} (hroot : root.toNat + 1 = nodes.length) {tab : Vector Bits 128}
    (hcodes : CodesOk nodes root.toNat tab) {syms : List Sym} (hcoded : ∀ x ∈ syms, symGet tab x ≠ [])
    (hne : ∀ x ∈ syms, x ≠ 0) (h0 : symGet tab 0 ≠ []) (rest : Bits) :
    walkBits nodes root (syms.flatMap (symGet tab) ++ (symGet tab 0 ++ rest)) root [] =
      .done root (syms.map (BitVec.setWidth 8)) := by
  have hleaf {x : Sym} (hx : symGet tab x ≠ []) : ∃ i, IsLeafOf nodes i x := not_not.1 (mt (hcodes.uncoded x) hx)
  have hcode {x : Sym} (hx : symGet tab x ≠ []) : IsCodeOf nodes root.toNat x (symGet tab x) :=
    hcodes.coded x (hleaf hx)
  rcases h.leaf_or_inner (show root.toNat < nodes.length by omega) with ⟨x, hx⟩ | hin
  · have hlone {z : Sym} (hz : symGet tab z ≠ []) : z = x := by
      obtain ⟨i, hi⟩ := hleaf hz
      exact h.eq_of_lone hroot hx hi
    obtain rfl := hlone h0
    have hnil : syms = [] := List.eq_nil_iff_forall_not_mem.2 fun z hz => hne z hz (hlone (hcoded z hz))
    have hzero : symGet tab 0 = [false] :=
      ((hcode h0).resolve_right fun hin => not_inner_of_leaf hx hin.1).2
    rw [hnil, hzero]
    exact walkBits_lone_sentinel hx rest []
  · exact h.walkBits_done hin syms (fun x hx => hcode (hcoded x hx)) hne (hcode h0) rfl hin (List.nil_append _)

end Tree

/-! ### DECODE -/

theorem runDecode_eq {tbl : WeightTable} {f : Vector Weight 128} (h : TableOf tbl f) (y : List Byte) (opt : Bool)
    {s : State} (hs : s.phase ∈ callStarts) :
    runDecode y tbl opt s =
      andThen (runInstrs (buildCmds opt) (s.withTable .wReady f (tbl.length + 2))) (unpack y) := by
  rw [runDecode, runInstrs_append, runInstrs_loadw h hs, andThen_next]

/-- R184: in `FAULT` unpacking is refused command by command. -/
theorem unpack_in_fault (y : List Byte) {s : State} (hs : s.phase = .fault) :
    unpack y s = .next { s with
      rsps := s.rsps ++ List.replicate (y.length + 2) ⟨.refused, s.fcause.setWidth 136⟩ } := by
  rw [unpack, exec_in_fault hs (by simp) (by simp), andThen_next, feedBytes_in_fault y (s := s.refuse) hs, andThen_next,
    exec_in_fault (by exact hs) (by simp) (by simp), List.replicate_succ, List.replicate_succ']
  simp [State.refuse, State.respond]

/-- Settles O57: TBUILD faults, or the tree is in good order and `unpackEnds` gives the three ends. -/
theorem decodeStopsAtTheSentinelOrTheEnd : Obligations.DecodeStopsAtTheSentinelOrTheEnd := by
  intro tbl f y opt s hs htbl
  simp only [runDecode_eq htbl _ opt hs]
  refine ⟨fun hz => ?_, fun hf => ?_⟩
  · obtain ⟨rsps, hbuild⟩ := runInstrs_build_allZero (s := s.withTable .wReady f (tbl.length + 2)) rfl rfl hz opt
    rw [hbuild, andThen_next, unpack_in_fault y rfl]
    exact ⟨_, rfl, rfl, rfl, rfl, rfl⟩
  · obtain ⟨nodes, nleaf, root, tab, htree, hroot, -, hbuild⟩ := exists_builtTree opt hf
    rw [hbuild _ rfl rfl]
    have hends : UnpackEnds y _ (walkBits nodes root (y.flatMap bits8) root []) :=
      unpackEnds y (s := (s.withTable .wReady f (tbl.length + 2)).withTree opt nodes nleaf root tab) rfl rfl
    cases hw : walkBits nodes root (y.flatMap bits8) root [] with
    | more c es =>
      obtain ⟨t, hrun, hp, hcause, hop, hlen⟩ := hw ▸ hends
      refine ⟨t, hrun, .inr (.inl ⟨hp, hcause, hop, ?_⟩)⟩
      simp only [hlen, State.withTree_rsps, State.withTable_rsps, List.length_append, List.length_replicate,
        List.length_cons, List.length_nil]
      omega
    | done c es =>
      obtain ⟨t, hrun, hp, -, hlast⟩ := hw ▸ hends
      exact ⟨t, by simpa using hrun [], .inl ⟨hp, hlast, hrun⟩⟩
    | badCode es =>
      obtain ⟨t, hrun, hp, hcause, hop⟩ := hw ▸ hends
      obtain ⟨x, hx⟩ := htree.lone_of_badCode hroot hw
      obtain ⟨hopt, hlone⟩ := htree.lone_symbol hroot hx
      exact ⟨t, hrun, .inr (.inr ⟨hp, hcause, hop, hopt, x, hlone⟩)⟩
    | corrupt => exact absurd hw (htree.walkBits_ne_corrupt (by omega) (.inl rfl) _ _)

/-! ### The round trip -/

/-- R82: a byte up to 0x7F is its symbol. -/
theorem setWidth_maskedSym {b : Byte} (h : b.toNat ≤ 127) : (maskedSym b).setWidth 8 = b :=
  (symIndex_eq_some.1 (if_pos h)).symm

theorem maskedSym_ne_zero {b : Byte} (h : 1 ≤ b.toNat ∧ b.toNat ≤ 127) : maskedSym b ≠ 0 := by
  intro h0
  have hb := maskedSym_toNat b
  have hzero : (0 : Sym).toNat = 0 := rfl
  rw [h0, hzero] at hb
  omega

/-- R159: unpacking the bytes of a text over 0x01 to 0x7F gives the text, whatever bytes follow. -/
theorem unpack_packed {x ys : List Byte} {j : Nat} {s : State} {f : Vector Weight 128} {opt : Bool}
    {nodes : List NodeRec} {nleaf : Nat} {tab : Vector Bits 128} (hs : s.phase = .cReady) (hn : s.n = some nodes)
    (htree : TreeOk f opt nodes nleaf) (hroot : s.root.toNat + 1 = nodes.length)
    (hcodes : CodesOk nodes s.root.toNat tab) (hx : ∀ b ∈ x, 1 ≤ b.toNat ∧ b.toNat ≤ 127)
    (hcoded : ∀ b ∈ x, symGet tab (maskedSym b) ≠ []) (h0 : symGet tab 0 ≠ [])
    (hys : ys.flatMap bits8 =
      x.flatMap (fun b => symGet tab (maskedSym b)) ++ symGet tab 0 ++ List.replicate j false) :
    ∃ t, (∀ zs, unpack (ys ++ zs) s = .next t) ∧ t.phase = .decDone ∧ t.out = s.out ++ x := by
  have hwalk := htree.walkBits_codes hroot hcodes (syms := x.map maskedSym) (by simpa using hcoded)
    (by simpa using fun b hb => maskedSym_ne_zero (hx b hb)) h0 (List.replicate j false)
  have htext : (x.map maskedSym).map (BitVec.setWidth 8) = x := by
    rw [List.map_map]
    exact (List.map_congr_left fun b hb => setWidth_maskedSym (hx b hb).2).trans (List.map_id x)
  rw [List.flatMap_map, ← List.append_assoc, ← hys, htext] at hwalk
  obtain ⟨t, hrun, hp, hout, -⟩ := hwalk ▸ unpackEnds ys hs hn
  exact ⟨t, hrun, hp, hout⟩

/-- Settles O54: both calls build the same tree and codes, for they depend on the weights and the flag alone. -/
theorem roundTripOfWholeCalls : Obligations.RoundTripOfWholeCalls := by
  intro s s' x src opt hs hs' hx hsrc
  obtain ⟨f, k, hweights, hcov, htbl⟩ := runInstrs_weights hsrc hs
  obtain ⟨nodes, nleaf, root, tab, htree, hroot, hcodes, hbuild⟩ := exists_builtTree opt hcov.1
  obtain ⟨h0, hcoded⟩ := (htree.coversText_iff hroot hcodes hcov.1 x).1 hcov
  obtain ⟨ys, j, rsps, -, hys, hpack⟩ := runInstrs_pack
    (s := (s.withTable .wReady f k).withTree opt nodes nleaf root tab) rfl rfl hcoded h0
  rw [runInstrs_encode opt hweights, hbuild _ rfl rfl, andThen_next]
  refine ⟨_, f, ys, hpack, rfl, rfl, rfl, htbl, fun tbl zs htbl' => ?_⟩
  obtain ⟨td, hrun, hp, hout⟩ := unpack_packed
    (s := (s'.withTable .wReady f (tbl.length + 2)).withTree opt nodes nleaf root tab) rfl rfl htree hroot hcodes hx
    hcoded h0 hys
  exact ⟨td, by rw [runDecode_eq htbl' _ opt hs', hbuild _ rfl rfl, andThen_next, hrun], hp, hout⟩

end Sys2Proof.Machine
end

section
/-!
PROOFS. What the claims about single commands share: a command's word and operands as `EncodedAs`, its row of R173 as
`RaisesBadPhaseOutside`, and the converse of `exec_next_cases` for faults.
-/

namespace Sys2Proof.Machine

/-- R60, R68: the fields of a command's word are its `op` value and its operands, and no other word is its own. -/
theorem encodedAs (i : Instr) : EncodedAs i i.opcode i.operandA i.operandD := ⟨rfl, fun w => decode_eq_ok_iff w i⟩

/-- R173: where `ps` is the command's row, it raises `BAD_PHASE` outside `ps`. -/
theorem raisesBadPhaseOutside {i : Instr} {ps : List Phase} (h : ∀ p, legalIn i p = decide (p ∈ ps)) :
    RaisesBadPhaseOutside i ps :=
  fun s hf hp => exec_illegal hf (by rw [h, decide_eq_false hp])

/-- A legal command that raises a fault enters it: for faults, the converse of `exec_next_cases`. -/
theorem exec_of_raises {i : Instr} {s : State} {f : Cause} {es : List Byte} (hl : legalIn i s.phase = true)
    (hr : Raises i s f es) : exec i s = .next ((s.emit es).takeFault f i.opcode i.operandA) := by
  have hbody (body : Result) : guarded i s body = body := by
    refine guarded_of_legal (fun hf => ?_) hl body
    rw [hf, legalIn_fault] at hl
    rcases hl with rfl | rfl <;> exact hr
  cases i with
  | wclr | wseal | estart | dstart | stat | srst => exact hr.elim
  | wcnt | wend =>
    obtain ⟨rfl, ⟨hw, rfl⟩ | ⟨g, hw, hmax, rfl⟩⟩ := hr
    · exact (hbody _).trans (by rw [hw, State.emit_nil]; rfl)
    · exact (hbody _).trans (by rw [hw, withStore_some, countOne, if_pos hmax, State.emit_nil]; rfl)
  | wld | wrd | crd =>
    obtain ⟨rfl, ⟨hw, rfl⟩ | ⟨hw, ha, rfl⟩⟩ := hr
    · exact (hbody _).trans (by rw [hw, State.emit_nil]; rfl)
    · obtain ⟨g, hg⟩ := Option.isSome_iff_exists.1 hw
      exact (hbody _).trans (by rw [hg, withStore_some, withSymIndex, symIndex_eq_none.2 ha, State.emit_nil]; rfl)
  | tbuild =>
    obtain ⟨rfl, ⟨hw, rfl⟩ | ⟨g, hw, hz, rfl⟩⟩ := hr
    · exact (hbody _).trans (by rw [hw, State.emit_nil]; rfl)
    · exact (hbody _).trans (by rw [hw, withStore_some, if_pos hz, State.emit_nil]; rfl)
  | trd =>
    obtain ⟨rfl, ⟨hn, rfl⟩ | ⟨hn, ha, rfl⟩⟩ := hr
    · exact (hbody _).trans (by rw [hn, State.emit_nil]; rfl)
    · obtain ⟨nodes, hnodes⟩ := Option.isSome_iff_exists.1 hn
      exact (hbody _).trans (by rw [hnodes, withStore_some, withNodeIndex, if_pos ha, State.emit_nil]; rfl)
  | cgen =>
    obtain ⟨rfl, hn, rfl⟩ := hr
    exact (hbody _).trans (by rw [hn, State.emit_nil]; rfl)
  | esym | eend =>
    obtain ⟨rfl, ⟨hc, rfl⟩ | ⟨tab, hc, hcode, rfl⟩⟩ := hr
    · exact (hbody _).trans (by rw [hc, State.emit_nil]; rfl)
    · exact (hbody _).trans (by rw [hc, withStore_some, withCode, if_pos hcode, State.emit_nil]; rfl)
  | dbyte =>
    obtain ⟨rfl, hn, rfl⟩ | ⟨nodes, hn, hwalk, rfl⟩ := hr
    · exact (hbody _).trans (by rw [hn, State.emit_nil]; rfl)
    · exact (hbody _).trans (by rw [hn, withStore_some, hwalk]; rfl)
  | dend =>
    obtain ⟨rfl, hp, rfl⟩ := hr
    exact (hbody _).trans (by rw [if_pos hp, State.emit_nil]; rfl)

/-- … where it has emitted nothing, with nothing else changed (R185). -/
theorem exec_of_raises_nil {i : Instr} {s : State} {f : Cause} (hl : legalIn i s.phase = true) (hr : Raises i s f []) :
    exec i s = .next (s.takeFault f i.opcode i.operandA) := by
  rw [exec_of_raises hl hr, State.emit_nil]

end Sys2Proof.Machine
end

section
/-!
PROOFS. weight_histogram_counter (O23 to O30). The commands one by one are their `Effect` and their `Raises`, with the
word and the row of R173. HIST is a fold of increments: its first overflow leaves the block in `FAULT` (R184), so a run of
it that completes is one in which every byte was counted (`runInstrs_wcnts_completed`), whatever the length of the text.
-/

namespace Sys2Proof.Machine

/-! ### The commands (R80 to R87) -/

/-- R45: an index up to 127 names its own symbol. -/
theorem symIndex_of_le {a : Byte} (h : a.toNat ≤ 127) : symIndex a = some (a.setWidth 7) :=
  symIndex_eq_some.2 (by bv_omega)

/-- Settles O23: WCLR has its effect in every phase of its row. -/
theorem wclrBeginsACall : Obligations.WclrBeginsACall :=
  ⟨encodedAs _, fun _ hs => exec_of_effect (decide_eq_true hs) rfl, raisesBadPhaseOutside fun _ => rfl⟩

/-- Settles O24: WCNT counts unless the entry is full. -/
theorem wcntCountsOneByte : Obligations.WcntCountsOneByte := by
  refine fun a => ⟨encodedAs _, fun s f x hs hw hx => ?_, raisesBadPhaseOutside fun _ => rfl⟩
  have hl : legalIn (.wcnt a) s.phase = true := by rw [hs]; rfl
  subst hx
  exact ⟨fun hne => exec_of_effect hl ⟨f, hw, hne, rfl⟩,
    fun hmax => exec_of_raises_nil hl ⟨rfl, .inr ⟨f, hw, hmax, rfl⟩⟩⟩

/-- Settles O25: WEND counts the sentinel unless its entry is full. -/
theorem wendCountsTheSentinelOnce : Obligations.WendCountsTheSentinelOnce := by
  refine ⟨encodedAs _, fun s f hs hw => ?_, raisesBadPhaseOutside fun _ => rfl⟩
  have hl : legalIn .wend s.phase = true := by rw [hs]; rfl
  exact ⟨fun hne => exec_of_effect hl ⟨f, hw, hne, rfl⟩,
    fun hmax => exec_of_raises_nil hl ⟨rfl, .inr ⟨f, hw, hmax, rfl⟩⟩⟩

/-- Settles O27: WLD writes the entry its index names, if it names one. -/
theorem wldLoadsOneWeight : Obligations.WldLoadsOneWeight := by
  refine fun a d => ⟨encodedAs _, fun s f hs hw => ?_, raisesBadPhaseOutside fun _ => rfl⟩
  have hl : legalIn (.wld a d) s.phase = true := by rw [hs]; rfl
  exact ⟨fun ha => exec_of_effect hl ⟨f, _, hw, symIndex_of_le ha, rfl⟩,
    fun ha => exec_of_raises_nil hl ⟨rfl, .inr ⟨Option.isSome_of_eq_some hw, ha, rfl⟩⟩⟩

/-- Settles O28: the effect of WSEAL is on `PHASE` alone. -/
theorem wsealClosesTheTable : Obligations.WsealClosesTheTable :=
  ⟨encodedAs _, fun _ hs => exec_of_effect (by rw [hs]; rfl) rfl, raisesBadPhaseOutside fun _ => rfl⟩

/-- Settles O29: WRD answers the entry its index names, if it names one. -/
theorem wrdAnswersOneWeight : Obligations.WrdAnswersOneWeight := by
  refine fun a => ⟨encodedAs _, fun s f hs hw => ?_, raisesBadPhaseOutside fun _ => rfl⟩
  have hl : legalIn (.wrd a) s.phase = true := decide_eq_true hs
  exact ⟨fun ha => exec_of_effect hl ⟨f, _, hw, symIndex_of_le ha, rfl⟩,
    fun ha => exec_of_raises_nil hl ⟨rfl, .inr ⟨Option.isSome_of_eq_some hw, ha, rfl⟩⟩⟩

/-! ### Increments (R83) -/

/-- An entry that is not the greatest value is below it. -/
theorem toNat_lt_of_ne_max {v : Weight} (h : v ≠ 0xFFFFFFFF) : v.toNat < 2 ^ 32 - 1 := by
  bv_omega

/-- WCNT and WEND on an open table overflow where the entry is full, and count it elsewhere. -/
theorem exec_count {i : Instr} {s : State} {f : Vector Weight 128} {x : Sym}
    (hi : (∃ a : Byte, i = .wcnt a ∧ x = a.extractLsb' 0 7) ∨ (i = .wend ∧ x = 0)) (hs : s.phase = .wOpen)
    (hw : s.w = some f) :
    (symGet f x = 0xFFFFFFFF → exec i s = .next (s.takeFault .weightOverflow i.opcode i.operandA)) ∧
    (symGet f x ≠ 0xFFFFFFFF → ∃ p, p ≠ .fault ∧
      exec i s = .next ({ s with w := some (symSet f x (symGet f x + 1)), phase := p }.ok 0)) := by
  rcases hi with ⟨a, rfl, rfl⟩ | ⟨rfl, rfl⟩
  · obtain ⟨-, hexec, -⟩ := wcntCountsOneByte a
    obtain ⟨hcount, hfull⟩ := hexec s f _ hs hw rfl
    exact ⟨hfull, fun h => ⟨s.phase, by rw [hs]; nofun, hcount h⟩⟩
  · obtain ⟨-, hexec, -⟩ := wendCountsTheSentinelOnce
    obtain ⟨hcount, hfull⟩ := hexec s f hs hw
    exact ⟨hfull, fun h => ⟨.wReady, nofun, hcount h⟩⟩

/-- Settles O26: below the greatest value an increment is one of numbers, and at it the table is not written. -/
theorem countsNeverWrap : Obligations.CountsNeverWrap := by
  intro i s t f g x hi hs hw h hg
  obtain ⟨hfull, hcount⟩ := exec_count hi hs hw
  by_cases hx : symGet f x = 0xFFFFFFFF
  · obtain rfl : s.takeFault .weightOverflow i.opcode i.operandA = t := by simpa [hfull hx] using h
    obtain rfl : f = g := by simpa [hw] using hg
    exact ⟨fun _ _ => rfl, fun hlt => absurd hx (ne_max_of_toNat_lt hlt), fun _ => ⟨rfl, rfl, rfl⟩⟩
  · obtain ⟨p, hp, hexec⟩ := hcount hx
    rw [hexec, Host.Outcome.next.injEq] at h
    subst h
    obtain rfl : symSet f x (symGet f x + 1) = g := Option.some.inj hg
    refine ⟨fun y hy => symGet_symSet_ne _ _ (Ne.symm hy), fun hlt => ⟨hp, ?_⟩,
      fun hmax => absurd (BitVec.eq_of_toNat_eq hmax) hx⟩
    simpa using toNat_symGet_count hlt x

/-! ### HIST on a text of any length (R88) -/

/-- R83, R184: a run of WCNTs that does not end in `FAULT` counted every byte. -/
theorem runInstrs_wcnts_completed {x : List Byte} {s t : State} {f : Vector Weight 128} {k : Nat}
    (h : runInstrs (x.map .wcnt) (s.withTable .wOpen f k) = .next t) (ht : t.phase ≠ .fault) :
    ∃ g, t = s.withTable .wOpen g (k + x.length) ∧
      ∀ y, (symGet g y).toNat = (symGet f y).toNat + x.countP fun b => maskedSym b == y := by
  induction x generalizing f k with
  | nil => exact ⟨f, (Host.Outcome.next.inj h).symm, fun y => rfl⟩
  | cons b x ih =>
    rw [List.map_cons, runInstrs] at h
    by_cases hb : symGet f (maskedSym b) = 0xFFFFFFFF
    · obtain ⟨hfull, -⟩ := exec_count (s := s.withTable .wOpen f k) (.inl ⟨b, rfl, rfl⟩) rfl rfl
      rw [hfull hb, andThen_next, runInstrs_in_fault (by simp) rfl] at h
      exact absurd (congrArg State.phase (Host.Outcome.next.inj h)).symm ht
    · rw [exec_wcnt_withTable s k hb, andThen_next] at h
      obtain ⟨g, rfl, hcount⟩ := ih h
      refine ⟨g, by rw [List.length_cons, Nat.add_right_comm, Nat.add_assoc], fun y => ?_⟩
      rw [hcount, toNat_symGet_count (toNat_lt_of_ne_max hb), List.countP_cons]
      simp only [beq_iff_eq]
      omega

/-- R83, R88: where HIST completes, it counted every byte and the sentinel once. -/
theorem runInstrs_hist_completed {x : List Byte} {s t : State} (hs : s.phase ∈ callStarts)
    (h : runInstrs (histCmds x) s = .next t) (ht : t.phase = .wReady) :
    ∃ f, t.w = some f ∧
      ∀ y, (symGet f y).toNat = (x.countP fun b => maskedSym b == y) + if y = 0 then 1 else 0 := by
  rw [histCmds, runInstrs_append, runInstrs, exec_wclr_withTable hs, andThen_next, andThen_eq_next] at h
  obtain ⟨u, hrun, hend⟩ := h
  rw [runInstrs, andThen_eq_next] at hend
  obtain ⟨_, hwend, ⟨⟩⟩ := hend
  have hu : u.phase ≠ .fault := by
    intro hf
    rw [exec_in_fault hf (by simp) (by simp), Host.Outcome.next.injEq] at hwend
    subst hwend
    simp [hf] at ht
  obtain ⟨g, rfl, hcount⟩ := runInstrs_wcnts_completed hrun hu
  by_cases h0 : symGet g 0 = 0xFFFFFFFF
  · obtain ⟨hfull, -⟩ := exec_count (s := s.withTable .wOpen g (1 + x.length)) (.inr ⟨rfl, rfl⟩) rfl rfl
    rw [hfull h0, Host.Outcome.next.injEq] at hwend
    subst hwend
    cases ht
  · rw [exec_wend_withTable s _ h0, Host.Outcome.next.injEq] at hwend
    subst hwend
    refine ⟨_, rfl, fun y => ?_⟩
    rw [toNat_symGet_count (toNat_lt_of_ne_max h0), hcount, symGet_replicate]
    simp [eq_comm (a := y)]

/-- Every symbol stands in the list of all symbols once. -/
theorem sum_allSyms_single (x : Sym) : (allSyms.map fun y => if y = x then 1 else 0).sum = 1 := by
  have hnodup : allSyms.Nodup := allSyms_ascending.imp BitVec.ne_of_lt
  rw [List.sum_map_eq_nsmul_single x _ fun y hy _ => if_neg hy, List.count_eq_one_of_mem hnodup (mem_allSyms x)]
  simp

/-- Every byte is counted for one symbol. -/
theorem sum_allSyms_countP (x : List Byte) :
    (allSyms.map fun y => x.countP fun b => maskedSym b == y).sum = x.length := by
  induction x with
  | nil => simp
  | cons b x ih =>
    simp only [List.countP_cons, List.sum_map_add, ih, beq_iff_eq, eq_comm (a := maskedSym b), sum_allSyms_single,
      List.length_cons]

/-- Settles O30: by `runInstrs_hist` it completes, and by `runInstrs_hist_completed` it has then counted the text. -/
theorem histCountsTheText : Obligations.HistCountsTheText := by
  refine fun x s hs => ⟨fun hx => ?_, fun t h ht => ?_⟩
  · obtain ⟨f, hrun, -⟩ := runInstrs_hist hx hs
    exact ⟨_, hrun, rfl⟩
  · obtain ⟨f, hw, hcount⟩ := runInstrs_hist_completed hs h ht
    refine ⟨f, hw, fun y hy => (hcount y).trans (by rw [if_neg hy]; rfl), hcount 0, ?_⟩
    simp only [weightSum, hcount, List.sum_map_add, sum_allSyms_countP, sum_allSyms_single]

end Sys2Proof.Machine
end

section
/-!
PROOFS. huffman_tree_builder (O31 to O34). The tree TBUILD builds is in good order and merged in order by `buildTree_spec`.
R106 is read off the good order: one leaf is one admitted symbol. R109 holds since a completed TBUILD has its `Effect`,
which names `W` and the flag alone.
-/

namespace Sys2Proof.Machine

/-! ### TBUILD (R100 to R108) -/

/-- Settles O31: the tree is that of `buildTree_spec`, where there is a weight. -/
theorem tbuildBuildsTheMergedTree : Obligations.TbuildBuildsTheMergedTree := by
  refine ⟨encodedAs (.tbuild false), encodedAs (.tbuild true), fun opt => ⟨fun s f hs hw hx => ?_,
    fun s f hs hw hz => exec_tbuild_allZero hs hw hz opt, raisesBadPhaseOutside fun _ => rfl⟩⟩
  have hz := allZero_eq_false_iff.2 hx
  exact ⟨_, _, exec_tbuild hs hw hz opt, buildTree_spec opt hz⟩

/-! ### The degenerate tree (R106) -/

section Tree
variable {f : Vector Weight 128} {opt : Bool} {nodes : List NodeRec} {nleaf : Nat} (h : TreeOk f opt nodes nleaf)
include h

/-- R101, R102: each of the first `nleaf` records is the leaf of an admitted symbol. -/
theorem TreeOk.admitted_leaf {i : Nat} (hi : i < nleaf) :
    ∃ x, IsLeafOf nodes i x ∧ (opt = false ∨ symGet f x ≠ 0) := by
  have hcount := h.nodeCount
  have hr := List.getElem?_eq_getElem (show i < nodes.length by omega)
  have hl := (h.leaf_iff hr).2 hi
  obtain ⟨x, hx, -⟩ := h.leafSym hr hl
  have hleaf : IsLeafOf nodes i x := ⟨_, hr, hl, hx⟩
  exact ⟨x, hleaf, (h.admission x).1 ⟨i, hi, hleaf⟩⟩

/-- R106: there is one leaf exactly where `opt` = 1 and one symbol has a nonzero weight. -/
theorem TreeOk.nleaf_eq_one_iff :
    nleaf = 1 ↔ opt = true ∧ ∃ x, symGet f x ≠ 0 ∧ ∀ y, y ≠ x → symGet f y = 0 := by
  have hcount := h.nodeCount
  have hpos := h.leafCount
  constructor
  · rintro rfl
    obtain ⟨x, hleaf, hadm⟩ := h.admitted_leaf Nat.one_pos
    obtain ⟨rfl, hzero⟩ := h.lone_symbol (root := 0) hcount.symm hleaf
    exact ⟨rfl, x, hadm.resolve_left nofun, hzero⟩
  · rintro ⟨rfl, x, -, hzero⟩
    by_contra hne
    have hlone (i : Nat) (hi : i < nleaf) : IsLeafOf nodes i x := by
      obtain ⟨y, hleaf, hadm⟩ := h.admitted_leaf hi
      obtain rfl : y = x := not_not.1 (mt (hzero y) (hadm.resolve_left nofun))
      exact hleaf
    exact absurd (h.leaf_unique (hlone 0 (by omega)) (hlone 1 (by omega))) Nat.zero_ne_one

/-- R106, R111: a tree of one leaf is the record of its symbol. -/
theorem TreeOk.eq_leafRec {x : Sym} (hn : nleaf = 1) (hx : symGet f x ≠ 0) : nodes = [leafRec f x] := by
  subst hn
  obtain ⟨r, rfl⟩ := List.length_eq_one_iff.1 h.nodeCount
  obtain ⟨i, hi, hleaf⟩ := (h.admission x).2 (.inr hx)
  obtain rfl : i = 0 := by omega
  obtain ⟨_, ⟨⟩, hl, hsym⟩ := hleaf
  obtain ⟨-, hleft, hright, y, hy, hweight⟩ := h.leaves 0 r rfl hi
  obtain rfl : x = y := setWidth_sym_inj (hsym.symm.trans hy)
  have hr : r = leafRec f x := by
    cases r
    exact (NodeRec.mk.injEq ..).mpr ⟨hl, hsym, hweight, hleft, hright⟩
  rw [hr]

/-- R23, R107: with more than one leaf the last record is an internal node. -/
theorem TreeOk.inner_of_nleaf_ne_one {root : Nat} (hroot : root + 1 = nodes.length) (hn : nleaf ≠ 1) :
    IsInner nodes root := by
  refine (h.leaf_or_inner (show root < nodes.length by omega)).resolve_left ?_
  rintro ⟨x, r, hr, hl, -⟩
  have hlt := (h.leaf_iff hr).1 hl
  have hcount := h.nodeCount
  omega

end Tree

/-- A command that does not end in `FAULT` was legal and had its own effect. -/
theorem effect_of_exec {i : Instr} {s t : State} (h : exec i s = .next t) (ht : t.phase ≠ .fault) :
    legalIn i s.phase = true ∧ Effect i s t := by
  rcases exec_next_cases h with ⟨hf, -, -, rfl⟩ | ⟨-, -, rfl⟩ | ⟨-, -, f, es, -, rfl⟩ | heffect
  · exact absurd hf ht
  · exact absurd rfl ht
  · exact absurd rfl ht
  · exact heffect

/-- Settles O32: by `TreeOk.nleaf_eq_one_iff`, and a tree of one leaf is that leaf's record. -/
theorem loneSymbolGivesTheDegenerateTree : Obligations.LoneSymbolGivesTheDegenerateTree := by
  refine ⟨fun s f x hs hw hx hzero => ?_, fun s t f opt hs hw h ht => ?_⟩
  · have hz := allZero_eq_false_iff.2 ⟨x, hx⟩
    have htree := (buildTree_spec true hz).1
    have hone := htree.nleaf_eq_one_iff.2 ⟨rfl, x, hx, hzero⟩
    rw [exec_tbuild hs hw hz, hone, htree.eq_leafRec hone hx]
    rfl
  · obtain ⟨-, g, hg, hz, rfl⟩ := effect_of_exec h (by rw [ht]; nofun)
    obtain rfl : f = g := Option.some.inj (hw.symm.trans hg)
    have htree := (buildTree_spec opt hz).1
    have hpos := htree.leafCount
    have hcount := htree.nodeCount
    have hroot : (BitVec.ofNat 8 ((buildTree f opt).length - 1)).toNat + 1 = (buildTree f opt).length := by
      rw [BitVec.toNat_ofNat]
      omega
    have hnleaf : BitVec.ofNat 8 (seedLeaves f opt).length = 1 ↔ (seedLeaves f opt).length = 1 := by
      rw [← BitVec.toNat_inj, BitVec.toNat_ofNat, Nat.mod_eq_of_lt (by omega)]
      rfl
    exact ⟨hnleaf.trans htree.nleaf_eq_one_iff,
      fun hne => ⟨_, rfl, hroot, htree.inner_of_nleaf_ne_one hroot (mt hnleaf.2 hne)⟩⟩

/-! ### Determinism (R109) -/

/-- R108: TBUILD and CGEN complete only on a table with a weight. -/
theorem weights_of_runInstrs_build {s t : State} {opt : Bool} (h : runInstrs (buildCmds opt) s = .next t)
    (ht : t.phase = .cReady) : ∃ f, s.w = some f ∧ allZero f = false := by
  rw [buildCmds, runInstrs, andThen_eq_next] at h
  obtain ⟨u, hbuild, h⟩ := h
  rw [runInstrs, andThen_eq_next] at h
  obtain ⟨_, hcgen, ⟨⟩⟩ := h
  obtain ⟨hlegal, -⟩ := effect_of_exec hcgen (by rw [ht]; nofun)
  have hu : u.phase ≠ .fault := by
    intro hf
    rw [hf] at hlegal
    cases hlegal
  obtain ⟨-, f, hw, hz, -⟩ := effect_of_exec hbuild hu
  exact ⟨f, hw, hz⟩

/-- Settles O33: both states hold one table, and what is built is named by it and the flag (`exists_builtTree`). -/
theorem treeAndCodesAreDeterministic : Obligations.TreeAndCodesAreDeterministic := by
  intro s s' t t' opt hs hs' hww
  refine ⟨fun h h' ht => ?_, fun h h' ht => ?_⟩
  · obtain ⟨-, f, hw, hz, rfl⟩ := effect_of_exec h (by rw [ht]; nofun)
    obtain rfl := Host.Outcome.next.inj ((exec_tbuild hs' (hww ▸ hw) hz opt).symm.trans h')
    exact ⟨rfl, rfl, rfl, rfl, rfl⟩
  · obtain ⟨f, hw, hz⟩ := weights_of_runInstrs_build h ht
    obtain ⟨nodes, nleaf, root, tab, -, -, -, hrun⟩ := exists_builtTree opt (allZero_eq_false_iff.1 hz)
    obtain rfl := Host.Outcome.next.inj ((hrun s hs hw).symm.trans h)
    obtain rfl := Host.Outcome.next.inj ((hrun s' hs' (hww ▸ hw)).symm.trans h')
    exact ⟨rfl, rfl⟩

/-! ### TRD (R110) -/

/-- R110: the fields of a packed record, by their bits. -/
theorem NodeRec.packed_fields (r : NodeRec) :
    r.packed.extractLsb' 0 39 = r.weight ∧ r.packed.extractLsb' 39 8 = r.left ∧ r.packed.extractLsb' 47 8 = r.right ∧
      r.packed.extractLsb' 55 8 = r.sym ∧ r.packed.getLsbD 63 = r.leaf ∧ r.packed.toNat < 2 ^ 64 := by
  have hbelow : r.packed.toNat < 2 ^ 64 := by
    rw [packed, BitVec.toNat_setWidth]
    exact (Nat.mod_le ..).trans_lt (BitVec.isLt _)
  refine ⟨?weight, ?left, ?right, ?sym, ?leaf, hbelow⟩
  case leaf =>
    simp only [packed, BitVec.getLsbD_setWidth, BitVec.getLsbD_append]
    simp
  all_goals
    simp (disch := decide) only [packed, extractLsb'_setWidth_low, extractLsb'_append_low, extractLsb'_append_high,
      Nat.reduceSub, extractLsb'_whole]

/-- Settles O34: TRD answers the packed record of an index below `NNODE`. -/
theorem trdAnswersTheRecord : Obligations.TrdAnswersTheRecord := by
  refine fun a => ⟨encodedAs _, fun s nodes r hs hn ha hr => ?_, fun s nodes hs hn ha => ?_,
    raisesBadPhaseOutside fun _ => rfl⟩
  · exact ⟨r.packed, exec_of_effect (decide_eq_true hs) ⟨nodes, r, hn, BitVec.not_le.2 ha, hr, rfl⟩, r.packed_fields⟩
  · exact exec_of_raises_nil (decide_eq_true hs) ⟨rfl, .inr ⟨Option.isSome_of_eq_some hn, ha, rfl⟩⟩

end Sys2Proof.Machine
end

section
/-!
PROOFS. huffman_code_table_generator (O35 to O38). CGEN on a tree in good order has the table of `TreeOk.codeTable_spec`,
so whatever it records is a code (`isCodeOf_of_exec_cgen`). A code ends in a leaf, from which no walk goes on: that is
R123. Its length is that of a walk: that is R124. CRD packs an entry of the table by its bits.
-/

namespace Sys2Proof.Machine

/-! ### CGEN (R120 to R122, R126) -/

/-- Settles O35: the table is that of `TreeOk.codeTable_spec`, and the admitted symbols are the coded ones. -/
theorem cgenRecordsEveryPath : Obligations.CgenRecordsEveryPath := by
  refine ⟨encodedAs _, fun s f opt nodes nleaf hs hn htree hroot => ?_, raisesBadPhaseOutside fun _ => rfl⟩
  obtain ⟨codes, hcodes, hok, hcode⟩ := htree.codeTable_spec hroot
  exact ⟨codeTable codes, exec_cgen hs hn hcodes, hcode, htree.code_ne_nil_iff hroot hok⟩

/-- R22: a leaf is the leaf of one symbol. -/
theorem IsLeafOf.sym_unique {nodes : List NodeRec} {i : Nat} {x y : Sym} (hx : IsLeafOf nodes i x)
    (hy : IsLeafOf nodes i y) : x = y := by
  obtain ⟨r, hr, -, hsx⟩ := hx
  obtain ⟨r', hr', -, hsy⟩ := hy
  obtain rfl := Option.some.inj (hr.symm.trans hr')
  exact setWidth_sym_inj (hsx.symm.trans hsy)

section Tree
variable {f : Vector Weight 128} {opt : Bool} {nodes : List NodeRec} {nleaf : Nat} (h : TreeOk f opt nodes nleaf)
include h

/-- R120: every entry that CGEN records is its symbol's code. -/
theorem TreeOk.isCodeOf_of_exec_cgen {s t : State} {tab : Vector Bits 128} (hs : s.phase = .tReady)
    (hn : s.n = some nodes) (hroot : s.root.toNat + 1 = nodes.length) (hexec : exec .cgen s = .next t)
    (ht : t.c = some tab) {x : Sym} (hx : symGet tab x ≠ []) : IsCodeOf nodes s.root.toNat x (symGet tab x) := by
  obtain ⟨-, hcgen, -⟩ := cgenRecordsEveryPath
  obtain ⟨tab', hexec', hcode, -⟩ := hcgen s f opt nodes nleaf hs hn h hroot
  obtain rfl := Host.Outcome.next.inj (hexec'.symm.trans hexec)
  obtain rfl : tab' = tab := Option.some.inj ht
  exact (hcode x _ hx).1 rfl

/-! ### No code begins another (R123) -/

/-- R123: where one code begins another, both are codes of the same symbol. -/
theorem TreeOk.sym_eq_of_isPrefix {root : Nat} (hroot : root + 1 = nodes.length) {x y : Sym} {p q : Bits}
    (hp : IsCodeOf nodes root x p) (hq : IsCodeOf nodes root y q) (hpq : p <+: q) : x = y := by
  rcases hp with ⟨hlone, -⟩ | ⟨hin, i, hwi, hi⟩
  · obtain ⟨⟨j, hj⟩, -⟩ := h.code_length hroot hq
    exact (h.eq_of_lone hroot hlone hj).symm
  · obtain ⟨-, j, hwj, hj⟩ := hq.resolve_left fun hlone => not_inner_of_leaf hlone.1 hin
    obtain ⟨rest, rfl⟩ := hpq
    rw [treeWalk_append, hwi, Option.bind_some] at hwj
    obtain rfl := treeWalk_from_leaf hi hwj
    obtain rfl := Option.some.inj hwj
    exact hi.sym_unique hj

end Tree

/-- Settles O36: two entries that are not empty are codes, and by `TreeOk.sym_eq_of_isPrefix` of one symbol. -/
theorem codesArePrefixFree : Obligations.CodesArePrefixFree := by
  intro s t f opt nodes nleaf tab hs hn htree hroot hexec ht x y hxy hx hy hpre
  have hcode {z : Sym} (hz : symGet tab z ≠ []) := htree.isCodeOf_of_exec_cgen hs hn hroot hexec ht hz
  exact hxy (htree.sym_eq_of_isPrefix hroot (hcode hx) (hcode hy) hpre)

/-! ### Lengths (R124) -/

/-- Settles O37: an entry that is not empty is a code, whose length `TreeOk.code_length` bounds. -/
theorem codeLengthsAreBounded : Obligations.CodeLengthsAreBounded := by
  intro s t f opt nodes nleaf tab hs hn htree hroot hleaves hexec ht x hx
  obtain ⟨-, hpos, hmax, hbound⟩ :=
    htree.code_length hroot (htree.isCodeOf_of_exec_cgen hs hn hroot hexec ht hx)
  exact ⟨hpos, hbound hleaves, hmax⟩

/-! ### CRD (R125) -/

/-- R125: the length of a packed code. -/
theorem packedCode_length {code : Bits} (h : code.length ≤ 127) :
    ((packedCode code).extractLsb' 128 8).toNat = code.length := by
  rw [packedCode, extractLsb'_append_high _ _ (Nat.le_refl 128), Nat.sub_self, extractLsb'_whole, BitVec.toNat_ofNat]
  omega

/-- R125: the bits of a packed code, the first in bit 127. -/
theorem packedCode_getLsbD {code : Bits} (h : code.length ≤ 127) {k : Nat} (hk : k < 128) :
    (packedCode code).getLsbD (127 - k) = code.getD k false := by
  rw [packedCode, BitVec.getLsbD_append, if_pos (by omega)]
  exact leftAligned_getLsbD (by omega) hk

/-- Settles O38: CRD answers the packed entry its index names, if it names one. -/
theorem crdAnswersTheCode : Obligations.CrdAnswersTheCode := by
  refine fun a => ⟨encodedAs _, fun s tab hs hc => ?_, raisesBadPhaseOutside fun _ => rfl⟩
  have hl : legalIn (.crd a) s.phase = true := decide_eq_true hs
  refine ⟨fun ha hlen => ⟨packedCode (symGet tab (a.setWidth 7)), ?_, packedCode_length hlen,
    fun k hk => packedCode_getLsbD hlen hk⟩, fun ha => ?_⟩
  · exact exec_of_effect hl ⟨tab, _, hc, symIndex_of_le ha, rfl⟩
  · exact exec_of_raises_nil hl ⟨rfl, .inr ⟨Option.isSome_of_eq_some hc, ha, rfl⟩⟩

end Sys2Proof.Machine
end

section
/-!
PROOFS. bit_packer_encoder (O39 to O42). The packer loses no bit (`pushBits_spec`, `padZeros_spec`), and a bit equation
fixes the numbers of bytes and of pending bits: `pending_lengths` while fewer than eight bits are pending, `padded_lengths`
once they are padded. So the claims follow from the bits alone.
-/

namespace Sys2Proof.Machine

/-! ### The lengths a bit equation fixes (R132, R134) -/

/-- R132: of `n` bits, `⌊n / 8⌋` bytes are out and `n mod 8` bits are pending. -/
theorem pending_lengths {ys : List Byte} {pb bits : Bits} (hpb : pb.length ≤ 7) (h : ys.flatMap bits8 ++ pb = bits) :
    ys.length = bits.length / 8 ∧ pb.length = bits.length % 8 := by
  have hlen : 8 * ys.length + pb.length = bits.length := by rw [← h, List.length_append, flatMap_bits8_length]
  omega

/-- R134: fewer than eight zeros that make `n` bits whole bytes are `(8 − n mod 8) mod 8` of them, and the bytes are
`⌈n / 8⌉`. -/
theorem padded_lengths {ys : List Byte} {bits : Bits} {k : Nat} (hk : k < 8)
    (h : ys.flatMap bits8 = bits ++ List.replicate k false) :
    ys.length = (bits.length + 7) / 8 ∧ k = (8 - bits.length % 8) % 8 := by
  have hlen : 8 * ys.length = bits.length + k := by
    rw [← flatMap_bits8_length, h, List.length_append, List.length_replicate]
  omega

/-! ### The commands (R130 to R137) -/

/-- Settles O39: ESTART has its effect in `C_READY`. -/
theorem estartOpensAnEncode : Obligations.EstartOpensAnEncode :=
  ⟨encodedAs _, fun _ hs => exec_estart hs, raisesBadPhaseOutside fun _ => rfl⟩

/-- R132: what ESYM leaves, with the bits it packs. -/
theorem exec_esym_bits {s : State} {tab : Vector Bits 128} {b : Byte} (hs : s.phase = .enc) (hc : s.c = some tab)
    (hpb : s.pb.length ≤ 7) (hb : symGet tab (maskedSym b) ≠ []) :
    ∃ ys pb, pb.length ≤ 7 ∧ ys.flatMap bits8 ++ pb = s.pb ++ symGet tab (maskedSym b) ∧
      exec (.esym b) s = .next { s with
        pb := pb, out := s.out ++ ys, rsps := s.rsps ++ [⟨.ok, BitVec.ofNat 136 ys.length⟩] } := by
  obtain ⟨hlen, ys, hys, hbits⟩ := pushBits_spec (p := ⟨s.pb, []⟩) (symGet tab (maskedSym b)) hpb
  rw [List.nil_append] at hys
  refine ⟨ys, _, by omega, hbits, ?_⟩
  rw [exec_esym hs hc hb, State.packed, hys, ← hs]
  rfl

/-- Settles O40: ESYM packs the code of `a[6:0]`, and the bit equation gives the lengths. -/
theorem esymPacksOneCode : Obligations.EsymPacksOneCode := by
  refine fun a => ⟨encodedAs _, fun s tab code hs hc hcode => ?_, raisesBadPhaseOutside fun _ => rfl⟩
  subst hcode
  refine ⟨fun hne hpb => ?_, exec_esym_noCode hs hc⟩
  obtain ⟨ys, pb, hpb', hbits, hexec⟩ := exec_esym_bits hs hc hpb hne
  have hlen := pending_lengths hpb' hbits
  rw [List.length_append] at hlen
  exact ⟨ys, pb, hexec, hbits, hlen⟩

/-- R66: a packing command that has emitted `ys` answers how many they are. -/
theorem State.packed_counts {s t : State} {p : Packer} {ph : Phase} {ys : List Byte} (h : s.packed p ph = t)
    (hout : t.out = s.out ++ ys) : t.rsps = s.rsps ++ [⟨.ok, BitVec.ofNat 136 ys.length⟩] := by
  subst h
  rw [State.packed_rsps, List.append_cancel_left hout]

/-- Settles O41: EEND packs the sentinel's code, pads it and counts the bytes. -/
theorem eendPacksTheSentinelAndPads : Obligations.EendPacksTheSentinelAndPads := by
  refine ⟨encodedAs _, fun s tab code hs hc hcode => ?_, raisesBadPhaseOutside fun _ => rfl⟩
  subst hcode
  refine ⟨fun hne hpb => ?_, exec_eend_noCode hs hc⟩
  obtain ⟨ys, k, rsps, hk, hbits, hexec⟩ := exec_eend_bits hs hc hpb hne
  have hrsps : rsps = s.rsps ++ [⟨.ok, BitVec.ofNat 136 ys.length⟩] :=
    State.packed_counts (Host.Outcome.next.inj ((exec_eend hs hc hne).symm.trans hexec)) rfl
  obtain ⟨hlen, rfl⟩ := padded_lengths hk hbits
  have hpos := List.length_pos_of_ne_nil hne
  rw [List.length_append] at hlen hbits
  exact ⟨ys, hrsps ▸ hexec, hbits, by omega, by omega⟩

/-! ### An encode (R135) -/

/-- Settles O42: the bits before EEND are those of `runInstrs_esyms`, after it those of `runInstrs_pack`. -/
theorem encodeEmitsEveryCodeBit : Obligations.EncodeEmitsEveryCodeBit := by
  refine ⟨fun b => ⟨bits8_length b, fun k hk => by interval_cases k <;> rfl⟩,
    fun s tab x body all hs hc hx h0 hbody hall => ?_⟩
  subst hbody hall
  constructor
  · obtain ⟨ys, pb, rsps, hpb, hbits, hrun⟩ := runInstrs_esyms (s := { s with pb := [], phase := .enc }.ok 0) rfl hc
      (Nat.zero_le _) hx
    obtain ⟨hbytes, hpending⟩ := pending_lengths hpb hbits
    rw [runInstrs, exec_estart hs, andThen_next, hrun]
    exact ⟨_, ys, rfl, rfl, hbytes, hpending, hbits⟩
  · obtain ⟨ys, k, rsps, hk, hbits, hrun⟩ := runInstrs_pack hs hc hx h0
    obtain ⟨hbytes, rfl⟩ := padded_lengths hk hbits
    exact ⟨_, ys, hrun, rfl, hbytes, hbits, rfl, rfl⟩

end Sys2Proof.Machine
end

section
/-!
PROOFS. bit_unpacker_decoder (O43 to O47) and the round trip on one tree (O53). How DBYTE's loop over the byte's bits
ends decides its answer, so the claims about it are laws of that loop: `walkBits_more`, `walkBits_done` and `walkBits_total`
under an internal root, `walkBits_lone_badCode` and its like in the degenerate tree. For O53 a text's codes are split at
its first symbol 0 (`flatMap_codes_split`), whose code the decoder takes for the sentinel's.
-/

namespace Sys2Proof.Machine

/-! ### DSTART and DEND (R150, R156) -/

/-- Settles O43: DSTART has its effect in `C_READY`. -/
theorem dstartOpensADecode : Obligations.DstartOpensADecode :=
  ⟨encodedAs _, fun _ hs => exec_dstart hs, raisesBadPhaseOutside fun _ => rfl⟩

/-- Settles O47: DEND has its effect in `DEC_DONE` and faults in `DEC`. -/
theorem dendDeclaresTheEnd : Obligations.DendDeclaresTheEnd :=
  ⟨encodedAs _, fun _ hs => exec_dend_done hs, fun _ hs => exec_dend_truncated hs, raisesBadPhaseOutside fun _ => rfl⟩

/-! ### DBYTE in a tree with an internal root (R151 to R154, R157) -/

section Answer
variable {b : Byte} {s : State} {nodes : List NodeRec} {c : Idx} {es : List Byte}

/-- R151: one symbol per bit at most. -/
theorem walkBits_bits8_length
    (h : walkBits nodes s.root (bits8 b) s.dcur [] = .more c es ∨
      walkBits nodes s.root (bits8 b) s.dcur [] = .done c es) :
    es.length ≤ 8 := by
  simpa [bits8_length] using walkBits_emitted_length h

/-- R66, R151: what DBYTE answers where the bits end at a cursor, with the response as a number … -/
theorem exec_dbyte_more_counts (hs : s.phase = .dec) (hn : s.n = some nodes)
    (hw : walkBits nodes s.root (bits8 b) s.dcur [] = .more c es) :
    exec (.dbyte b) s = .next { s with
      dcur := c, out := s.out ++ es, rsps := s.rsps ++ [⟨.ok, BitVec.ofNat 136 (2 * es.length)⟩] } := by
  rw [exec_dbyte_more hs hn hw, dbyteData_eq (walkBits_bits8_length (.inl hw))]
  rfl

/-- … and where they reach the sentinel. -/
theorem exec_dbyte_done_counts (hs : s.phase = .dec) (hn : s.n = some nodes)
    (hw : walkBits nodes s.root (bits8 b) s.dcur [] = .done c es) :
    exec (.dbyte b) s = .next { s with
      dcur := c, phase := .decDone, out := s.out ++ es
      rsps := s.rsps ++ [⟨.ok, BitVec.ofNat 136 (2 * es.length + 1)⟩] } := by
  rw [exec_dbyte_done hs hn hw, dbyteData_eq (walkBits_bits8_length (.inr hw))]
  rfl

end Answer

/-- Settles O44: the loop emits the symbols the held bits and the byte spell. -/
theorem dbyteDecodesTheHeldBits : Obligations.DbyteDecodesTheHeldBits := by
  intro a s f opt nodes nleaf code p rest syms hs hn htree _ hin hcur hp hsyms
  obtain ⟨hne, hcode⟩ := forall₂_and.1 hsyms
  refine ⟨fun cur hbits hrest hcur' => ?_, fun hend hbits => ?_⟩
  · have hw := htree.walkBits_more hin syms (e := []) hcode hne hp hcur hbits hrest hcur'
    rw [exec_dbyte_more_counts hs hn hw, List.nil_append, List.length_map]
  · have hw := htree.walkBits_done hin syms (e := []) hcode hne hend hp hcur hbits
    rw [exec_dbyte_done_counts hs hn hw, List.nil_append, List.length_map]

/-- R4: a symbol other than the sentinel is a byte in 0x01 to 0x7F. -/
theorem setWidth_sym_range {x : Sym} (hx : x ≠ 0) : 1 ≤ (x.setWidth 8).toNat ∧ (x.setWidth 8).toNat ≤ 127 := by
  bv_omega

/-- Settles O45: the loop has a cursor or the sentinel for every byte. -/
theorem dbyteCompletesOnEveryByte : Obligations.DbyteCompletesOnEveryByte := by
  refine ⟨fun a s f opt nodes nleaf hs hn htree _ hin hcur => ?_,
    fun a => ⟨encodedAs _, raisesBadPhaseOutside fun _ => rfl⟩⟩
  obtain ⟨syms, hlen, hne, hends⟩ := htree.walkBits_total hin hcur (bits8 a) []
  have hrange : ∀ b ∈ syms.map (BitVec.setWidth 8), 1 ≤ b.toNat ∧ b.toNat ≤ 127 :=
    List.forall_mem_map.2 fun x hx => setWidth_sym_range (hne x hx)
  rcases hends with ⟨cur, hcur', hw⟩ | hw
  · exact ⟨_, cur, false, by rw [exec_dbyte_more_counts hs hn hw, ← hs]; rfl, by simpa using hlen, hrange, nofun, hcur'⟩
  · exact ⟨_, s.root, true, exec_dbyte_done_counts hs hn hw, by simpa using hlen, hrange, fun _ => rfl, hin⟩

/-! ### DBYTE in the degenerate tree (R155) -/

/-- R155: the first 1 is no code; the zeros before it are the lone symbol, of which the sentinel allows none. -/
theorem walkBits_lone_badCode {nodes : List NodeRec} {root cur : Idx} {x : Sym} {k : Nat}
    (h : IsLeafOf nodes root.toNat x) (hk : x = 0 → k = 0) (tail : Bits) :
    walkBits nodes root (List.replicate k false ++ true :: tail) cur [] =
      .badCode (List.replicate k (x.setWidth 8)) := by
  by_cases hx : x = 0
  · rw [hk hx]
    exact walkBits_lone_one h tail []
  · rw [walkBits_lone_zeros h hx, walkBits_lone_one h, List.nil_append]

/-- Settles O46: every bit of the byte is a code of its own or none. -/
theorem dbyteInTheDegenerateTree : Obligations.DbyteInTheDegenerateTree := by
  intro a s nodes x hs hn hx
  refine ⟨fun h0 ha => ?_, fun hne ha => ?_, fun k tail hbits hk => ?_⟩
  · subst h0
    have hw : walkBits nodes s.root (bits8 a) s.dcur [] = .done s.dcur [] := by
      rw [bits8, ha]
      exact walkBits_lone_sentinel hx _ []
    rw [exec_dbyte_done_counts hs hn hw, List.append_nil]
    rfl
  · subst ha
    have hw : walkBits nodes s.root (bits8 0) s.dcur [] = .more s.dcur (List.replicate 8 (x.setWidth 8)) :=
      walkBits_lone_zeros hx hne 8 [] []
    rw [exec_dbyte_more_counts hs hn hw, List.length_replicate]
    rfl
  · have hw : walkBits nodes s.root (bits8 a) s.dcur [] = .badCode (List.replicate k (x.setWidth 8)) := by
      rw [hbits]
      exact walkBits_lone_badCode hx hk tail
    rw [exec_dbyte_badCode hs hn hw]
    rfl

/-! ### The round trip on one tree (R157, R159) -/

/-- R82: `a[6:0]` as a byte. -/
theorem setWidth_maskedSym_eq_and (b : Byte) : (maskedSym b).setWidth 8 = b &&& 0x7F := by
  apply BitVec.eq_of_toNat_eq
  have hmask : b.toNat &&& 127 = b.toNat % 128 := Nat.and_two_pow_sub_one_eq_mod b.toNat 7
  rw [BitVec.toNat_setWidth, maskedSym_toNat, BitVec.toNat_and]
  exact (Nat.mod_eq_of_lt (by omega)).trans hmask.symm

/-- What a text decodes to: the low seven bits of its bytes, up to the first symbol 0. -/
theorem map_setWidth_takeWhile (x : List Byte) :
    ((x.map maskedSym).takeWhile (· ≠ 0)).map (BitVec.setWidth 8) = (x.map fun b => b &&& 0x7F).takeWhile (· ≠ 0) := by
  have hzero (y : Sym) : y.setWidth 8 = (0 : Byte) ↔ y = 0 :=
    ⟨fun hy => setWidth_sym_inj (hy.trans rfl), fun hy => by rw [hy]; rfl⟩
  have hmask : (x.map fun b => b &&& 0x7F) = (x.map maskedSym).map (BitVec.setWidth 8) := by
    simp [setWidth_maskedSym_eq_and]
  rw [hmask, List.takeWhile_map (f := BitVec.setWidth 8)]
  simp only [Function.comp_def, ne_eq, hzero]

/-- … which is the text itself over 0x01 to 0x7F. -/
theorem takeWhile_of_range {x : List Byte} (hx : ∀ b ∈ x, 1 ≤ b.toNat ∧ b.toNat ≤ 127) :
    (x.map fun b => b &&& 0x7F).takeWhile (· ≠ 0) = x := by
  have hmask : (x.map fun b => b &&& 0x7F) = x := by
    refine (List.map_congr_left fun b hb => ?_).trans (List.map_id x)
    rw [← setWidth_maskedSym_eq_and, setWidth_maskedSym (hx b hb).2, id]
  rw [hmask, List.takeWhile_eq_self_iff]
  refine fun b hb => decide_eq_true ?_
  rintro rfl
  exact absurd (hx 0 hb).1 (by decide)

/-- R157: in the codes of a text and the sentinel's, the first code of symbol 0 comes behind the symbols before it. -/
theorem flatMap_codes_split (code : Sym → Bits) (syms : List Sym) (rest : Bits) :
    ∃ rest', syms.flatMap code ++ (code 0 ++ rest) = (syms.takeWhile (· ≠ 0)).flatMap code ++ (code 0 ++ rest') := by
  induction syms with
  | nil => exact ⟨rest, rfl⟩
  | cons x syms ih =>
    by_cases hx : x = 0
    · subst hx
      exact ⟨syms.flatMap code ++ (code 0 ++ rest), by simp⟩
    · obtain ⟨rest', h⟩ := ih
      have htake : (x :: syms).takeWhile (· ≠ 0) = x :: syms.takeWhile (· ≠ 0) :=
        List.takeWhile_cons_of_pos (decide_eq_true hx)
      refine ⟨rest', ?_⟩
      rw [htake, List.flatMap_cons, List.flatMap_cons, List.append_assoc, List.append_assoc, h]

/-- R157, R159: unpacking the bytes of any text gives its symbols up to the first symbol 0, whatever bytes follow. -/
theorem unpack_packed_up_to_zero {x ys : List Byte} {j : Nat} {s : State} {f : Vector Weight 128} {opt : Bool}
    {nodes : List NodeRec} {nleaf : Nat} {tab : Vector Bits 128} (hs : s.phase = .cReady) (hn : s.n = some nodes)
    (htree : TreeOk f opt nodes nleaf) (hroot : s.root.toNat + 1 = nodes.length)
    (hcodes : CodesOk nodes s.root.toNat tab) (hcoded : ∀ b ∈ x, symGet tab (maskedSym b) ≠ [])
    (h0 : symGet tab 0 ≠ [])
    (hys : ys.flatMap bits8 =
      x.flatMap (fun b => symGet tab (maskedSym b)) ++ symGet tab 0 ++ List.replicate j false) :
    ∃ t, (∀ zs, unpack (ys ++ zs) s = .next t) ∧ t.phase = .decDone ∧
      t.out = s.out ++ (x.map fun b => b &&& 0x7F).takeWhile (· ≠ 0) := by
  obtain ⟨rest, hsplit⟩ := flatMap_codes_split (symGet tab) (x.map maskedSym) (List.replicate j false)
  have hall : ∀ y ∈ x.map maskedSym, symGet tab y ≠ [] := List.forall_mem_map.2 hcoded
  have hcut : ∀ y ∈ (x.map maskedSym).takeWhile (· ≠ 0), symGet tab y ≠ [] :=
    fun y hy => hall y ((List.takeWhile_prefix _).mem hy)
  have hne : ∀ y ∈ (x.map maskedSym).takeWhile (· ≠ 0), y ≠ 0 :=
    fun y hy => by simpa using List.mem_takeWhile_imp hy
  have hwalk := htree.walkBits_codes hroot hcodes hcut hne h0 rest
  rw [← hsplit, List.flatMap_map, ← List.append_assoc, ← hys, map_setWidth_takeWhile] at hwalk
  obtain ⟨t, hrun, hp, hout, -⟩ := hwalk ▸ unpackEnds ys hs hn
  exact ⟨t, hrun, hp, hout⟩

/-- Settles O53: the invariant holds the tree and its codes in good order, and the encode changes neither. -/
theorem roundTripOnOneTree : Obligations.RoundTripOnOneTree := by
  intro s tab x hok hs hc hx h0
  obtain ⟨nodes, hn⟩ := Option.isSome_iff_exists.1 (hok.heldInOrder.1 (Option.isSome_of_eq_some hc))
  obtain ⟨f, htree, -, hroot⟩ := hok.treeHeld hn
  obtain ⟨ys, j, rsps, -, hys, hpack⟩ := runInstrs_pack hs hc hx h0
  obtain ⟨td, hrun, hp, hout⟩ := unpack_packed_up_to_zero hs hn htree hroot (hok.codes nodes tab hn hc) hx h0 hys
  exact ⟨_, ys, hpack, rfl, rfl,
    fun zs => ⟨td, hrun zs, hp, hout, fun hrange => by rw [hout, takeWhile_of_range hrange]⟩⟩

end Sys2Proof.Machine
end

section
/-!
PROOFS. Control and status (O16, O17, O48, O49). A command that completes with `OK` was legal and had its effect
(`effect_of_exec_ok`), which moves `PHASE` as the table of R174 says (`Effect.phase`). So the claims about phases are read
off two tables, `legalIn` and `phaseAfter`. That an "ok" of R173 raises no `BAD_PHASE` needs the invariant: a command's row
holds only phases in which the store it uses is defined (R30).
-/

namespace Sys2Proof.Machine

/-! ### The phase after a command (R174) -/

/-- R174: the phase in which a command completes that was legal in phase `p`; `done` is DBYTE's (R66). -/
def phaseAfter (i : Instr) (p : Phase) (done : Bool) : Phase :=
  match i with
  | .wclr => .wOpen
  | .wend | .wseal => .wReady
  | .tbuild _ => .tReady
  | .cgen => .cReady
  | .estart => .enc
  | .eend => .encDone
  | .dstart => .dec
  | .dbyte _ => if done then .decDone else .dec
  | .srst => .idle
  | .wcnt _ | .wld _ _ | .wrd _ | .trd _ | .crd _ | .esym _ | .dend | .stat => p

/-- A command's effect delivers one `OK` and moves `PHASE` as the table says. -/
theorem Effect.phase {i : Instr} {s t : State} (hl : legalIn i s.phase = true) (he : Effect i s t) :
    ∃ d, t.rsps = s.rsps ++ [⟨.ok, d⟩] ∧ t.phase = phaseAfter i s.phase (d.getLsbD 0) := by
  cases i with
  | dbyte =>
    have hs : s.phase = .dec := by simpa [legalIn] using hl
    obtain ⟨_, _, _, -, ⟨-, rfl⟩ | ⟨-, rfl⟩⟩ := he
    · exact ⟨_, rfl, by rw [dbyteData_done]; exact hs⟩
    · exact ⟨_, rfl, by rw [dbyteData_done]; rfl⟩
  | wclr | wseal | estart | dstart | stat | srst =>
    obtain rfl := he
    exact ⟨_, rfl, rfl⟩
  | wcnt | wend | tbuild | esym | eend =>
    obtain ⟨_, -, -, rfl⟩ := he
    exact ⟨_, rfl, rfl⟩
  | wld | wrd | crd | cgen =>
    obtain ⟨_, _, -, -, rfl⟩ := he
    exact ⟨_, rfl, rfl⟩
  | trd =>
    obtain ⟨_, _, -, -, -, rfl⟩ := he
    exact ⟨_, rfl, rfl⟩
  | dend =>
    obtain ⟨-, rfl⟩ := he
    exact ⟨_, rfl, rfl⟩

/-- R65: an answer `OK` is that of a legal command's effect. -/
theorem effect_of_exec_ok {i : Instr} {s t : State} {d : RspData} (h : exec i s = .next t)
    (hr : t.rsps = s.rsps ++ [⟨.ok, d⟩]) : legalIn i s.phase = true ∧ Effect i s t := by
  rcases exec_next_cases h with ⟨-, -, -, rfl⟩ | ⟨-, -, rfl⟩ | ⟨-, -, f, es, -, rfl⟩ | heffect
  · simp at hr
  · simp at hr
  · simp at hr
  · exact heffect

/-- R186: an answer `FAULT` is that of fault entry, from a phase other than `FAULT`. -/
theorem phase_of_exec_fault {i : Instr} {s t : State} {d : RspData} (h : exec i s = .next t)
    (hr : t.rsps = s.rsps ++ [⟨.fault, d⟩]) : s.phase ≠ .fault ∧ t.phase = .fault := by
  rcases exec_next_cases h with ⟨-, -, -, rfl⟩ | ⟨hf, -, rfl⟩ | ⟨hf, -, f, es, -, rfl⟩ | ⟨-, he⟩
  · simp at hr
  · exact ⟨hf, rfl⟩
  · exact ⟨hf, rfl⟩
  · obtain ⟨_, _, -, hok⟩ := he.histories
    simp [hok] at hr

/-- Settles O17: the phase after is `phaseAfter`, the phase before one of the command's row of R173; DEND, whose row has two
phases, completes in one of them only (R156). -/
theorem phaseTransitionTable : Obligations.PhaseTransitionTable := by
  refine ⟨fun i s t d h hr => ?_, fun i s t d h hr => phase_of_exec_fault h hr⟩
  obtain ⟨hl, he⟩ := effect_of_exec_ok h hr
  obtain ⟨d', hr', hp⟩ := he.phase hl
  obtain rfl : d = d' := by simpa [hr] using hr'
  cases i with
  | dend =>
    obtain ⟨hs, -⟩ := he
    exact ⟨hs, hp.trans hs⟩
  | wclr => exact ⟨of_decide_eq_true hl, hp⟩
  | wend | wseal | tbuild | cgen | estart | eend | dstart | dbyte => exact ⟨by simpa [legalIn] using hl, hp⟩
  | wcnt | wld | wrd | trd | crd | esym | stat | srst => exact hp

/-! ### The legality table (R173) -/

/-- R30, R173: in a state of the invariant a legal command finds the store it uses defined. -/
theorem StateOk.raises_ne_badPhase {i : Instr} {s : State} {f : Cause} {es : List Byte} (h : StateOk s)
    (hf : s.phase ≠ .fault) (hl : legalIn i s.phase = true) (hr : Raises i s f es) : f ≠ .badPhase := by
  rintro rfl
  cases i with
  | wclr | wseal | estart | dstart | stat | srst => exact hr
  | wcnt | wend | wld | wrd | tbuild =>
    have hnone : s.w = none := by simpa using hr.2
    have hheld := h.wHeld hf
    cases hp : s.phase <;> simp [hp, hnone, legalIn, Phase.holdsW] at hl hheld
  | trd | cgen | dbyte =>
    obtain ⟨-, hnone⟩ : es = [] ∧ s.n = none := by simpa [Raises] using hr
    have hheld := h.nHeld hf
    cases hp : s.phase <;> simp [hp, hnone, legalIn, Phase.holdsN] at hl hheld
  | crd | esym | eend =>
    have hnone : s.c = none := by simpa using hr.2
    have hheld := h.cHeld hf
    cases hp : s.phase <;> simp [hp, hnone, legalIn, Phase.holdsC] at hl hheld
  | dend => simp [Raises] at hr

/-- R186: no effect enters `FAULT`; only fault entry does. -/
theorem phaseAfter_ne_fault {i : Instr} {p : Phase} (h : p ≠ .fault) (done : Bool) : phaseAfter i p done ≠ .fault := by
  cases i with
  | dbyte => cases done <;> nofun
  | wcnt | wld | wrd | trd | crd | esym | dend | stat => exact h
  | _ => nofun

/-- R180: no other cause has the code of `BAD_PHASE`. -/
theorem Cause.eq_badPhase_of_code {f : Cause} : f.code = Cause.badPhase.code → f = .badPhase := by
  cases f <;> decide

/-- R173, R181: in a state of the invariant a legal command raises no `BAD_PHASE`. -/
theorem StateOk.fcause_ne_badPhase {i : Instr} {s t : State} (h : StateOk s) (hf : s.phase ≠ .fault)
    (hl : legalIn i s.phase = true) (hx : exec i s = .next t) : t.fcause ≠ Cause.badPhase.code := by
  rcases exec_next_cases hx with ⟨hs, -⟩ | ⟨-, hill, -⟩ | ⟨-, -, f, es, hr, rfl⟩ | ⟨-, he⟩
  · exact absurd hs hf
  · simp [hl] at hill
  · exact mt Cause.eq_badPhase_of_code (h.raises_ne_badPhase hf hl hr)
  · obtain ⟨d, -, hp⟩ := he.phase hl
    have ht : t.phase ≠ .fault := hp ▸ phaseAfter_ne_fault hf _
    rw [(h.exec_keeps hx).fcause_eq_zero ht]
    decide

/-- Settles O16: the four clauses are a command not legal, legal in a state of the invariant, refused, and STAT or SRST. -/
theorem legalityTable : Obligations.LegalityTable := by
  intro i s
  simp only [mem_legalOps, Bool.not_eq_true]
  refine ⟨exec_illegal, fun h hf hl => ?_, fun hf hl => ?_, fun hf hl => ?_⟩
  · obtain ⟨t, ht⟩ := h.completes_exec i
    exact ⟨t, ht, h.fcause_ne_badPhase hf hl ht⟩
  · refine exec_in_fault hf ?_ ?_ <;> · rintro rfl; cases hl
  · rw [hf, legalIn_fault] at hl
    rcases hl with rfl | rfl <;> exact ⟨_, _, rfl, rfl⟩

/-! ### STAT (R170, R171) -/

/-- R171: the fields of the status word, by their bits. -/
theorem State.statusWord_fields (s : State) :
    s.statusWord.extractLsb' 0 4 = s.phase.code ∧ s.statusWord.extractLsb' 4 4 = s.fcause ∧
      s.statusWord.extractLsb' 8 8 = s.fop ∧ s.statusWord.extractLsb' 16 8 = s.farg ∧
      s.statusWord.extractLsb' 24 1 = BitVec.ofBool s.topt ∧ s.statusWord.extractLsb' 25 8 = s.nleaf ∧
      s.statusWord.extractLsb' 33 8 = s.nnode ∧ s.statusWord.extractLsb' 41 8 = s.root ∧
      s.statusWord.extractLsb' 49 3 = s.plen ∧ s.statusWord.extractLsb' 52 7 = s.pbits ∧
      s.statusWord.extractLsb' 59 8 = s.dcur := by
  simp (disch := decide) only [statusWord, extractLsb'_setWidth_low, extractLsb'_append_low, extractLsb'_append_high,
    Nat.reduceSub, extractLsb'_whole, and_self]

theorem State.statusWord_lt (s : State) : s.statusWord.toNat < 2 ^ 67 := by
  rw [statusWord, BitVec.toNat_setWidth]
  exact (Nat.mod_le ..).trans_lt (BitVec.isLt _)

/-- R19: `PLEN` is the number of pending bits. -/
theorem State.plen_toNat {s : State} (h : s.pb.length ≤ 7) : s.plen.toNat = s.pb.length := by
  rw [plen, BitVec.toNat_ofNat]
  omega

/-- Bit `j` of a field is bit `k + j` of the word. -/
theorem getLsbD_of_extractLsb' {n k l j : Nat} {x : BitVec n} {y : BitVec l} (h : x.extractLsb' k l = y) (hj : j < l) :
    x.getLsbD (k + j) = y.getLsbD j := by
  rw [← h, BitVec.getLsbD_extractLsb', decide_eq_true hj, Bool.true_and]

/-- Settles O48: the answer is the status word. -/
theorem statPacksTheRegisters : Obligations.StatPacksTheRegisters := by
  refine ⟨encodedAs _, by decide, fun s => ⟨s.statusWord, rfl, ?_⟩⟩
  obtain ⟨hphase, hcause, hop, harg, htopt, hnleaf, hnnode, hroot, hplen, hpbits, hdcur⟩ := s.statusWord_fields
  have hflag : s.statusWord.getLsbD 24 = s.topt := by
    rw [getLsbD_of_extractLsb' (k := 24) (j := 0) htopt (by decide), BitVec.getLsbD_ofBool]
    rfl
  refine ⟨hphase, hcause, hop, harg, hflag, hnleaf, hnnode, hroot, hdcur, s.statusWord_lt, fun hpb => ⟨?_, fun k hk => ?_⟩⟩
  · rw [hplen, State.plen_toNat hpb]
  · rw [show 58 - k = 52 + (7 - 1 - k) by omega, getLsbD_of_extractLsb' hpbits (by omega)]
    exact leftAligned_getLsbD hpb hk

/-! ### SRST (R172) -/

/-- R172, R174: no row of the table but SRST's leads out of `FAULT`, nor out of `ENC` or `DEC` but to where they end. -/
theorem phaseAfter_stays {i : Instr} {p : Phase} (hi : i ≠ .srst) (hl : legalIn i p = true) (done : Bool) :
    (p = .fault → phaseAfter i p done = .fault) ∧
      (p = .enc → phaseAfter i p done ∈ [.enc, .encDone, .fault]) ∧
      (p = .dec → phaseAfter i p done ∈ [.dec, .decDone, .fault]) := by
  refine ⟨?_, ?_, ?_⟩
  · rintro rfl
    obtain rfl := ((legalIn_fault i).1 hl).resolve_right hi
    rfl
  · rintro rfl
    cases i with
    | wrd | trd | crd | esym | stat | eend => simp [phaseAfter]
    | srst => exact absurd rfl hi
    | _ => cases hl
  · rintro rfl
    cases i with
    | wrd | trd | crd | dend | stat => simp [phaseAfter]
    | dbyte => cases done <;> simp [phaseAfter]
    | srst => exact absurd rfl hi
    | _ => cases hl

/-- Settles O49: SRST is the hardware reset with an answer. Of the other commands a refusal keeps the phase, a fault enters
`FAULT`, and an effect moves it by the table. -/
theorem srstResetsInEveryPhase : Obligations.SrstResetsInEveryPhase := by
  refine ⟨encodedAs _, fun s => rfl, fun s => ⟨_, rfl, rfl⟩, fun i s t hi h => ?_⟩
  rcases exec_next_cases h with ⟨hf, -, -, rfl⟩ | ⟨-, -, rfl⟩ | ⟨-, -, f, es, -, rfl⟩ | ⟨hl, he⟩
  · simp [hf]
  · simp
  · simp
  · obtain ⟨d, -, hp⟩ := he.phase hl
    rw [hp]
    exact phaseAfter_stays hi hl _

end Sys2Proof.Machine
end

section
/-!
PROOFS. Faults (O7, O12 to O15, O22). Two lemmas say how an accepted word ends: in `FAULT` it is refused unless it is the
exact STAT or SRST (`acceptWord_in_fault`), elsewhere it enters `FAULT` with the word's own fields or is answered `OK` and
stays out of it (`acceptWord_outside_fault`). The claims about words and steps are read off these two; the order of R183
adds which of a legal command's faults is `OPERAND_RANGE`.
-/

namespace Sys2Proof.Machine

/-! ### Steps and words (R7, R68) -/

theorem step_of_inputs {s : State} {e : HostEvent} {rest : List HostEvent} (h : s.inputs = e :: rest) :
    step s = handle e { s with inputs := rest } := by
  simp only [step, h]

theorem acceptWord_of_decode {w : CmdWord} {i : Instr} (h : decode w = .ok i) (s : State) :
    acceptWord w s = exec i s := by
  simp only [acceptWord, h]

theorem acceptWord_encode (i : Instr) (s : State) : acceptWord (encode i) s = exec i s :=
  acceptWord_of_decode (decode_encode i) s

/-- Settles O7: with an event it is `step_of_inputs`, and `handle` of a word accepts it. -/
theorem stepTakesTheNextEvent : Obligations.StepTakesTheNextEvent := by
  refine ⟨fun s e rest h => step_of_inputs h, fun s w rest h => ⟨step_of_inputs h, fun i hi => ?_⟩, fun s h => ?_⟩
  · exact (step_of_inputs h).trans (acceptWord_of_decode hi _)
  · simp only [step, h]

/-! ### Words in `FAULT` (R184, R187) -/

theorem acceptWord_in_fault {w : CmdWord} {s : State} (hf : s.phase = .fault) (hstat : w ≠ encode .stat)
    (hsrst : w ≠ encode .srst) : acceptWord w s = .next s.refuse := by
  cases hd : decode w with
  | error e =>
    obtain ⟨-, hrefused⟩ := illegalWordsRaiseIllegalCmd.2 w s ((illegalWord_iff_decode w).2 ⟨e, hd⟩)
    exact hrefused hf
  | ok i =>
    obtain rfl := (decode_eq_ok_iff w i).1 hd
    rw [acceptWord_encode]
    exact exec_in_fault hf (ne_of_apply_ne encode hstat) (ne_of_apply_ne encode hsrst)

/-- Settles O13: a refusal is the response alone. -/
theorem faultPhaseRefusesEverything : Obligations.FaultPhaseRefusesEverything :=
  fun _ _ hf hstat hsrst => acceptWord_in_fault hf hstat hsrst

/-- R187: of the words only SRST leads out of `FAULT`, and it resets every register. -/
theorem acceptWord_leaves_fault {w : CmdWord} {s t : State} (h : acceptWord w s = .next t) (hf : s.phase = .fault)
    (ht : t.phase ≠ .fault) : w = encode .srst ∧ t = s.resetRegisters.ok 0 := by
  by_cases hsrst : w = encode .srst
  · subst hsrst
    rw [acceptWord_encode] at h
    exact ⟨rfl, (Host.Outcome.next.inj h).symm⟩
  · by_cases hstat : w = encode .stat
    · subst hstat
      rw [acceptWord_encode] at h
      obtain rfl : s.ok s.statusWord = t := Host.Outcome.next.inj h
      exact absurd hf ht
    · rw [acceptWord_in_fault hf hstat hsrst] at h
      obtain rfl : s.refuse = t := Host.Outcome.next.inj h
      exact absurd hf ht

/-- Settles O14: without an event `FAULT` stays, of the words SRST leaves it, and the two resets do; all three end in
`resetRegisters`. -/
theorem onlySrstOrResetLeavesFault : Obligations.OnlySrstOrResetLeavesFault := by
  intro s t hf h ht
  rcases step_next_cases h with ⟨-, rfl⟩ | ⟨w, rest, hin, hw⟩ | ⟨rest, hin, rfl⟩ | ⟨w, k, rest, u, hin, -, rfl⟩
  · exact absurd hf ht
  · obtain ⟨rfl, rfl⟩ := acceptWord_leaves_fault hw hf ht
    exact ⟨⟨_, rest, hin, .inl rfl⟩, rfl⟩
  · exact ⟨⟨_, rest, hin, .inr (.inl rfl)⟩, rfl⟩
  · exact ⟨⟨_, rest, hin, .inr (.inr ⟨w, k, rfl⟩)⟩, rfl⟩

/-! ### Words outside `FAULT` (R185, R186) -/

/-- An effect answers `OK` and does not enter `FAULT`. -/
theorem Effect.stays_outside_fault {i : Instr} {s t : State} (hl : legalIn i s.phase = true) (hf : s.phase ≠ .fault)
    (he : Effect i s t) : t.phase ≠ .fault ∧ ∃ d, t.rsps = s.rsps ++ [⟨.ok, d⟩] := by
  obtain ⟨d, hok, hp⟩ := he.phase hl
  exact ⟨hp ▸ phaseAfter_ne_fault hf _, d, hok⟩

/-- Outside `FAULT` a word enters it by fault entry with its own `op` and `a`, or is answered `OK` and stays out of it. -/
theorem acceptWord_outside_fault {w : CmdWord} {s t : State} (h : acceptWord w s = .next t) (hf : s.phase ≠ .fault) :
    (∃ f es, t = (s.emit es).takeFault f (opField w) (aField w) ∧ (f ≠ .badCode → es = [])) ∨
      (t.phase ≠ .fault ∧ ∃ d, t.rsps = s.rsps ++ [⟨.ok, d⟩]) := by
  rcases acceptWord_next_cases h with ⟨i, hd, hi⟩ | ⟨_, -, hs, -⟩ | ⟨_, -, -, rfl⟩
  · obtain rfl := (decode_eq_ok_iff w i).1 hd
    rw [encode, opField_packWord, aField_packWord]
    rcases exec_next_cases hi with ⟨hs, -⟩ | ⟨-, -, rfl⟩ | ⟨-, -, f, es, hr, rfl⟩ | ⟨hl, he⟩
    · exact absurd hs hf
    · exact .inl ⟨_, [], by rw [State.emit_nil], fun _ => rfl⟩
    · exact .inl ⟨f, es, rfl, fun hne => hr.emitted.resolve_right fun hbad => hne hbad.1⟩
    · exact .inr (he.stays_outside_fault hl hf)
  · exact absurd hs hf
  · exact .inl ⟨_, [], by rw [State.emit_nil], fun _ => rfl⟩

/-- Settles O12: a word that enters `FAULT` does so by fault entry. -/
theorem faultEntrySavesCauseAndWord : Obligations.FaultEntrySavesCauseAndWord := by
  refine ⟨by decide, fun w s t h hs ht => ?_⟩
  rcases acceptWord_outside_fault h hs with ⟨f, es, rfl, hes⟩ | ⟨hne, -⟩
  · exact ⟨f, es, rfl, hes⟩
  · exact absurd ht hne

/-! ### `fault_o` (R190) -/

theorem State.faultO_eq_true_iff (s : State) : s.faultO = true ↔ s.phase = .fault := decide_eq_true_iff

theorem State.faultO_eq_false_iff (s : State) : s.faultO = false ↔ s.phase ≠ .fault := decide_eq_false_iff_not

/-- Settles O22: `fault_o` rises where a word outside `FAULT` does not end in `OK`, and falls where a word leaves
`FAULT`. -/
theorem faultPinFollowsThePhase : Obligations.FaultPinFollowsThePhase := by
  refine ⟨State.faultO_eq_true_iff, fun w s t h hs => ?_, fun w s t h hs => ?_, fun s t h => ?_⟩
  · rw [State.faultO_eq_false_iff] at hs
    rw [State.faultO_eq_true_iff]
    rcases acceptWord_outside_fault h hs with ⟨f, es, rfl, -⟩ | ⟨hne, d, hok⟩
    · exact iff_of_true rfl ⟨_, rfl⟩
    · exact iff_of_false hne (by simp [hok])
  · rw [State.faultO_eq_true_iff] at hs
    rw [State.faultO_eq_false_iff]
    refine ⟨fun ht => (acceptWord_leaves_fault h hs ht).1, ?_⟩
    rintro rfl
    change acceptWord (encode .srst) s = .next t at h
    rw [acceptWord_encode] at h
    obtain rfl : s.resetRegisters.ok 0 = t := Host.Outcome.next.inj h
    nofun
  · obtain rfl : s.resetRegisters = t := Host.Outcome.next.inj h
    rfl

/-! ### The order of the conditions (R183) -/

/-- R180: `OPERAND_RANGE` is raised for an index operand outside its space only. -/
theorem Raises.indexOutOfRange {i : Instr} {s : State} {es : List Byte} (h : Raises i s .operandRange es) :
    IndexOutOfRange i s := by
  cases i with
  | wld | wrd | trd | crd =>
    obtain ⟨-, ⟨-, hf⟩ | ⟨-, ha, -⟩⟩ := h
    · cases hf
    · exact ha
  | _ => simp [Raises] at h

/-- R45, R181: an index outside its space raises `OPERAND_RANGE`, where the store is defined. -/
theorem IndexOutOfRange.raises {i : Instr} {s : State} (h : IndexOutOfRange i s) :
    Raises i s .operandRange [] ∨ Raises i s .badPhase [] := by
  cases i with
  | wld | wrd =>
    cases hw : s.w with
    | none => exact .inr ⟨rfl, .inl ⟨hw, rfl⟩⟩
    | some f => exact .inl ⟨rfl, .inr ⟨by simp [hw], h, rfl⟩⟩
  | trd =>
    cases hn : s.n with
    | none => exact .inr ⟨rfl, .inl ⟨hn, rfl⟩⟩
    | some nodes => exact .inl ⟨rfl, .inr ⟨by simp [hn], h, rfl⟩⟩
  | crd =>
    cases hc : s.c with
    | none => exact .inr ⟨rfl, .inl ⟨hc, rfl⟩⟩
    | some tab => exact .inl ⟨rfl, .inr ⟨by simp [hc], h, rfl⟩⟩
  | _ => exact h.elim

theorem StateOk.exec_indexOutOfRange {i : Instr} {s : State} (h : StateOk s) (hf : s.phase ≠ .fault)
    (hl : legalIn i s.phase = true) (hi : IndexOutOfRange i s) :
    exec i s = .next (s.takeFault .operandRange i.opcode i.operandA) :=
  exec_of_raises_nil hl (hi.raises.resolve_right fun hbad => h.raises_ne_badPhase hf hl hbad rfl)

/-- R180: the causes behind the first three of the order have the codes 4 to 8. -/
theorem Cause.code_of_late {f : Cause} (h1 : f ≠ .illegalCmd) (h2 : f ≠ .badPhase) (h3 : f ≠ .operandRange) :
    f.code ∈ [4, 5, 6, 7, 8] := by
  cases f with
  | illegalCmd => exact absurd rfl h1
  | badPhase => exact absurd rfl h2
  | operandRange => exact absurd rfl h3
  | _ => decide

theorem StateOk.fcause_of_index_in_range {i : Instr} {s t : State} (h : StateOk s) (hf : s.phase ≠ .fault)
    (hl : legalIn i s.phase = true) (hi : ¬ IndexOutOfRange i s) (hx : exec i s = .next t) (ht : t.phase = .fault) :
    t.fcause ∈ [4, 5, 6, 7, 8] := by
  rcases exec_next_cases hx with ⟨hs, -⟩ | ⟨-, hill, -⟩ | ⟨-, -, f, es, hr, rfl⟩ | ⟨-, he⟩
  · exact absurd hs hf
  · simp [hl] at hill
  · refine Cause.code_of_late hr.ne_illegalCmd (h.raises_ne_badPhase hf hl hr) ?_
    rintro rfl
    exact hi hr.indexOutOfRange
  · exact absurd ht (he.stays_outside_fault hl hf).1

/-- Settles O15: one clause per condition of the order, in the order. -/
theorem firstConditionInOrderIsReported : Obligations.FirstConditionInOrderIsReported := by
  intro i s
  simp only [acceptWord_encode, mem_legalOps, Bool.not_eq_true]
  refine ⟨?_, fun hf w => acceptWord_in_fault hf, fun hf w hw => ?_, exec_illegal,
    StateOk.exec_indexOutOfRange, fun h hf hl hi t => h.fcause_of_index_in_range hf hl hi⟩
  · rintro (rfl | rfl) <;> exact ⟨_, _, rfl, rfl⟩
  · obtain ⟨hraised, -⟩ := illegalWordsRaiseIllegalCmd.2 w s hw
    exact hraised hf

end Sys2Proof.Machine
end

section
/-!
PROOFS. The two hardware resets (O10, O11), the placed command (O8), and the command's own word (O1). Each is what one step
does with one event: `step_reset`, `handle_resetDuring`, `step_withFetchWord`; for the words `decode_encode` is read in both
of its halves.
-/

namespace Sys2Proof.Machine

/-! ### A command and its word (R61, R62) -/

/-- R62: since a command's word decodes, its fields are in legal form. -/
theorem wellFormed_operands (i : Instr) : wellFormed i i.operandA i.operandD = true := by
  obtain ⟨-, hwf⟩ := (decode_ok_iff (encode i) i).1 (decode_encode i)
  rwa [encode, aField_packWord, dField_packWord] at hwf

/-- Settles O1: the decoder finds the command in its row (`candidate_self`), with fields in legal form. -/
theorem encodedCommandDecodesToItself : Obligations.EncodedCommandDecodesToItself :=
  fun i => ⟨wellFormed_operands i, decode_encode i⟩

/-! ### Placing a word (log 1) -/

theorem State.withFetchWord_toNat_inputs (s : State) (w : CmdWord) :
    (s.withFetchWord 48 w.toNat).inputs = .command w :: s.inputs := by
  rw [State.withFetchWord, Nat.mod_eq_of_lt w.isLt, BitVec.ofNat_toNat, BitVec.setWidth_eq]

/-- A placed word is accepted in the state it was placed in. -/
theorem step_withFetchWord (s : State) (w : CmdWord) : step (s.withFetchWord 48 w.toNat) = acceptWord w s :=
  step_of_inputs (s.withFetchWord_toNat_inputs w)

/-- Settles O8: the placed word is accepted next, and it is the command's own. -/
theorem placedCommandRunsNext : Obligations.PlacedCommandRunsNext :=
  fun s i => (step_withFetchWord s (encode i)).trans (acceptWord_encode i s)

/-! ### The hardware reset, between commands and during one (R210, R212) -/

/-- Settles O10: `step_reset` has no condition beside the event. -/
theorem hardwareResetCompletes : Obligations.HardwareResetCompletes :=
  fun _ _ h => step_reset h

/-- R212: of a command that would answer `t`, only the first `k` of the bytes it emits outlast a reset during it. -/
theorem handle_resetDuring {s t : State} {w : CmdWord} {bytes : List Byte} (h : acceptWord w s = .next t)
    (hout : t.out = s.out ++ bytes) (k : Nat) :
    handle (.resetDuring w k) s = .next ({ s with out := s.out ++ bytes.take k } : State).resetRegisters := by
  simp only [handle, abandon, h, hout, List.take_length_add_append]

/-- Settles O11: a prefix is the first bytes of its own length, so the reset after that many keeps it. -/
theorem resetDuringACommandKeepsAPrefix : Obligations.ResetDuringACommandKeepsAPrefix := by
  intro s t w bytes h hout
  have hkeeps := handle_resetDuring h hout
  refine ⟨hkeeps, fun pre hpre => ⟨pre.length, (hkeeps pre.length).trans ?_⟩⟩
  rw [← List.prefix_iff_eq_take.1 hpre]
  rfl

end Sys2Proof.Machine
end
